-- ==== Sys2Proof/Word.lean ====
section
/-! DEFINITION. The word types of GIFDEC (00_scope.md R6: 32-bit host data, 16-bit dimensions, 8-bit indices). -/

namespace Sys2Proof

/-- A 32-bit register, colour word or host address (00_scope.md R6). -/
abbrev Word := BitVec 32

/-- A screen or frame dimension or position (00_scope.md R6, DIM_BITS). -/
abbrev Half := BitVec 16

/-- A byte of CBUF or IBUF; a colour-table index (30_encoding.md R116). -/
abbrev Byte := BitVec 8

end Sys2Proof
end

