-- ==== Sys2Proof/Syntax.lean ====
section
/-! DEFINITION. The instructions of GIFDEC: one constructor for each row of spec/opcode_table.json. -/

namespace Sys2Proof

/-- The three levels of the opcode table: command words (30_encoding.md R101), LZW codes (R113) and sub-block
framing bytes (R115). The first seven constructors are CTRL words; `ie` is bit 8 of the word (R100). The
code-level constructors carry their code where the class does not fix it: CLEAR is 2^m, END is 2^m + 1 and
KWKWK is next. -/
inductive Instr where
  /-- NOP: only IE is loaded (40_commands.md R148). -/
  | nop (ie : Bool)
  /-- DECODE: LZW-decode CBUF into IBUF (40_commands.md R143). -/
  | decode (ie : Bool)
  /-- COMPOSITE: composite IBUF into FB (40_commands.md R144). -/
  | composite (ie : Bool)
  /-- FRAME: DECODE, then COMPOSITE if the decode succeeded (40_commands.md R145). -/
  | frame (ie : Bool)
  /-- A reserved command, CMD = 4 + c (40_commands.md R146). -/
  | reserved4to7 (ie : Bool) (c : BitVec 2)
  /-- A reserved command, CMD = 8 + c (40_commands.md R146). -/
  | reserved8toF (ie : Bool) (c : BitVec 3)
  /-- Soft reset, whatever the other bits hold (40_commands.md R147). -/
  | srst
  /-- CLEAR, the code 2^m (41_lzw.md R187). -/
  | codeClear
  /-- END, the code 2^m + 1 (41_lzw.md R188). -/
  | codeEnd
  /-- FIRST, the first data code after a CLEAR (41_lzw.md R189). -/
  | codeFirst (c : Nat)
  /-- FIRST_BAD, a first code that is no root (41_lzw.md R192). -/
  | codeFirstBad (c : Nat)
  /-- KNOWN, a root or a defined entry (41_lzw.md R190). -/
  | codeKnown (c : Nat)
  /-- KWKWK, the code equal to next (41_lzw.md R191). -/
  | codeKwkwk
  /-- INVALID, a code above next (41_lzw.md R192). -/
  | codeInvalid (c : Nat)
  /-- A length byte L, not 0: the next L bytes are data (41_lzw.md R183). -/
  | subblock (len : BitVec 8)
  /-- The length byte 0: the end of the data (41_lzw.md R183). -/
  | terminator
deriving DecidableEq, Repr

/-- The three levels at which the block reads an encoding (30_encoding.md, its opening). -/
inductive Level where
  | ctrl
  | code
  | frameByte
deriving DecidableEq, Repr

/-- The level an instruction is encoded at. -/
def Instr.level : Instr → Level
  | .nop _ | .decode _ | .composite _ | .frame _ | .reserved4to7 _ _ | .reserved8toF _ _ | .srst => .ctrl
  | .codeClear | .codeEnd | .codeFirst _ | .codeFirstBad _ | .codeKnown _ | .codeKwkwk | .codeInvalid _ => .code
  | .subblock _ | .terminator => .frameByte

/-- What the class of a code depends on beside its value, and its width (30_encoding.md R112, R113, R114). -/
structure CodeCtx where
  /-- Minimum code size. -/
  m : Nat
  /-- Current code width in bits. -/
  w : Nat
  /-- Dictionary size. -/
  next : Nat
  /-- The previous data code since the last CLEAR. -/
  prev : Option Nat
deriving DecidableEq, Repr

end Sys2Proof
end

