-- ==== Sys2Proof/WellFormed.lean ====
section
/-! DEFINITION. Which instructions have an encoding, and in which decoder contexts a code belongs to its class
(30_encoding.md R112, R113, R115). -/

namespace Sys2Proof

/-- A context the decoder can be in (41_lzw.md R181, R198 and 30_encoding.md R113): m from 2 to 8, w from m + 1 to
12, next from 2^m + 2 to 4096, and next = 2^m + 2 while there is no previous code. -/
abbrev CodeCtx.Ok (x : CodeCtx) : Prop :=
  (2 ≤ x.m ∧ x.m ≤ 8) ∧ (x.m + 1 ≤ x.w ∧ x.w ≤ 12) ∧ (2 ^ x.m + 2 ≤ x.next ∧ x.next ≤ 4096) ∧
    (x.prev = none → x.next = 2 ^ x.m + 2)

/-- The instruction has an encoding in this context: a sub-block length is not 0, and a code satisfies the
condition of its class (30_encoding.md R113) and fits the current width (R112). The CTRL words are all legal
(30_encoding.md R102). -/
def Instr.wf (x : CodeCtx) : Instr → Bool
  | .nop _ => true
  | .decode _ => true
  | .composite _ => true
  | .frame _ => true
  | .reserved4to7 _ _ => true
  | .reserved8toF _ _ => true
  | .srst => true
  | .codeClear => decide x.Ok
  | .codeEnd => decide x.Ok
  | .codeFirst c => decide (x.Ok ∧ x.prev = none ∧ c < 2 ^ x.m)
  | .codeFirstBad c => decide (x.Ok ∧ x.prev = none ∧ 2 ^ x.m + 2 ≤ c ∧ c < 2 ^ x.w)
  | .codeKnown c =>
    decide (x.Ok ∧ x.prev ≠ none ∧ c < x.next ∧ c ≠ 2 ^ x.m ∧ c ≠ 2 ^ x.m + 1 ∧ c < 2 ^ x.w)
  | .codeKwkwk => decide (x.Ok ∧ x.prev ≠ none ∧ x.next < 2 ^ x.w)
  | .codeInvalid c => decide (x.Ok ∧ x.prev ≠ none ∧ x.next < c ∧ c < 2 ^ x.w)
  | .subblock len => decide (len ≠ 0)
  | .terminator => true

end Sys2Proof
end

