-- ==== Sys2Proof/Decode.lean ====
section
/-! DEFINITION. The decoders of the three levels of the opcode table, and after them the encoder.
Every CTRL word, every framing byte and every code has a meaning (30_encoding.md R102, R113, R115), so the
decoders of one word are total; what is rejected, by name, is a word of the wrong number of bits. -/

namespace Sys2Proof

/-! ### CTRL words (30_encoding.md R100, R101) -/

/-- CTRL[31], the soft-reset bit (30_encoding.md R100). -/
def ctrlSrst (v : Word) : Bool := v.getLsbD 31

/-- CTRL[8], the interrupt enable (30_encoding.md R100). -/
def ctrlIe (v : Word) : Bool := v.getLsbD 8

/-- CTRL[3:0], the command code (30_encoding.md R100). -/
def ctrlCmd (v : Word) : BitVec 4 := v.extractLsb' 0 4

/-- The command map of 30_encoding.md R101 with SRST first (R100). Bits [30:9] and [7:4] are not looked at. -/
def decodeCtrl (v : Word) : Instr :=
  if ctrlSrst v then .srst
  else if ctrlCmd v = 0 then .nop (ctrlIe v)
  else if ctrlCmd v = 1 then .decode (ctrlIe v)
  else if ctrlCmd v = 2 then .composite (ctrlIe v)
  else if ctrlCmd v = 3 then .frame (ctrlIe v)
  else if (ctrlCmd v).getLsbD 3 then .reserved8toF (ctrlIe v) ((ctrlCmd v).extractLsb' 0 3)
  else .reserved4to7 (ctrlIe v) ((ctrlCmd v).extractLsb' 0 2)

/-! ### Framing bytes (30_encoding.md R115) -/

/-- The sub-block classes of 30_encoding.md R115. -/
def decodeFrameByte (b : Byte) : Instr :=
  if b = 0 then .terminator else .subblock b

/-! ### LZW codes (30_encoding.md R112, R113) -/

/-- The code classes of 30_encoding.md R113: the first row that matches, in the table's order. -/
def decodeCode (x : CodeCtx) (c : Nat) : Instr :=
  if c = 2 ^ x.m then .codeClear
  else if c = 2 ^ x.m + 1 then .codeEnd
  else if x.prev = none then
    if c < 2 ^ x.m then .codeFirst c else .codeFirstBad c
  else if c < x.next then .codeKnown c
  else if c = x.next then .codeKwkwk
  else .codeInvalid c

/-- The context in which a stream begins (41_lzw.md R182): the one a CLEAR leaves. -/
def CodeCtx.start (m : Nat) : CodeCtx :=
  { m := m, w := m + 1, next := 2 ^ m + 2, prev := none }

/-! ### One decoder over the levels -/

/-- Why a word is no instruction. -/
inductive DecodeError where
  /-- The word has `got` bits where the level's encoding has `need` (32, 8, or the current code width). -/
  | wrongWidth (got need : Nat)
  /-- The value does not fit in the bits the word has. -/
  | valueTooWide (nbits : Nat)
deriving DecidableEq, Repr

/-- The number of bits an encoding of the level has. -/
def Level.bits (x : CodeCtx) : Level → Nat
  | .ctrl => 32
  | .code => x.w
  | .frameByte => 8

/-- The instruction of the level that the `nbits` bits `w` hold, bit 0 least significant. -/
def decodeAt (x : CodeCtx) (l : Level) (nbits w : Nat) : Except DecodeError Instr :=
  if nbits ≠ l.bits x then .error (.wrongWidth nbits (l.bits x))
  else if 2 ^ nbits ≤ w then .error (.valueTooWide nbits)
  else match l with
    | .ctrl => .ok (decodeCtrl (BitVec.ofNat 32 w))
    | .code => .ok (decodeCode x w)
    | .frameByte => .ok (decodeFrameByte (BitVec.ofNat 8 w))

/-- The m that a code given without a decoder is read with: the smallest legal one (log 15, DESIGN CHOICE). -/
def tableMinCode : Nat := 2

/-- The instruction the decoder reads from the bits of one row of spec/opcode_table.json. A CTRL row has 32 bits and
a framing row 8. A code row has no fixed number of bits and its class depends on the decoder's state; 16 bits
(a code in whole bytes), or fewer, are read as the first code of a stream with m = `tableMinCode`, from the low bits
(log 15, DESIGN CHOICE). -/
def decodeTableWord (nbits w : Nat) : Option Instr :=
  let x := CodeCtx.start tableMinCode
  if nbits = 32 then (decodeAt x .ctrl 32 (w % 2 ^ 32)).toOption
  else if nbits = 8 then (decodeAt x .frameByte 8 (w % 2 ^ 8)).toOption
  else if nbits ≤ 16 then (decodeAt x .code x.w (w % 2 ^ x.w)).toOption
  else none

/-! ### The encoder -/

/-- A CTRL word with the given command and IE; SRST and the ignored bits are 0 (30_encoding.md R100). -/
def ctrlWord (ie : Bool) (c : BitVec 4) : Word :=
  (if ie then 0x100 else 0) ||| c.zeroExtend 32

/-- The value of the instruction's encoding in the context: a CTRL word (30_encoding.md R100, R101), a code
(R113) or a length byte (R115). -/
def encodeValue (x : CodeCtx) : Instr → Nat
  | .nop ie => (ctrlWord ie 0).toNat
  | .decode ie => (ctrlWord ie 1).toNat
  | .composite ie => (ctrlWord ie 2).toNat
  | .frame ie => (ctrlWord ie 3).toNat
  | .reserved4to7 ie c => (ctrlWord ie (1#2 ++ c)).toNat
  | .reserved8toF ie c => (ctrlWord ie (1#1 ++ c)).toNat
  | .srst => 0x80000000
  | .codeClear => 2 ^ x.m
  | .codeEnd => 2 ^ x.m + 1
  | .codeFirst c => c
  | .codeFirstBad c => c
  | .codeKnown c => c
  | .codeKwkwk => x.next
  | .codeInvalid c => c
  | .subblock len => len.toNat
  | .terminator => 0

/-- The word of a well-formed instruction: its number of bits and its value. -/
def encode (x : CodeCtx) (i : Instr) : Nat × Nat :=
  (i.level.bits x, encodeValue x i)

end Sys2Proof
end

