-- ==== Sys2Proof/Config.lean ====
section
/-! DEFINITION. The two size parameters of an instance (00_scope.md R6) and the values the spec leaves open
(93_implementation_defined.md U1, U2, U3): constants with no body, so that nothing can be proved of their value. -/

namespace Sys2Proof.Config

/-- The OPEN parameters of 00_scope.md R6. The spec makes them an argument of the model; State carries them
and no step changes them (log 1, DESIGN CHOICE). -/
structure Params where
  /-- CBUF_BYTES: capacity of CBUF in bytes. -/
  cbufBytes : Nat
  /-- MAX_PIXELS: capacity of IBUF in bytes and of FB in pixels. -/
  maxPixels : Nat
deriving DecidableEq, Repr

/-- The bounds of 00_scope.md R6. -/
abbrev Params.InRange (p : Params) : Prop :=
  (1 ≤ p.cbufBytes ∧ p.cbufBytes ≤ 0x00F00000) ∧ (1 ≤ p.maxPixels ∧ p.maxPixels ≤ 0x30000000)

/-- The instance that State.reset describes: the parameters of 95_test_vectors.md (log 1, DESIGN CHOICE). -/
def Params.vectors : Params := { cbufBytes := 8192, maxPixels := 4096 }

/-- The byte a memory location holds that nothing has written since its contents became unspecified, for the
generation and the host address given (93_implementation_defined.md U1, U2; log 2 and log 3). -/
opaque unwrittenByte : Nat → Nat → BitVec 8

/-- What the n-th read of PIXCOUNT, ERRVAL or POS in the BUSY window of a DECODE or FRAME returns
(93_implementation_defined.md U3; log 4). -/
opaque busyResult : Nat → BitVec 32

end Sys2Proof.Config
end

