-- ==== Sys2Proof/Machine/State.lean ====
section
/-! DEFINITION. The state of GIFDEC as plain data (10_state.md), the reasons a step can stop, and the state after
reset (70_reset_and_hazards.md R300). -/

namespace Sys2Proof.Machine

open Sys2Proof

/-! ### The engine's hidden state (10_state.md section 3) -/

/-- The commands the engine runs (30_encoding.md R101). -/
inductive Op where
  | decode
  | composite
  | frame
deriving DecidableEq, Repr

/-- The command record latched at acceptance (10_state.md R52). -/
structure CmdRec where
  op : Op
  sw : Half
  sh : Half
  fx : Half
  fy : Half
  fw : Half
  fh : Half
  il : Bool
  te : Bool
  ti : Byte
  m : BitVec 4
  len : Word
deriving DecidableEq, Repr

/-- What a decode reports (41_lzw.md R197), before it is written to PIXCOUNT, ERRVAL and POS. -/
structure DecResult where
  count : Nat
  val : Nat
  pos : Nat
deriving DecidableEq, Repr

/-- The decoder's hidden state (10_state.md R53). `dict` lists the dictionary slots in use, code 0 first
(10_state.md R55): a slot holds a sequence, or `none` at CLEAR and END. Its length is `next` (log 13). -/
structure DecState where
  p : Nat
  rem : Nat
  acc : Nat
  nacc : Nat
  dict : List (Option (List Byte))
  w : Nat
  prev : Option Nat
  count : Nat
deriving DecidableEq, Repr

/-- What the engine is doing. BUSY is 1 exactly when it is not idle (10_state.md R25; log 11). -/
inductive Engine where
  /-- No command is running. -/
  | idle
  /-- A command was accepted, and its checks are still to come (40_commands.md R143 to R145). -/
  | starting (r : CmdRec)
  /-- The decode phase (41_lzw.md). -/
  | decoding (r : CmdRec) (d : DecState)
  /-- The composite phase at pixel i (10_state.md R54); `res` is FRAME's decode result (40_commands.md R145). -/
  | compositing (r : CmdRec) (res : DecResult) (i : Nat)
deriving DecidableEq, Repr

/-! ### The host port and the agents' turns -/

/-- The error codes of 60_exceptions.md R260. Codes 9 to 15 do not exist (93_implementation_defined.md U8). -/
inductive Err where
  | none
  | badcmd
  | mincode
  | screen
  | frame
  | cbuflen
  | badcode
  | eod
  | overrun
deriving DecidableEq, Repr

/-- The widths of a host transaction (20_memory.md R75): 1, 2 or 4 bytes. -/
inductive Width where
  | w8
  | w16
  | w32
deriving DecidableEq, Repr

/-- One host transaction (30_encoding.md R104). A write's data is the low bytes of `data` (log 9). -/
inductive HostTxn where
  | read (n : Width) (addr : Word)
  | write (n : Width) (addr : Word) (data : Word)
deriving DecidableEq, Repr

/-- What the block answers to a transaction (20_memory.md R75, R76): the value read, zero-extended to 32 bits, the
end of a write, or BUS_ERROR. `none`: no transaction since reset (log 9). -/
inductive BusResp where
  | none
  | written
  | data (v : Word)
  | busError
deriving DecidableEq, Repr

/-- Whose turn it is: the host's with a transaction, the engine's, or the reset input's (log 5, log 10). -/
inductive Turn where
  | host (t : HostTxn)
  | engine
  | reset
deriving DecidableEq, Repr

/-! ### Memory -/

/-- The bytes written since their location's contents became unspecified, by host address (20_memory.md R70),
addresses strictly rising. An address that is not listed holds a byte the spec leaves open (log 2). -/
abbrev Memory := List Host.Cell

/-- An event that makes memory contents unspecified (log 2, log 3). -/
inductive Loss where
  /-- A hardware reset: all four memories (70_reset_and_hazards.md R300; 93_implementation_defined.md U1). -/
  | hardReset
  /-- A soft reset that abandoned a command: the locations this command could have written (40_commands.md R147;
  93_implementation_defined.md U2). -/
  | abandoned (r : CmdRec)
deriving DecidableEq, Repr

/-! ### The state -/

/-- All the state of one GIFDEC instance, with the model's own fields `params`, `agenda`, `busResp`,
`losses` and `freeCount` (INVENTORY.md, State). -/
structure State where
  /-- CTRL.IE (10_state.md R23). -/
  ie : Bool
  /-- STATUS.DONE (10_state.md R26). -/
  done : Bool
  /-- STATUS.CMDLOST (10_state.md R27). -/
  cmdlost : Bool
  /-- STATUS.ERRCODE (10_state.md R28). -/
  errcode : Err
  /-- STATUS.LASTCMD (10_state.md R29). -/
  lastcmd : BitVec 4
  /-- SCREEN (10_state.md R30). -/
  screen : Word
  /-- FPOS (10_state.md R31). -/
  fpos : Word
  /-- FDIM (10_state.md R32). -/
  fdim : Word
  /-- FCFG (10_state.md R35 to R38). -/
  fcfg : Word
  /-- CBUFLEN (10_state.md R39). -/
  cbuflen : Word
  /-- PIXCOUNT (10_state.md R40). -/
  pixcount : Word
  /-- ERRVAL (10_state.md R41). -/
  errval : Word
  /-- POS (10_state.md R42). -/
  pos : Word
  /-- CTAB, CBUF, IBUF and FB (10_state.md R44 to R47). -/
  mem : Memory
  /-- The engine and its hidden state (10_state.md R52 to R55). -/
  engine : Engine
  /-- CBUF_BYTES and MAX_PIXELS of this instance (00_scope.md R6; log 1). -/
  params : Config.Params
  /-- The turns still to come, the next one first (log 5). -/
  agenda : List Turn
  /-- The block's last answer on the host port (log 9). -/
  busResp : BusResp
  /-- The events that made memory contents unspecified, the last one first (log 2, log 3). -/
  losses : List Loss
  /-- How many free values the host has read from the result registers (log 4). -/
  freeCount : Nat
deriving DecidableEq, Repr

/-- Why the machine stops. -/
inductive Fault where
  /-- HOST_HAZARD (60_exceptions.md R267): raised by a host access to the CBUF, IBUF, CTAB or FB window while
  BUSY = 1. Safe: the hardware goes on with an unspecified result. -/
  | hostHazard
deriving DecidableEq, Repr

/-- Why an instruction has no meaning in a state. -/
inductive Refusal where
  /-- Raised by an arm of `exec` whose instruction has no meaning yet. Safe: the machine stops. -/
  | notModelled (mnemonic : String)
  /-- Raised by a code or a framing byte given to `exec` while the engine is not in the decode phase, where no
  such word exists (10_state.md R53). No step raises it. Safe: the machine stops (log 14). -/
  | noDecode
  /-- Raised by a code that names a dictionary slot which holds no sequence, where the code is not of the class
  (10_state.md R55). No step from a state that meets the decoder's invariant raises it. Safe (log 14). -/
  | undefinedSlot
deriving DecidableEq, Repr

/-- The state after a hardware reset of the instance with the given parameters (70_reset_and_hazards.md R300 and
the summary after 10_state.md R43). -/
def State.resetWith (p : Config.Params) : State where
  ie := false
  done := false
  cmdlost := false
  errcode := .none
  lastcmd := 0
  screen := 0
  fpos := 0
  fdim := 0
  fcfg := 0
  cbuflen := 0
  pixcount := 0
  errval := 0
  pos := 0
  mem := []
  engine := .idle
  params := p
  agenda := []
  busResp := .none
  losses := []
  freeCount := 0

/-- The machine right after reset, for the instance of 95_test_vectors.md (log 1). -/
def State.reset : State := State.resetWith Config.Params.vectors

end Sys2Proof.Machine
end

