-- ==== Sys2Proof/Machine/Map.lean ====
section
/-! DEFINITION. The host address map (20_memory.md R70), the legality of an access (R78) and the register offsets
(10_state.md R20). -/

namespace Sys2Proof.Machine

open Sys2Proof

/-- The mapped regions of 20_memory.md R70. -/
inductive Region where
  | regs
  | ctab
  | cbuf
  | ibuf
  | fb
deriving DecidableEq, Repr

/-- First address of the CTAB window. -/
def ctabBase : Nat := 0x00001000
/-- First address of the CBUF window. -/
def cbufBase : Nat := 0x00100000
/-- First address of the IBUF window. -/
def ibufBase : Nat := 0x01000000
/-- First address of the FB window. -/
def fbBase : Nat := 0x40000000

/-- The region a byte address lies in; `none` where the map has nothing (20_memory.md R70). -/
def regionOf (p : Config.Params) (a : Nat) : Option Region :=
  if a < 0x1000 then some .regs
  else if a < 0x1400 then some .ctab
  else if cbufBase ≤ a ∧ a < cbufBase + p.cbufBytes then some .cbuf
  else if ibufBase ≤ a ∧ a < ibufBase + p.maxPixels then some .ibuf
  else if fbBase ≤ a ∧ a < fbBase + 4 * p.maxPixels then some .fb
  else none

/-- The number of bytes of a transaction (20_memory.md R75). -/
def Width.bytes : Width → Nat
  | .w8 => 1
  | .w16 => 2
  | .w32 => 4

/-- Whether a region accepts a width (20_memory.md R70, the last column). -/
def Region.accepts : Region → Width → Bool
  | .regs, n => n == .w32
  | .ctab, n => n == .w32
  | .cbuf, _ => true
  | .ibuf, _ => true
  | .fb, n => n == .w32

/-- The region of a legal access: mapped, of a width the region accepts, aligned to its width, and with its last
byte in the same region (20_memory.md R78). `none`: the access is a bus error. -/
def legalRegion (p : Config.Params) (n : Width) (a : Nat) : Option Region :=
  match regionOf p a with
  | none => none
  | some g =>
    if g.accepts n ∧ a % n.bytes = 0 ∧ regionOf p (a + n.bytes - 1) = some g then some g else none

/-- The named register offsets (10_state.md R20). -/
inductive Reg where
  | id
  | ctrl
  | status
  | screen
  | fpos
  | fdim
  | fcfg
  | cbuflen
  | pixcount
  | errval
  | pos
  | capCbuf
  | capPix
  | reserved
deriving DecidableEq, Repr

/-- The register at an offset of the register block (10_state.md R20); offsets from 0x034 on are reserved. -/
def regAt (off : Nat) : Reg :=
  if off = 0x000 then .id
  else if off = 0x004 then .ctrl
  else if off = 0x008 then .status
  else if off = 0x00C then .screen
  else if off = 0x010 then .fpos
  else if off = 0x014 then .fdim
  else if off = 0x018 then .fcfg
  else if off = 0x01C then .cbuflen
  else if off = 0x020 then .pixcount
  else if off = 0x024 then .errval
  else if off = 0x028 then .pos
  else if off = 0x02C then .capCbuf
  else if off = 0x030 then .capPix
  else .reserved

/-- The host address of CTRL (10_state.md R20). -/
def ctrlAddr : Word := 0x00000004

end Sys2Proof.Machine
end

