-- ==== Sys2Proof/Machine/Ops.lean ====
section
/-! DEFINITION. The shared operations: the memories and how their contents are lost, the engine's hidden state, and the
end of a command with its error code (which is how GIFDEC takes an exception, 60_exceptions.md R263). -/

namespace Sys2Proof.Machine

open Sys2Proof

/-! ### Memory as a list of written bytes -/

/-- The canonical form of a memory: addresses strictly rising, so that no address is listed twice. An unlisted
address has no written byte, and no entry says so, so equal reads mean equal lists (log 2). -/
abbrev Memory.wf (m : Memory) : Prop := m.Pairwise (fun a b => a.1 < b.1)

/-- The byte written at an address; `none` where nothing has been written. -/
def Memory.read? : Memory → Nat → Option Byte
  | [], _ => none
  | (k, v) :: rest, a => if k = a then some v else Memory.read? rest a

/-- Writes one byte and keeps the addresses rising. -/
def Memory.write : Memory → Nat → Byte → Memory
  | [], a, v => [(a, v)]
  | (k, x) :: rest, a, v =>
    if a < k then (a, v) :: (k, x) :: rest
    else if a = k then (a, v) :: rest
    else (k, x) :: Memory.write rest a v

/-- Forgets the bytes written at the addresses that are lost. -/
def Memory.forget (m : Memory) (lost : Nat → Bool) : Memory := m.filter fun c => !lost c.1

/-! ### Locations whose contents have become unspecified -/

/-- N = fw × fh, exact (41_lzw.md R180). -/
def CmdRec.pixels (r : CmdRec) : Nat := r.fw.toNat * r.fh.toNat

/-- The command can write IBUF (40_commands.md R143, R145). -/
def Op.writesIbuf : Op → Bool
  | .decode => true
  | .composite => false
  | .frame => true

/-- The command can write FB (40_commands.md R144, R145). -/
def Op.writesFb : Op → Bool
  | .decode => false
  | .composite => true
  | .frame => true

/-- Pixel k of FB, which is screen row k / sw and column k mod sw (10_state.md R47), lies inside the frame rectangle
(42_compositor.md R238). -/
def CmdRec.inFrame (r : CmdRec) (k : Nat) : Bool :=
  (r.fy.toNat ≤ k / r.sw.toNat && k / r.sw.toNat < r.fy.toNat + r.fh.toNat) &&
    (r.fx.toNat ≤ k % r.sw.toNat && k % r.sw.toNat < r.fx.toNat + r.fw.toNat)

/-- The host address belongs to a location that a command past its start checks can write: a byte of
IBUF[0 .. fw × fh - 1] (40_commands.md R143), or one of an FB pixel inside the frame rectangle (R144). -/
def CmdRec.couldWrite (r : CmdRec) (a : Nat) : Bool :=
  (r.op.writesIbuf && (ibufBase ≤ a && a < ibufBase + r.pixels)) ||
    (r.op.writesFb && (fbBase ≤ a && r.inFrame ((a - fbBase) / 4)))

/-- The addresses whose contents an event makes unspecified (log 2, log 3). -/
def Loss.covers : Loss → Nat → Bool
  | .hardReset, _ => true
  | .abandoned r, a => r.couldWrite a

/-- Which unspecified contents an address has if nothing is written there: the number, oldest first from 1, of the last
event that covers it, and 0 where there is none. -/
def generation : List Loss → Nat → Nat
  | [], _ => 0
  | l :: older, a => if l.covers a then older.length + 1 else generation older a

/-- The generation of an address. -/
def State.genAt (s : State) (a : Nat) : Nat := generation s.losses a

/-- The byte at an address: the one written there, or the unspecified one (93_implementation_defined.md U1, U2). -/
def State.byteAt (s : State) (a : Nat) : Byte :=
  (s.mem.read? a).getD (Config.unwrittenByte (s.genAt a) a)

/-- Contents become unspecified: what was written at the covered addresses is forgotten, and each of them gets a fresh
free value. Every other address keeps its byte, written or not. -/
def State.lose (s : State) (l : Loss) : State :=
  { s with mem := s.mem.forget l.covers, losses := l :: s.losses }

/-- The 32-bit word at an address, lowest byte first (20_memory.md R77). -/
def State.wordAt (s : State) (a : Nat) : Word :=
  s.byteAt (a + 3) ++ s.byteAt (a + 2) ++ s.byteAt (a + 1) ++ s.byteAt a

/-- The 16-bit value at an address, lowest byte first (20_memory.md R77). -/
def State.halfAt (s : State) (a : Nat) : Half :=
  s.byteAt (a + 1) ++ s.byteAt a

/-- The state with another memory. -/
def State.withMem (s : State) (m : Memory) : State := { s with mem := m }

/-- Stores one byte. -/
def State.storeByte (s : State) (a : Nat) (v : Byte) : State :=
  s.withMem (s.mem.write a v)

/-- Stores a 16-bit value, lowest byte first (20_memory.md R77). -/
def State.storeHalf (s : State) (a : Nat) (v : Half) : State :=
  (s.storeByte a (v.extractLsb' 0 8)).storeByte (a + 1) (v.extractLsb' 8 8)

/-- Stores a 32-bit word, lowest byte first (20_memory.md R77). -/
def State.storeWord (s : State) (a : Nat) (v : Word) : State :=
  (((s.storeByte a (v.extractLsb' 0 8)).storeByte (a + 1) (v.extractLsb' 8 8)).storeByte
    (a + 2) (v.extractLsb' 16 8)).storeByte (a + 3) (v.extractLsb' 24 8)

/-! ### The four memories by their array names (00_scope.md R8) -/

/-- CBUF[o] (10_state.md R45). -/
def State.cbuf (s : State) (o : Nat) : Byte := s.byteAt (cbufBase + o)

/-- IBUF[o] (10_state.md R46). -/
def State.ibuf (s : State) (o : Nat) : Byte := s.byteAt (ibufBase + o)

/-- CTAB[i] (10_state.md R44). -/
def State.ctab (s : State) (i : Byte) : Word := s.wordAt (ctabBase + 4 * i.toNat)

/-- FB[k] (10_state.md R47). -/
def State.fb (s : State) (k : Nat) : Word := s.wordAt (fbBase + 4 * k)

/-- IBUF[o] <- v. -/
def State.setIbuf (s : State) (o : Nat) (v : Byte) : State := s.storeByte (ibufBase + o) v

/-- FB[k] <- v. -/
def State.setFb (s : State) (k : Nat) (v : Word) : State := s.storeWord (fbBase + 4 * k) v

/-! ### The engine -/

/-- The latched record of the running command, if there is one. -/
def Engine.cmd? : Engine → Option CmdRec
  | .idle => none
  | .starting r => some r
  | .decoding r _ => some r
  | .compositing r _ _ => some r

/-- STATUS.BUSY (10_state.md R25; log 11). -/
def State.busy (s : State) : Bool := s.engine.cmd?.isSome

/-- The engine goes on in the given state. -/
def State.setEngine (s : State) (e : Engine) : State := { s with engine := e }

/-- The command reports a decode result at completion (40_commands.md R142). -/
def Op.reports : Op → Bool
  | .decode => true
  | .composite => false
  | .frame => true

/-! ### The end of a command -/

/-- The result of a command whose start check failed (40_commands.md R142), and of a decode with N = 0
(41_lzw.md R180). -/
def DecResult.zero : DecResult := { count := 0, val := 0, pos := 0 }

/-- Complete(E, r) of 40_commands.md R142: DECODE and FRAME write PIXCOUNT, ERRVAL and POS; ERRCODE takes the code,
DONE becomes 1 and BUSY 0. No other state changes. -/
def State.complete (s : State) (r : CmdRec) (e : Err) (res : DecResult) : State :=
  { s with
    pixcount := if r.op.reports then BitVec.ofNat 32 res.count else s.pixcount
    errval := if r.op.reports then BitVec.ofNat 32 res.val else s.errval
    pos := if r.op.reports then BitVec.ofNat 32 res.pos else s.pos
    errcode := e
    done := true
    engine := .idle }

/-- raise Error(E, val v, pos p) inside LzwDecode (41_lzw.md R186): the command ends with the indices emitted so far.
This is all an error does: no program counter, no mode, no vector, and no return from it
(60_exceptions.md R263, R264). -/
def State.raiseError (s : State) (r : CmdRec) (d : DecState) (e : Err) (val : Nat) : State :=
  s.complete r e { count := d.count, val := val, pos := d.p }

/-- The decode phase ends without an error (41_lzw.md R188, R193): FRAME goes on to its composite phase
(40_commands.md R145), DECODE completes. -/
def State.finishDecode (s : State) (r : CmdRec) (res : DecResult) : State :=
  if r.op = .frame then s.setEngine (.compositing r res 0) else s.complete r .none res

/-! ### The host port -/

/-- The block answers the host. -/
def State.respond (s : State) (b : BusResp) : State := { s with busResp := b }

/-- Drops the turn that is being taken. -/
def State.withAgenda (s : State) (l : List Turn) : State := { s with agenda := l }

end Sys2Proof.Machine
end

