-- ==== Sys2Proof/Machine/Flags.lean ====
section
/-! DEFINITION. The only flags of the block (10_state.md R51): the STATUS fields, how STATUS reads and is written,
and irq. -/

namespace Sys2Proof.Machine

open Sys2Proof

/-- The number of an error code (60_exceptions.md R260). -/
def Err.code : Err → BitVec 4
  | .none => 0
  | .badcmd => 1
  | .mincode => 2
  | .screen => 3
  | .frame => 4
  | .cbuflen => 5
  | .badcode => 6
  | .eod => 7
  | .overrun => 8

/-- One bit as a BitVec. -/
def bit (b : Bool) : BitVec 1 := BitVec.ofBool b

/-- What a read of STATUS returns: LASTCMD [11:8], ERRCODE [7:4], 0, CMDLOST, DONE, BUSY
(10_state.md R25 to R29). -/
def State.statusWord (s : State) : Word :=
  0#20 ++ s.lastcmd ++ s.errcode.code ++ 0#1 ++ bit s.cmdlost ++ bit s.done ++ bit s.busy

/-- A write of STATUS: bit 1 clears DONE and bit 2 clears CMDLOST where they are 1; nothing else changes
(10_state.md R26, R27, R29). -/
def State.writeStatus (s : State) (v : Word) : State :=
  { s with done := s.done && !v.getLsbD 1, cmdlost := s.cmdlost && !v.getLsbD 2 }

/-- What a read of CTRL returns: IE at bit 8, and 0 elsewhere (10_state.md R22 to R24). -/
def State.ctrlWord (s : State) : Word := 0#23 ++ bit s.ie ++ 0#8

/-- irq = DONE and IE (60_exceptions.md R270). -/
def State.irq (s : State) : Bool := s.done && s.ie

end Sys2Proof.Machine
end

