-- ==== Sys2Proof/Machine/Operands.lean ====
section
/-! DEFINITION. The operands of the commands: the register fields (30_encoding.md R103), the command record latched
at acceptance (10_state.md R52), and the operands of a code in the decoder's state (10_state.md R53). -/

namespace Sys2Proof.Machine

open Sys2Proof

/-- Bits [15:0] of SCREEN, FPOS or FDIM (10_state.md R30 to R32). -/
def lowHalf (v : Word) : Half := v.extractLsb' 0 16

/-- Bits [31:16] of SCREEN, FPOS or FDIM (10_state.md R30 to R32). -/
def highHalf (v : Word) : Half := v.extractLsb' 16 16

/-- FCFG.INTERLACE, bit 0 (10_state.md R35). -/
def fcfgInterlace (v : Word) : Bool := v.getLsbD 0

/-- FCFG.TRANS_EN, bit 1 (10_state.md R36). -/
def fcfgTransEn (v : Word) : Bool := v.getLsbD 1

/-- FCFG.TRANS_IDX, bits [15:8] (10_state.md R37). -/
def fcfgTransIdx (v : Word) : Byte := v.extractLsb' 8 8

/-- FCFG.MINCODE, bits [19:16] (10_state.md R38). -/
def fcfgMinCode (v : Word) : BitVec 4 := v.extractLsb' 16 4

/-- The bits of FCFG that exist; the others read 0 and ignore writes (10_state.md R35 to R38). -/
def fcfgMask : Word := 0x000FFF03

/-- The command record a command latches from the registers (10_state.md R52; 30_encoding.md R103). -/
def State.latch (s : State) (op : Op) : CmdRec where
  op := op
  sw := lowHalf s.screen
  sh := highHalf s.screen
  fx := lowHalf s.fpos
  fy := highHalf s.fpos
  fw := lowHalf s.fdim
  fh := highHalf s.fdim
  il := fcfgInterlace s.fcfg
  te := fcfgTransEn s.fcfg
  ti := fcfgTransIdx s.fcfg
  m := fcfgMinCode s.fcfg
  len := s.cbuflen

/-- CMD of a command (30_encoding.md R101). -/
def Op.cmd : Op → BitVec 4
  | .decode => 1
  | .composite => 2
  | .frame => 3

/-! ### Operands of a code -/

/-- The dictionary size (10_state.md R53, R55; log 13). -/
def DecState.next (d : DecState) : Nat := d.dict.length

/-- seq(e): the sequence slot e holds, if it holds one (10_state.md R55). -/
def DecState.seq (d : DecState) (e : Nat) : Option (List Byte) := (d.dict[e]?).join

/-- The sequence of the previous code, if there is one. -/
def DecState.prevSeq (d : DecState) : Option (List Byte) := d.prev.bind d.seq

/-- What classifies the next code (30_encoding.md R113). -/
def codeCtx (r : CmdRec) (d : DecState) : CodeCtx where
  m := r.m.toNat
  w := d.w
  next := d.next
  prev := d.prev

/-! ### The start checks -/

/-- MinCodeOK (41_lzw.md R181). -/
def minCodeOk (r : CmdRec) : Bool := 2 ≤ r.m.toNat && r.m.toNat ≤ 8

/-- CbufLenOK (41_lzw.md R181). -/
def cbufLenOk (p : Config.Params) (r : CmdRec) : Bool := r.len.toNat ≤ p.cbufBytes

/-- ScreenOK (42_compositor.md R230). -/
def screenOk (p : Config.Params) (r : CmdRec) : Bool :=
  1 ≤ r.sw.toNat && 1 ≤ r.sh.toNat && r.sw.toNat * r.sh.toNat ≤ p.maxPixels

/-- FrameInScreen (42_compositor.md R230). -/
def frameInScreen (r : CmdRec) : Bool :=
  r.fx.toNat + r.fw.toNat ≤ r.sw.toNat && r.fy.toNat + r.fh.toNat ≤ r.sh.toNat

/-- Every start check of the command passes (40_commands.md R143 to R145). A command with one that fails writes no
memory (60_exceptions.md R262). -/
def startOk (p : Config.Params) (r : CmdRec) : Bool :=
  match r.op with
  | .decode => minCodeOk r && r.pixels ≤ p.maxPixels && cbufLenOk p r
  | .composite => screenOk p r && frameInScreen r
  | .frame => minCodeOk r && screenOk p r && frameInScreen r && cbufLenOk p r

end Sys2Proof.Machine
end

