-- ==== Sys2Proof/Machine/Compositor.lean ====
section
/-! DEFINITION. The composite phase (42_compositor.md): one pixel of the loop of R231 at a time. -/

namespace Sys2Proof.Machine

open Sys2Proof

/-- Rows in interlace pass 1 (42_compositor.md R234). -/
def passRows1 (h : Nat) : Nat := (h + 7) / 8
/-- Rows in interlace pass 2 (42_compositor.md R234). -/
def passRows2 (h : Nat) : Nat := (h + 3) / 8
/-- Rows in interlace pass 3 (42_compositor.md R234). -/
def passRows3 (h : Nat) : Nat := (h + 1) / 4

/-- RowOf(r, h, il) (42_compositor.md R232, and R234's closed form). -/
def rowOf (r h : Nat) (il : Bool) : Nat :=
  if il = false then r
  else if r < passRows1 h then 8 * r
  else if r < passRows1 h + passRows2 h then 8 * (r - passRows1 h) + 4
  else if r < passRows1 h + passRows2 h + passRows3 h then 4 * (r - passRows1 h - passRows2 h) + 2
  else 2 * (r - passRows1 h - passRows2 h - passRows3 h) + 1

/-- The FB pixel that decoded row `row` and frame column `x` go to (42_compositor.md R231, R237). -/
def CmdRec.target (r : CmdRec) (row x : Nat) : Nat :=
  (rowOf row r.fh.toNat r.il + r.fy.toNat) * r.sw.toNat + r.fx.toNat + x

/-- An index byte is transparent (42_compositor.md R235). -/
def CmdRec.transparent (r : CmdRec) (idx : Byte) : Bool := r.te && idx == r.ti

/-- The loop body of Composite for pixel i (42_compositor.md R231): i = row × fw + x. -/
def State.pixel (s : State) (r : CmdRec) (i : Nat) : State :=
  if r.transparent (s.ibuf i) then s
  else s.setFb (r.target (i / r.fw.toNat) (i % r.fw.toNat)) (s.ctab (s.ibuf i))

/-- One turn of the composite phase: the next pixel, or the completion with E_NONE after the last
(40_commands.md R144, R145). -/
def State.compositeTurn (s : State) (r : CmdRec) (res : DecResult) (i : Nat) : State :=
  if i < r.pixels then (s.pixel r i).setEngine (.compositing r res (i + 1))
  else s.complete r .none res

end Sys2Proof.Machine
end

