-- ==== Sys2Proof/Machine/Reset.lean ====
section
/-! DEFINITION. The two resets (40_commands.md R147; 70_reset_and_hazards.md R300, R302). -/

namespace Sys2Proof.Machine

open Sys2Proof

/-- Abandons the running command, if there is one: the locations it could have written become unspecified, and they
alone (40_commands.md R147; 93_implementation_defined.md U2; log 3). -/
def State.abandon (s : State) : State :=
  match s.engine.cmd? with
  | none => s
  | some r => if startOk s.params r then s.lose (.abandoned r) else s

/-- SoftReset() of 40_commands.md R147: every register field takes its reset value, the engine returns to idle, and
the memories keep their contents but for what an abandoned command could have written
(70_reset_and_hazards.md R302). -/
def State.softReset (s : State) : State :=
  { State.resetWith s.params with
    mem := s.abandon.mem
    losses := s.abandon.losses
    agenda := s.agenda
    busResp := s.busResp
    freeCount := s.freeCount }

/-- The hardware reset of 70_reset_and_hazards.md R300: registers as SoftReset, and the contents of all four
memories unspecified (log 2, log 10). -/
def State.hardReset (s : State) : State :=
  { State.resetWith s.params with
    losses := .hardReset :: s.losses
    agenda := s.agenda
    freeCount := s.freeCount }

end Sys2Proof.Machine
end

