-- ==== Sys2Proof/Machine/Control.lean ====
section
/-! DEFINITION. The meanings of the CTRL words: what a host write of CTRL does as one atomic step
(40_commands.md R140). The engine then carries an accepted command out in turns of its own (R141;
Machine/Engine.lean; log 17). -/

namespace Sys2Proof.Machine

open Sys2Proof

/-- A CTRL word with SRST = 0 loads IE (10_state.md R23; 40_commands.md R140). -/
def State.loadIe (s : State) (ie : Bool) : State := { s with ie := ie }

/-- A request made while BUSY is dropped and sets CMDLOST (40_commands.md R140). -/
def State.dropRequest (s : State) : State := { s with cmdlost := true }

/-- Acceptance: LASTCMD takes the command, and DONE and ERRCODE are cleared (40_commands.md R140). -/
def State.accept (s : State) (c : BitVec 4) : State :=
  { s with lastcmd := c, done := false, errcode := .none }

/-- A request for a command the engine runs (40_commands.md R140): dropped while BUSY; otherwise accepted, its record
latched, and the engine started, which makes BUSY 1. -/
def State.request (s : State) (ie : Bool) (op : Op) : State :=
  if (s.loadIe ie).busy then (s.loadIe ie).dropRequest
  else ((s.loadIe ie).accept op.cmd).setEngine (.starting ((s.loadIe ie).latch op))

/-- A request for a reserved command (40_commands.md R140, R146): dropped while BUSY; otherwise accepted and
completed at once with E_BADCMD. -/
def State.requestReserved (s : State) (ie : Bool) (c : BitVec 4) : State :=
  if (s.loadIe ie).busy then (s.loadIe ie).dropRequest
  else { (s.loadIe ie).accept c with errcode := .badcmd, done := true }

/-- NOP (40_commands.md R148). -/
def execNop (ie : Bool) (s : State) : Host.Outcome State Fault Refusal :=
  .next (s.loadIe ie)

/-- DECODE (40_commands.md R143). -/
def execDecode (ie : Bool) (s : State) : Host.Outcome State Fault Refusal :=
  .next (s.request ie .decode)

/-- COMPOSITE (40_commands.md R144). -/
def execComposite (ie : Bool) (s : State) : Host.Outcome State Fault Refusal :=
  .next (s.request ie .composite)

/-- FRAME (40_commands.md R145). -/
def execFrame (ie : Bool) (s : State) : Host.Outcome State Fault Refusal :=
  .next (s.request ie .frame)

/-- A reserved command 0x4 to 0x7 (40_commands.md R146). -/
def execReserved4to7 (ie : Bool) (c : BitVec 2) (s : State) : Host.Outcome State Fault Refusal :=
  .next (s.requestReserved ie (1#2 ++ c))

/-- A reserved command 0x8 to 0xF (40_commands.md R146). -/
def execReserved8toF (ie : Bool) (c : BitVec 3) (s : State) : Host.Outcome State Fault Refusal :=
  .next (s.requestReserved ie (1#1 ++ c))

/-- SRST (40_commands.md R147). -/
def execSrst (s : State) : Host.Outcome State Fault Refusal :=
  .next s.softReset

end Sys2Proof.Machine
end

