-- ==== Sys2Proof/Machine/Framing.lean ====
section
/-! DEFINITION. The meanings of the sub-block framing bytes (30_encoding.md R115; 41_lzw.md R183). They run after the
length byte has been read, with p already past it. -/

namespace Sys2Proof.Machine

open Sys2Proof

/-- The decode phase's record and hidden state are there, or the word does not exist (log 14). -/
def inDecode (s : State) (f : CmdRec → DecState → Host.Outcome State Fault Refusal) :
    Host.Outcome State Fault Refusal :=
  match s.engine with
  | .decoding r d => f r d
  | .idle => .refused .noDecode
  | .starting _ => .refused .noDecode
  | .compositing _ _ _ => .refused .noDecode

/-- SUBBLOCK: rem <- L (41_lzw.md R183). -/
def execSubblock (len : Byte) (s : State) : Host.Outcome State Fault Refusal :=
  inDecode s fun r d => .next (s.setEngine (.decoding r { d with rem := len.toNat }))

/-- TERMINATOR: raise Error(E_EOD, val 0, pos p) (41_lzw.md R183). -/
def execTerminator (s : State) : Host.Outcome State Fault Refusal :=
  inDecode s fun r d => .next (s.raiseError r d .eod 0)

end Sys2Proof.Machine
end

