-- ==== Sys2Proof/Machine/Lzw.lean ====
section
/-! DEFINITION. The meanings of the LZW codes (41_lzw.md R187 to R195). They run after the code has been taken from
the accumulator (R185). -/

namespace Sys2Proof.Machine

open Sys2Proof

/-! ### The dictionary (41_lzw.md R182, R194, R195) -/

/-- The slots in use after ResetDict (41_lzw.md R182): the roots, and CLEAR and END, which hold no list. -/
def rootDict (m : Nat) : List (Option (List Byte)) :=
  (List.range (2 ^ m)).map (fun r => some [BitVec.ofNat 8 r]) ++ [none, none]

/-- ResetDict() (41_lzw.md R182). -/
def DecState.resetDict (d : DecState) (m : Nat) : DecState :=
  { d with dict := rootDict m, w := m + 1, prev := none }

/-- The decoder at the start of a command (41_lzw.md R182). -/
def DecState.init (m : Nat) : DecState where
  p := 0
  rem := 0
  acc := 0
  nacc := 0
  dict := rootDict m
  w := m + 1
  prev := none
  count := 0

/-- DICT_ENTRIES (00_scope.md R6). -/
def dictEntries : Nat := 4096

/-- MAX_CODE_WIDTH (00_scope.md R6). -/
def maxCodeWidth : Nat := 12

/-- GrowWidth() (41_lzw.md R195). -/
def DecState.growWidth (d : DecState) : DecState :=
  if d.next = 2 ^ d.w ∧ d.w < maxCodeWidth then { d with w := d.w + 1 } else d

/-- AddEntry(e) (41_lzw.md R194): a full table takes no entry. -/
def DecState.addEntry (d : DecState) (e : List Byte) : DecState :=
  if d.next < dictEntries then { d with dict := d.dict ++ [some e] }.growWidth else d

/-! ### Output (41_lzw.md R193) -/

/-- Emit(s) from index `count` on: the memory, the count, and whether the count reached N (41_lzw.md R193). -/
def emit (n : Nat) : List Byte → Nat → State → State × Nat × Bool
  | [], count, s => (s, count, false)
  | b :: rest, count, s =>
    if count + 1 = n then (s.setIbuf count b, count + 1, true)
    else emit n rest (count + 1) (s.setIbuf count b)

/-- The count of indices written so far (10_state.md R53). -/
def DecState.counted (d : DecState) (n : Nat) : DecState := { d with count := n }

/-- The entry a code adds, if it adds one. -/
def DecState.learn (d : DecState) (entry : Option (List Byte)) : DecState :=
  match entry with
  | none => d
  | some e => d.addEntry e

/-- prev <- c (41_lzw.md R186). -/
def DecState.remember (d : DecState) (c : Nat) : DecState := { d with prev := some c }

/-- What a data code does (41_lzw.md R186): Emit its sequence; if the count is full, end the decode; otherwise add
the entry, if there is one to add, and remember the code. -/
def State.dataCode (s : State) (r : CmdRec) (d : DecState) (c : Nat) (sq : List Byte)
    (entry : Option (List Byte)) : State :=
  match emit r.pixels sq d.count s with
  | (s', count, true) => s'.finishDecode r { count := count, val := 0, pos := d.p }
  | (s', count, false) => s'.setEngine (.decoding r (((d.counted count).learn entry).remember c))

/-- A sequence followed by its own first index (41_lzw.md R191). -/
def extendByFirst (l : List Byte) : List Byte := l ++ l.take 1

/-- raise Error(E_BADCODE, val c + next × 2^16, pos p) (41_lzw.md R192). -/
def State.badCode (s : State) (r : CmdRec) (d : DecState) (c : Nat) : State :=
  s.raiseError r d .badcode (c + d.next * 2 ^ 16)

/-! ### The meanings -/

/-- CLEAR (41_lzw.md R187). -/
def execCodeClear (s : State) : Host.Outcome State Fault Refusal :=
  inDecode s fun r d => .next (s.setEngine (.decoding r (d.resetDict r.m.toNat)))

/-- END (41_lzw.md R188). -/
def execCodeEnd (s : State) : Host.Outcome State Fault Refusal :=
  inDecode s fun r d => .next (s.finishDecode r { count := d.count, val := 0, pos := d.p })

/-- FIRST (41_lzw.md R189): no entry is added. -/
def execCodeFirst (c : Nat) (s : State) : Host.Outcome State Fault Refusal :=
  inDecode s fun r d =>
    match d.seq c with
    | some sq => .next (s.dataCode r d c sq none)
    | none => .refused .undefinedSlot

/-- FIRST_BAD (41_lzw.md R192). -/
def execCodeFirstBad (c : Nat) (s : State) : Host.Outcome State Fault Refusal :=
  inDecode s fun r d => .next (s.badCode r d c)

/-- KNOWN (41_lzw.md R190): the new entry is dict[prev] ++ [s[0]]. -/
def execCodeKnown (c : Nat) (s : State) : Host.Outcome State Fault Refusal :=
  inDecode s fun r d =>
    match d.prevSeq, d.seq c with
    | some ps, some sq => .next (s.dataCode r d c sq (some (ps ++ sq.take 1)))
    | _, _ => .refused .undefinedSlot

/-- KWKWK (41_lzw.md R191): the sequence is dict[prev] ++ [dict[prev][0]], and it is the new entry. -/
def execCodeKwkwk (s : State) : Host.Outcome State Fault Refusal :=
  inDecode s fun r d =>
    match d.prevSeq with
    | some ps => .next (s.dataCode r d d.next (extendByFirst ps) (some (extendByFirst ps)))
    | none => .refused .undefinedSlot

/-- INVALID (41_lzw.md R192). -/
def execCodeInvalid (c : Nat) (s : State) : Host.Outcome State Fault Refusal :=
  inDecode s fun r d => .next (s.badCode r d c)

end Sys2Proof.Machine
end

