-- ==== Sys2Proof/Machine/Dispatch.lean ====
section
/-! DEFINITION. One arm for each row of spec/opcode_table.json: a direct call of its meaning. -/

namespace Sys2Proof.Machine

open Sys2Proof

def exec (i : Instr) (s : State) : Host.Outcome State Fault Refusal :=
  match i with
  -- CTRL words (30_encoding.md R101)
  | .nop ie => Sys2Proof.Machine.execNop ie s
  | .decode ie => Sys2Proof.Machine.execDecode ie s
  | .composite ie => Sys2Proof.Machine.execComposite ie s
  | .frame ie => Sys2Proof.Machine.execFrame ie s
  | .reserved4to7 ie c => Sys2Proof.Machine.execReserved4to7 ie c s
  | .reserved8toF ie c => Sys2Proof.Machine.execReserved8toF ie c s
  | .srst => Sys2Proof.Machine.execSrst s
  -- LZW codes (30_encoding.md R113)
  | .codeClear => Sys2Proof.Machine.execCodeClear s
  | .codeEnd => Sys2Proof.Machine.execCodeEnd s
  | .codeFirst c => Sys2Proof.Machine.execCodeFirst c s
  | .codeFirstBad c => Sys2Proof.Machine.execCodeFirstBad c s
  | .codeKnown c => Sys2Proof.Machine.execCodeKnown c s
  | .codeKwkwk => Sys2Proof.Machine.execCodeKwkwk s
  | .codeInvalid c => Sys2Proof.Machine.execCodeInvalid c s
  -- Framing bytes (30_encoding.md R115)
  | .subblock len => Sys2Proof.Machine.execSubblock len s
  | .terminator => Sys2Proof.Machine.execTerminator s

end Sys2Proof.Machine
end

