-- ==== Sys2Proof/Machine/Engine.lean ====
section
/-! DEFINITION. One turn of the engine (40_commands.md R141): the start checks of a command, one byte or one code of
the decode phase, or one pixel of the composite phase (log 6). -/

namespace Sys2Proof.Machine

open Sys2Proof

/-! ### Starting a command (40_commands.md R143 to R145) -/

/-- LzwDecode begins (41_lzw.md R180, R182): with N = 0 it ends at once. -/
def State.beginDecode (s : State) (r : CmdRec) : State :=
  if r.pixels = 0 then s.finishDecode r .zero
  else s.setEngine (.decoding r (DecState.init r.m.toNat))

/-- The checks of DECODE, in its order (40_commands.md R143). -/
def State.startDecode (s : State) (r : CmdRec) : State :=
  if !minCodeOk r then s.complete r .mincode .zero
  else if s.params.maxPixels < r.pixels then s.complete r .frame .zero
  else if !cbufLenOk s.params r then s.complete r .cbuflen .zero
  else s.beginDecode r

/-- The checks of COMPOSITE, in its order (40_commands.md R144). -/
def State.startComposite (s : State) (r : CmdRec) : State :=
  if !screenOk s.params r then s.complete r .screen .zero
  else if !frameInScreen r then s.complete r .frame .zero
  else s.setEngine (.compositing r .zero 0)

/-- The checks of FRAME, in its order (40_commands.md R145). -/
def State.startFrame (s : State) (r : CmdRec) : State :=
  if !minCodeOk r then s.complete r .mincode .zero
  else if !screenOk s.params r then s.complete r .screen .zero
  else if !frameInScreen r then s.complete r .frame .zero
  else if !cbufLenOk s.params r then s.complete r .cbuflen .zero
  else s.beginDecode r

/-- The checks of the command's own rule. -/
def State.start (s : State) (r : CmdRec) : State :=
  match r.op with
  | .decode => s.startDecode r
  | .composite => s.startComposite r
  | .frame => s.startFrame r

/-! ### Reading the stream (41_lzw.md R183, R185) -/

/-- p <- p + 1, after the byte at p was read (41_lzw.md R183). -/
def DecState.advance (d : DecState) : DecState := { d with p := d.p + 1 }

/-- A data byte enters the accumulator above the bits it holds, and the sub-block has one byte less
(41_lzw.md R183, R185). -/
def DecState.takeData (d : DecState) (b : Byte) : DecState :=
  { d with p := d.p + 1, rem := d.rem - 1, acc := d.acc + b.toNat * 2 ^ d.nacc, nacc := d.nacc + 8 }

/-- The code the accumulator's low w bits hold (41_lzw.md R185). -/
def DecState.code (d : DecState) : Nat := d.acc % 2 ^ d.w

/-- The accumulator without that code (41_lzw.md R185). -/
def DecState.dropCode (d : DecState) : DecState :=
  { d with acc := d.acc / 2 ^ d.w, nacc := d.nacc - d.w }

/-- One turn of the decode phase (41_lzw.md R183, R185, R186). While the accumulator holds less than w bits, one
CBUF byte is read: a length byte, which is decoded and run, or a data byte; a byte at or past len is E_OVERRUN.
Otherwise the next code is taken, decoded and run. -/
def State.decodeTurn (s : State) (r : CmdRec) (d : DecState) : Host.Outcome State Fault Refusal :=
  if d.nacc < d.w then
    if r.len.toNat ≤ d.p then .next (s.raiseError r d .overrun 0)
    else if d.rem = 0 then exec (decodeFrameByte (s.cbuf d.p)) (s.setEngine (.decoding r d.advance))
    else .next (s.setEngine (.decoding r (d.takeData (s.cbuf d.p))))
  else exec (decodeCode (codeCtx r d) d.code) (s.setEngine (.decoding r d.dropCode))

/-- One turn of the engine. An idle engine changes nothing (60_exceptions.md R285). -/
def State.engineTurn (s : State) : Host.Outcome State Fault Refusal :=
  match s.engine with
  | .idle => .next s
  | .starting r => .next (s.start r)
  | .decoding r d => s.decodeTurn r d
  | .compositing r res i => .next (s.compositeTurn r res i)

end Sys2Proof.Machine
end

