-- ==== Sys2Proof/Machine/Bus.lean ====
section
/-! DEFINITION. The host's transactions (20_memory.md R75, R76): register reads and writes, the memory windows, bus
errors, and HOST_HAZARD. -/

namespace Sys2Proof.Machine

open Sys2Proof

/-- The ID value (10_state.md R21). -/
def idValue : Word := 0x4C5A5701

/-- A DECODE or FRAME is BUSY, so PIXCOUNT, ERRVAL and POS read as unspecified values (10_state.md R43). -/
def State.resultsUnstable (s : State) : Bool :=
  match s.engine.cmd? with
  | none => false
  | some r => r.op.reports

/-- The answer to a read of a result register: its value, or a fresh free value while a DECODE or FRAME is BUSY
(10_state.md R43; 93_implementation_defined.md U3; log 4). -/
def State.readResult (s : State) (v : Word) : State :=
  if s.resultsUnstable then
    { s.respond (.data (Config.busyResult s.freeCount)) with freeCount := s.freeCount + 1 }
  else s.respond (.data v)

/-- A read of a register (10_state.md R20 to R43). -/
def State.readReg (s : State) : Reg → State
  | .id => s.respond (.data idValue)
  | .ctrl => s.respond (.data s.ctrlWord)
  | .status => s.respond (.data s.statusWord)
  | .screen => s.respond (.data s.screen)
  | .fpos => s.respond (.data s.fpos)
  | .fdim => s.respond (.data s.fdim)
  | .fcfg => s.respond (.data s.fcfg)
  | .cbuflen => s.respond (.data s.cbuflen)
  | .pixcount => s.readResult s.pixcount
  | .errval => s.readResult s.errval
  | .pos => s.readResult s.pos
  | .capCbuf => s.respond (.data (BitVec.ofNat 32 s.params.cbufBytes))
  | .capPix => s.respond (.data (BitVec.ofNat 32 s.params.maxPixels))
  | .reserved => s.respond (.data 0)

/-- A write of a register (10_state.md R20 to R43): CTRL runs the command word, STATUS clears, the configuration
registers take the value, and read-only and reserved registers ignore it. -/
def State.writeReg (s : State) (v : Word) : Reg → Host.Outcome State Fault Refusal
  | .id => .next s
  | .ctrl => exec (decodeCtrl v) s
  | .status => .next (s.writeStatus v)
  | .screen => .next { s with screen := v }
  | .fpos => .next { s with fpos := v }
  | .fdim => .next { s with fdim := v }
  | .fcfg => .next { s with fcfg := v &&& fcfgMask }
  | .cbuflen => .next { s with cbuflen := v }
  | .pixcount => .next s
  | .errval => .next s
  | .pos => .next s
  | .capCbuf => .next s
  | .capPix => .next s
  | .reserved => .next s

/-- The value of n bytes at an address, zero-extended (20_memory.md R71 to R74, R77). -/
def State.load (s : State) (n : Width) (a : Nat) : Word :=
  match n with
  | .w8 => (s.byteAt a).zeroExtend 32
  | .w16 => (s.halfAt a).zeroExtend 32
  | .w32 => s.wordAt a

/-- Stores the low n bytes of a value (20_memory.md R71 to R74, R77). -/
def State.store (s : State) (n : Width) (a : Nat) (v : Word) : State :=
  match n with
  | .w8 => s.storeByte a (v.extractLsb' 0 8)
  | .w16 => s.storeHalf a (v.extractLsb' 0 16)
  | .w32 => s.storeWord a v

/-- MemRead(addr, n) (20_memory.md R75, R83). -/
def State.hostRead (s : State) (n : Width) (addr : Word) : Host.Outcome State Fault Refusal :=
  match legalRegion s.params n addr.toNat with
  | none => .next (s.respond .busError)
  | some .regs => .next (s.readReg (regAt addr.toNat))
  | some _ => if s.busy then .fault .hostHazard else .next (s.respond (.data (s.load n addr.toNat)))

/-- MemWrite(addr, n, v) (20_memory.md R76, R83). -/
def State.hostWrite (s : State) (n : Width) (addr v : Word) : Host.Outcome State Fault Refusal :=
  match legalRegion s.params n addr.toNat with
  | none => .next (s.respond .busError)
  | some .regs => (s.respond .written).writeReg v (regAt addr.toNat)
  | some _ => if s.busy then .fault .hostHazard else .next ((s.respond .written).store n addr.toNat v)

/-- One transaction of the host. -/
def State.hostTurn (s : State) : HostTxn → Host.Outcome State Fault Refusal
  | .read n addr => s.hostRead n addr
  | .write n addr v => s.hostWrite n addr v

/-- One turn of whichever agent has it (00_scope.md R5; 70_reset_and_hazards.md R300; log 5, log 10). -/
def State.takeTurn (s : State) : Turn → Host.Outcome State Fault Refusal
  | .host t => s.hostTurn t
  | .engine => s.engineTurn
  | .reset => .next s.hardReset

/-- The next turn: the first of the agenda, or the engine's when the agenda is empty (log 5). -/
def State.nextTurn (s : State) : Host.Outcome State Fault Refusal :=
  match s.agenda with
  | [] => s.engineTurn
  | t :: rest => (s.withAgenda rest).takeTurn t

/-! ### Placing one instruction where the next step takes it (log 15) -/

/-- The record of a DECODE of one pixel with the smallest legal m, for a machine that is not decoding. -/
def CmdRec.smallest : CmdRec where
  op := .decode
  sw := 0
  sh := 0
  fx := 0
  fy := 0
  fw := 1
  fh := 1
  il := false
  te := false
  ti := 0
  m := BitVec.ofNat 4 tableMinCode
  len := 1

/-- The decode phase the machine is in, or the beginning of one. -/
def State.decodePhase (s : State) : CmdRec × DecState :=
  match s.engine with
  | .decoding r d => (r, d)
  | _ => (CmdRec.smallest, DecState.init tableMinCode)

/-- The host's next transaction writes the word to CTRL. -/
def State.placeCtrl (s : State) (w : Nat) : State :=
  s.withAgenda (.host (.write .w32 ctrlAddr (BitVec.ofNat 32 w)) :: s.agenda)

/-- The engine's next byte is the length byte: it lies in CBUF at the decoder's p (at 0 where p is no CBUF offset),
below len, and the accumulator and the sub-block are used up. -/
def State.placeFrameByte (s : State) (w : Nat) : State :=
  let (r, d) := s.decodePhase
  let p := if d.p < s.params.cbufBytes then d.p else 0
  let len := if p < r.len.toNat then r.len else BitVec.ofNat 32 (p + 1)
  let d' := { d with p := p, rem := 0, acc := 0, nacc := 0, w := if d.w = 0 then 1 else d.w }
  ((s.storeByte (cbufBase + p) (BitVec.ofNat 8 w)).setEngine (.decoding { r with len := len } d')).withAgenda
    (.engine :: s.agenda)

/-- The engine's next code is the low bits of w, which are all the accumulator holds. -/
def State.placeCode (s : State) (w : Nat) : State :=
  let (r, d) := s.decodePhase
  (s.setEngine (.decoding r { d with acc := w % 2 ^ d.w, nacc := d.w })).withAgenda (.engine :: s.agenda)

end Sys2Proof.Machine
end

