-- ==== Sys2Proof/Machine/Step.lean ====
section
/-! DEFINITION. The step function, and how one instruction is placed where the next step takes it. -/

namespace Sys2Proof.Machine

open Sys2Proof

/-- One step: the next turn of the agenda, or of the engine (log 5). -/
def step (s : State) : Host.Outcome State Fault Refusal := s.nextTurn

/-- The state with one instruction of the opcode table placed where the next step takes it: a CTRL word (32 bits) as
the host's next transaction, a length byte (8 bits) in CBUF at the decoder's cursor, a code (16 bits) in the
decoder's accumulator (log 15). -/
def State.withFetchWord (s : State) (nbits w : Nat) : State :=
  if nbits = 32 then s.placeCtrl w
  else if nbits = 8 then s.placeFrameByte w
  else s.placeCode w

end Sys2Proof.Machine
end

