-- ==== Sys2Proof/Machine/Assembly.lean ====
section
/-! DEFINITION. The host's assembly (30_encoding.md R120, R121) as the transactions it stands for. -/

namespace Sys2Proof.Machine

open Sys2Proof

/-- The address symbols of 30_encoding.md R120. -/
inductive Symbol where
  | id
  | ctrl
  | status
  | screen
  | fpos
  | fdim
  | fcfg
  | cbuflen
  | pixcount
  | errval
  | pos
  | capCbuf
  | capPix
  | ctab (i : Nat)
  | cbuf (o : Nat)
  | ibuf (o : Nat)
  | fb (k : Nat)
deriving DecidableEq, Repr

/-- The host address a symbol names (10_state.md R20; 30_encoding.md R120). -/
def Symbol.addr : Symbol → Nat
  | .id => 0x000
  | .ctrl => 0x004
  | .status => 0x008
  | .screen => 0x00C
  | .fpos => 0x010
  | .fdim => 0x014
  | .fcfg => 0x018
  | .cbuflen => 0x01C
  | .pixcount => 0x020
  | .errval => 0x024
  | .pos => 0x028
  | .capCbuf => 0x02C
  | .capPix => 0x030
  | .ctab i => ctabBase + 4 * i
  | .cbuf o => cbufBase + o
  | .ibuf o => ibufBase + o
  | .fb k => fbBase + 4 * k

/-- WR8, WR16 or WR32 of a number (30_encoding.md R120). -/
def wr (n : Width) (a v : Nat) : HostTxn := .write n (BitVec.ofNat 32 a) (BitVec.ofNat 32 v)

/-- RD8, RD16 or RD32 (30_encoding.md R120). -/
def rd (n : Width) (a : Nat) : HostTxn := .read n (BitVec.ofNat 32 a)

/-- The pseudo-instructions of 30_encoding.md R121. WAIT is a loop of the host's; `wait n` is the run of it that
reads STATUS n + 1 times. -/
inductive Pseudo where
  | cmd (c : BitVec 4)
  | cmdi (c : BitVec 4)
  | srst
  | wait (n : Nat)
  | ack
  | setGeom (sw sh fx fy fw fh : Nat)
  | setCfg (m il te ti : Nat)
  | loadB (a : Nat) (bytes : List Byte)
  | fill32 (a n v : Nat)
deriving DecidableEq, Repr

/-- The transactions a pseudo-instruction expands to, in order (30_encoding.md R121). -/
def Pseudo.expand : Pseudo → List HostTxn
  | .cmd c => [wr .w32 (Symbol.addr .ctrl) c.toNat]
  | .cmdi c => [wr .w32 (Symbol.addr .ctrl) (0x100 + c.toNat)]
  | .srst => [wr .w32 (Symbol.addr .ctrl) 0x80000000]
  | .wait n => List.replicate (n + 1) (rd .w32 (Symbol.addr .status))
  | .ack => [wr .w32 (Symbol.addr .status) 0x6]
  | .setGeom sw sh fx fy fw fh =>
    [wr .w32 (Symbol.addr .screen) (sh * 2 ^ 16 + sw), wr .w32 (Symbol.addr .fpos) (fy * 2 ^ 16 + fx),
      wr .w32 (Symbol.addr .fdim) (fh * 2 ^ 16 + fw)]
  | .setCfg m il te ti => [wr .w32 (Symbol.addr .fcfg) (m * 2 ^ 16 + ti * 2 ^ 8 + te * 2 + il)]
  | .loadB a bytes => bytes.mapIdx fun i b => wr .w8 (a + i) b.toNat
  | .fill32 a n v => (List.range n).map fun i => wr .w32 (a + 4 * i) v

end Sys2Proof.Machine
end

