-- ==== Sys2Proof/Machine/Reference.lean ====
section
/-! DEFINITION. The procedures of 41_lzw.md and 42_compositor.md as the spec writes them, whole, over the contents of
CBUF as a function: what the engine's many turns must amount to. The machine does not call them. -/

namespace Sys2Proof.Machine

open Sys2Proof

/-! ### LzwDecode (41_lzw.md R183 to R186) -/

/-- A decode error with the cursor it reports. -/
abbrev RefError := Err × Nat

/-- The end of NextByte: a data byte at p, or E_OVERRUN (41_lzw.md R183). -/
def refDataByte (cbuf : Nat → Byte) (len : Nat) (d : DecState) : Except RefError (Byte × DecState) :=
  if len ≤ d.p then .error (.overrun, d.p)
  else .ok (cbuf d.p, { d with p := d.p + 1, rem := d.rem - 1 })

/-- NextByte() (41_lzw.md R183). -/
def refNextByte (cbuf : Nat → Byte) (len : Nat) (d : DecState) : Except RefError (Byte × DecState) :=
  if d.rem ≠ 0 then refDataByte cbuf len d
  else if len ≤ d.p then .error (.overrun, d.p)
  else if cbuf d.p = 0 then .error (.eod, d.p + 1)
  else refDataByte cbuf len { d with p := d.p + 1, rem := (cbuf d.p).toNat }

/-- ReadCode(w) (41_lzw.md R185); `fuel` bounds the bytes it reads, and two are always enough. -/
def refReadCode (cbuf : Nat → Byte) (len : Nat) : Nat → DecState → Except RefError (Nat × DecState)
  | 0, d => .ok (d.acc % 2 ^ d.w, { d with acc := d.acc / 2 ^ d.w, nacc := d.nacc - d.w })
  | fuel + 1, d =>
    if d.nacc < d.w then
      match refNextByte cbuf len d with
      | .error e => .error e
      | .ok (b, d') =>
        refReadCode cbuf len fuel { d' with acc := d'.acc + b.toNat * 2 ^ d'.nacc, nacc := d'.nacc + 8 }
    else .ok (d.acc % 2 ^ d.w, { d with acc := d.acc / 2 ^ d.w, nacc := d.nacc - d.w })

/-- What LzwDecode returns, with the indices it emitted. -/
structure RefResult where
  err : Err
  res : DecResult
  out : List Byte
deriving DecidableEq, Repr

/-- A return of LzwDecode: the count is the number of indices emitted (41_lzw.md R197). -/
def refReturn (e : Err) (val pos : Nat) (out : List Byte) : RefResult :=
  { err := e, res := { count := out.length, val := val, pos := pos }, out := out }

/-- The loop of LzwDecode (41_lzw.md R186); `out` is what has been emitted. `none`: more than `fuel` codes. -/
def refLoop (cbuf : Nat → Byte) (m n len : Nat) : Nat → DecState → List Byte → Option RefResult
  | 0, _, _ => none
  | fuel + 1, d, out =>
    match refReadCode cbuf len 2 d with
    | .error (e, p) => some (refReturn e 0 p out)
    | .ok (c, d) =>
      if c = 2 ^ m then refLoop cbuf m n len fuel (d.resetDict m) out
      else if c = 2 ^ m + 1 then some (refReturn .none 0 d.p out)
      else
        let bad := some (refReturn .badcode (c + d.next * 2 ^ 16) d.p out)
        let goOn := fun (s : List Byte) (d' : DecState) =>
          if n ≤ out.length + s.length then some (refReturn .none 0 d.p (out ++ s.take (n - out.length)))
          else refLoop cbuf m n len fuel { d' with prev := some c, count := out.length + s.length } (out ++ s)
        match d.prevSeq with
        | none => if 2 ^ m + 2 ≤ c then bad else goOn ((d.seq c).getD []) d
        | some ps =>
          if c < d.next then
            let s := (d.seq c).getD []
            goOn s (d.addEntry (ps ++ s.take 1))
          else if c = d.next then
            let s := ps ++ ps.take 1
            goOn s (d.addEntry (ps ++ s.take 1))
          else bad

/-- LzwDecode(m, N, len) (41_lzw.md R186): at most floor(8 × len / 3) + 1 codes (R200). -/
def refLzwDecode (cbuf : Nat → Byte) (m n len : Nat) : Option RefResult :=
  if n = 0 then some (refReturn .none 0 0 [])
  else refLoop cbuf m n len (8 * len / 3 + 1) (DecState.init m) []

/-! ### The interlace rows (42_compositor.md R233) -/

/-- Rows(h): the four passes, each the rows below h in order (42_compositor.md R233). -/
def interlaceRows (h : Nat) : List Nat :=
  (List.range h).filter (· % 8 = 0) ++ (List.range h).filter (· % 8 = 4) ++
    (List.range h).filter (· % 4 = 2) ++ (List.range h).filter (· % 2 = 1)

end Sys2Proof.Machine
end

