-- ==== Sys2Proof/Safety.lean ====
section
/-! DEFINITION. What every reachable state satisfies (10_state.md R53 to R55, 41_lzw.md R198, 42_compositor.md R239),
in the terms the statements use. -/

namespace Sys2Proof.Machine

open Sys2Proof

/-- Every listed byte lies in a memory window of the instance (20_memory.md R70). -/
def Memory.inMap (p : Config.Params) (m : Memory) : Bool :=
  m.all fun c => match regionOf p c.1 with
    | none => false
    | some g => g != .regs

/-- What the start checks leave true in the decode phase (40_commands.md R143, R145; 41_lzw.md R180, R181). -/
structure DecodeChecked (p : Config.Params) (r : CmdRec) : Prop where
  op : r.op ≠ .composite
  minCode : minCodeOk r = true
  pixels_pos : 0 < r.pixels
  pixels_le : r.pixels ≤ p.maxPixels
  cbufLen : cbufLenOk p r = true
  geometry : r.op = .frame → screenOk p r = true ∧ frameInScreen r = true

/-- What the start checks leave true in the composite phase (40_commands.md R144, R145). -/
structure CompositeChecked (p : Config.Params) (r : CmdRec) : Prop where
  op : r.op ≠ .decode
  screen : screenOk p r = true
  frame : frameInScreen r = true

/-- The decoder's invariants (10_state.md R53, R55; 41_lzw.md R185, R195, R198). -/
structure DecState.Inv (r : CmdRec) (d : DecState) : Prop where
  p_le : d.p ≤ r.len.toNat
  rem_le : d.rem ≤ 255
  nacc_le : d.nacc ≤ 19
  acc_lt : d.acc < 2 ^ d.nacc
  next_ge : 2 ^ r.m.toNat + 2 ≤ d.next
  next_le : d.next ≤ dictEntries
  width : d.w = min maxCodeWidth (Nat.log2 d.next + 1)
  roots : d.dict.take (2 ^ r.m.toNat + 2) = rootDict r.m.toNat
  entries : ∀ e, 2 ^ r.m.toNat + 2 ≤ e → e < d.next →
    ∃ l, d.seq e = some l ∧ 2 ≤ l.length ∧ l.length ≤ e - 2 ^ r.m.toNat ∧ ∀ b ∈ l, b.toNat < 2 ^ r.m.toNat
  noPrev : d.prev = none → d.next = 2 ^ r.m.toNat + 2
  prev : ∀ c, d.prev = some c → c < d.next ∧ d.seq c ≠ none
  count_lt : d.count < r.pixels

/-- The engine's invariants in each phase. -/
def Engine.Inv (p : Config.Params) : Engine → Prop
  | .idle => True
  | .starting _ => True
  | .decoding r d => DecodeChecked p r ∧ DecState.Inv r d
  | .compositing r _ i => CompositeChecked p r ∧ i ≤ r.pixels

/-- While BUSY, DONE and ERRCODE are 0 and LASTCMD is the running command (10_state.md R28, R29;
40_commands.md R140). -/
def State.BusyStatus (s : State) : Prop :=
  ∀ r, s.engine.cmd? = some r → s.done = false ∧ s.errcode = .none ∧ s.lastcmd = r.op.cmd

/-- The invariant of GIFDEC. -/
structure State.Inv (s : State) : Prop where
  params : s.params.InRange
  memWf : s.mem.wf
  memMap : s.mem.inMap s.params = true
  fcfgReserved : s.fcfg &&& ~~~fcfgMask = 0
  busyStatus : s.BusyStatus
  engine : s.engine.Inv s.params

/-! ### The terms of the statements -/

/-- The next turn is the engine's: the agenda names it, or names nobody (log 5). -/
def State.engineDue (s : State) : Prop := s.agenda = [] ∨ ∃ rest, s.agenda = .engine :: rest

/-- The next turn is the host's, with this transaction (log 5). -/
def State.hostDue (s : State) (t : HostTxn) : Prop := ∃ rest, s.agenda = .host t :: rest

/-- The state with the turn that is being taken off the agenda. -/
def State.turnTaken (s : State) : State := { s with agenda := s.agenda.tail }

/-- A legal access, by the four clauses of 20_memory.md R78: (a) a mapped region, (b) a width it accepts, (c) natural
alignment, (d) every byte in that region. -/
def LegalAccess (p : Config.Params) (n : Width) (a : Nat) (g : Region) : Prop :=
  regionOf p a = some g ∧ g.accepts n = true ∧ a % n.bytes = 0 ∧ ∀ j, j < n.bytes → regionOf p (a + j) = some g

/-- The start checks that the command makes all pass (40_commands.md R143 to R145; 41_lzw.md R181;
42_compositor.md R230). -/
def StartChecksPass (p : Config.Params) (r : CmdRec) : Prop :=
  (r.op ≠ .composite → 2 ≤ r.m.toNat ∧ r.m.toNat ≤ 8 ∧ r.len.toNat ≤ p.cbufBytes) ∧
  (r.op = .decode → r.fw.toNat * r.fh.toNat ≤ p.maxPixels) ∧
  (r.op ≠ .decode → 1 ≤ r.sw.toNat ∧ 1 ≤ r.sh.toNat ∧ r.sw.toNat * r.sh.toNat ≤ p.maxPixels ∧
    r.fx.toNat + r.fw.toNat ≤ r.sw.toNat ∧ r.fy.toNat + r.fh.toNat ≤ r.sh.toNat)

/-- The command could write the byte at this host address: its checks pass, and the address is that of
IBUF[0 .. fw × fh - 1], for DECODE and FRAME, or of one of the four bytes of an FB pixel inside the frame rectangle,
for COMPOSITE and FRAME (40_commands.md R143 to R145; 93_implementation_defined.md U2; log 3). -/
def CouldWrite (p : Config.Params) (r : CmdRec) (a : Nat) : Prop :=
  StartChecksPass p r ∧
  ((r.op ≠ .composite ∧ ∃ o, o < r.fw.toNat * r.fh.toNat ∧ a = ibufBase + o) ∨
    (r.op ≠ .decode ∧ ∃ x y j, r.fx.toNat ≤ x ∧ x < r.fx.toNat + r.fw.toNat ∧ r.fy.toNat ≤ y ∧
      y < r.fy.toNat + r.fh.toNat ∧ j < 4 ∧ a = fbBase + 4 * (y * r.sw.toNat + x) + j))

/-- What a data code with sequence `sq` does to the state (41_lzw.md R186, R193): the indices that fit below N are
written from IBUF[count] on, and every other byte stays; below N, the decoder counts them, learns the entry and
remembers the code; at N, the decode ends with success, DECODE completing and FRAME going on to composite. Nothing
else changes. -/
def DataCodeEffect (s : State) (r : CmdRec) (d : DecState) (c : Nat) (sq : List Byte) (entry : Option (List Byte))
    (t : State) : Prop :=
  (∀ j, j < min sq.length (r.pixels - d.count) → sq[j]? = some (t.ibuf (d.count + j))) ∧
  (∀ a, (a < ibufBase + d.count ∨ ibufBase + d.count + min sq.length (r.pixels - d.count) ≤ a) →
    t.byteAt a = s.byteAt a) ∧
  (d.count + sq.length < r.pixels → t = { s with
    mem := t.mem
    engine := .decoding r (((d.counted (d.count + sq.length)).learn entry).remember c) }) ∧
  (r.pixels ≤ d.count + sq.length → r.op = .decode → t = { s with
    mem := t.mem
    pixcount := BitVec.ofNat 32 r.pixels
    errval := 0
    pos := BitVec.ofNat 32 d.p
    errcode := .none
    done := true
    engine := .idle }) ∧
  (r.pixels ≤ d.count + sq.length → r.op = .frame → t = { s with
    mem := t.mem
    engine := .compositing r { count := r.pixels, val := 0, pos := d.p } 0 })

/-- An error raised by a DECODE or FRAME (40_commands.md R142; 41_lzw.md R186): the registers it writes, and nothing
else. -/
def State.failed (s : State) (e : Err) (count val pos : Nat) : State :=
  { s with
    pixcount := BitVec.ofNat 32 count
    errval := BitVec.ofNat 32 val
    pos := BitVec.ofNat 32 pos
    errcode := e
    done := true
    engine := .idle }

/-- The state after an accepted command (40_commands.md R140), its record latched as 10_state.md R52 and
30_encoding.md R103 say. -/
def State.started (s : State) (ie : Bool) (op : Op) (cmd : BitVec 4) : State :=
  { s with
    ie := ie
    lastcmd := cmd
    done := false
    errcode := .none
    engine := .starting
      { op := op
        sw := s.screen.extractLsb' 0 16
        sh := s.screen.extractLsb' 16 16
        fx := s.fpos.extractLsb' 0 16
        fy := s.fpos.extractLsb' 16 16
        fw := s.fdim.extractLsb' 0 16
        fh := s.fdim.extractLsb' 16 16
        il := s.fcfg.getLsbD 0
        te := s.fcfg.getLsbD 1
        ti := s.fcfg.extractLsb' 8 8
        m := s.fcfg.extractLsb' 16 4
        len := s.cbuflen } }

/-- Every host-visible register field that is not a constant holds its reset value (10_state.md, the summary after
R43). -/
def State.RegistersReset (s : State) : Prop :=
  s.ie = false ∧ s.done = false ∧ s.cmdlost = false ∧ s.errcode = .none ∧ s.lastcmd = 0 ∧ s.screen = 0 ∧
    s.fpos = 0 ∧ s.fdim = 0 ∧ s.fcfg = 0 ∧ s.cbuflen = 0 ∧ s.pixcount = 0 ∧ s.errval = 0 ∧ s.pos = 0

end Sys2Proof.Machine
end

