-- ==== Sys2Proof/Certificates/Slice0/Obligations.lean ====
section
/-! DEFINITION. The statements for the provers. Each docstring names the rules of spec/ it formalises. -/

open Sys2Proof Sys2Proof.Machine

/-! ### Encoding -/

/-- Decoding the encoding of a well-formed instruction gives it back, at its level and in its context
(30_encoding.md R100, R101, R112, R113, R115). -/
def Obligations.DecodeInvertsEncode : Prop :=
  ∀ (x : CodeCtx) (i : Instr), i.wf x = true → decodeAt x i.level (encode x i).1 (encode x i).2 = .ok i

/-- Every CTRL word has an instruction, whose encoding is the word with its ignored bits 0: bits [30:9] and [7:4], and
all but bit 31 of an SRST word (30_encoding.md R100, R102). -/
def Obligations.CtrlWordReencodesWithoutIgnoredBits : Prop :=
  ∀ (x : CodeCtx) (v : Word),
    encodeValue x (decodeCtrl v) = if v.getLsbD 31 then 0x80000000 else (v &&& 0x0000010F#32).toNat

/-- The command map (30_encoding.md R101). -/
def Obligations.CommandMapOfCtrlWords : Prop :=
  ∀ v : Word,
    (v.getLsbD 31 = true → decodeCtrl v = .srst) ∧
    (v.getLsbD 31 = false →
      (v.extractLsb' 0 4 = 0x0#4 → decodeCtrl v = .nop (v.getLsbD 8)) ∧
      (v.extractLsb' 0 4 = 0x1#4 → decodeCtrl v = .decode (v.getLsbD 8)) ∧
      (v.extractLsb' 0 4 = 0x2#4 → decodeCtrl v = .composite (v.getLsbD 8)) ∧
      (v.extractLsb' 0 4 = 0x3#4 → decodeCtrl v = .frame (v.getLsbD 8)) ∧
      (∀ c : BitVec 2, v.extractLsb' 0 4 = BitVec.ofNat 4 (4 + c.toNat) →
        decodeCtrl v = .reserved4to7 (v.getLsbD 8) c) ∧
      (∀ c : BitVec 3, v.extractLsb' 0 4 = BitVec.ofNat 4 (8 + c.toNat) →
        decodeCtrl v = .reserved8toF (v.getLsbD 8) c))

/-- The code classes, each by its condition, cover every code (30_encoding.md R113). -/
def Obligations.CodeClassesByCondition : Prop :=
  ∀ (x : CodeCtx) (c : Nat), x.Ok →
    (decodeCode x c = .codeClear ↔ c = 2 ^ x.m) ∧
    (decodeCode x c = .codeEnd ↔ c = 2 ^ x.m + 1) ∧
    (decodeCode x c = .codeFirst c ↔ x.prev = none ∧ c < 2 ^ x.m) ∧
    (decodeCode x c = .codeFirstBad c ↔ x.prev = none ∧ 2 ^ x.m + 2 ≤ c) ∧
    (decodeCode x c = .codeKnown c ↔ x.prev ≠ none ∧ c < x.next ∧ c ≠ 2 ^ x.m ∧ c ≠ 2 ^ x.m + 1) ∧
    (decodeCode x c = .codeKwkwk ↔ x.prev ≠ none ∧ c = x.next) ∧
    (decodeCode x c = .codeInvalid c ↔ x.prev ≠ none ∧ x.next < c) ∧
    decodeCode x c ∈ [Instr.codeClear, .codeEnd, .codeFirst c, .codeFirstBad c, .codeKnown c, .codeKwkwk,
      .codeInvalid c]

/-- A few words written out from the spec's encodings: the CTRL words of 95_test_vectors.md V-CMD-1 to V-CMD-4 and of
program P1, and the framing bytes of 30_encoding.md R115. -/
def Obligations.SampleWordsDecode : Prop :=
  decodeCtrl 0x00000100 = .nop true ∧ decodeCtrl 0x00000001 = .decode false ∧
  decodeCtrl 0x00000002 = .composite false ∧ decodeCtrl 0x00000103 = .frame true ∧
  decodeCtrl 0x00000007 = .reserved4to7 false 3 ∧ decodeCtrl 0x000001FF = .reserved8toF true 7 ∧
  decodeCtrl 0x80000003 = .srst ∧ decodeFrameByte 0x00 = .terminator ∧ decodeFrameByte 0x03 = .subblock 0x03

/-! ### A step runs the decoded instruction -/

/-- A host write of CTRL runs the word's instruction, the transaction answered and off the agenda
(20_memory.md R76; 40_commands.md R140). -/
def Obligations.StepRunsCtrlWord : Prop :=
  ∀ (s : State) (v : Word), s.hostDue (.write .w32 ctrlAddr v) →
    step s = exec (decodeCtrl v) { s.turnTaken with busResp := .written }

/-- Where the decoder needs bits and its sub-block is used up, the engine reads the length byte at p and runs it, with
p past it (41_lzw.md R183; 30_encoding.md R115). -/
def Obligations.StepRunsFrameByte : Prop :=
  ∀ (s : State) (r : CmdRec) (d : DecState), s.engineDue → s.engine = .decoding r d →
    d.nacc < d.w → d.p < r.len.toNat → d.rem = 0 →
    step s = exec (decodeFrameByte (s.cbuf d.p)) { s.turnTaken with engine := .decoding r { d with p := d.p + 1 } }

/-- Where the accumulator holds a code, the engine takes its low w bits and runs the code in its class
(41_lzw.md R185, R186; 30_encoding.md R113). -/
def Obligations.StepRunsCode : Prop :=
  ∀ (s : State) (r : CmdRec) (d : DecState), s.engineDue → s.engine = .decoding r d → d.w ≤ d.nacc →
    step s = exec
      (decodeCode { m := r.m.toNat, w := d.w, next := d.dict.length, prev := d.prev } (d.acc % 2 ^ d.w))
      { s.turnTaken with engine := .decoding r { d with acc := d.acc / 2 ^ d.w, nacc := d.nacc - d.w } }

/-! ### CTRL words -/

/-- NOP, the CTRL word with bit 31 and CMD 0, loads IE and changes nothing else, BUSY or not (40_commands.md R148). -/
def Obligations.NopLoadsIeOnly : Prop :=
  (∀ v : Word, v.getLsbD 31 = false → v.extractLsb' 0 4 = 0 → decodeCtrl v = .nop (v.getLsbD 8)) ∧
  (∀ (ie : Bool) (s : State), exec (.nop ie) s = .next { s with ie := ie })

/-- DECODE, COMPOSITE and FRAME written while idle are accepted: IE, LASTCMD, DONE, ERRCODE and the latched record are
as the rules say, the engine starts, which makes BUSY 1, and nothing else changes (40_commands.md R140;
10_state.md R52; 30_encoding.md R103). -/
def Obligations.AcceptedCommandStartsEngine : Prop :=
  ∀ (ie : Bool) (s : State), s.busy = false →
    exec (.decode ie) s = .next (s.started ie .decode 1) ∧
    exec (.composite ie) s = .next (s.started ie .composite 2) ∧
    exec (.frame ie) s = .next (s.started ie .frame 3) ∧
    (∀ op cmd, (s.started ie op cmd).busy = true)

/-- A request made while BUSY changes only CMDLOST and IE (40_commands.md R140; 10_state.md R27). -/
def Obligations.RequestWhileBusyIsDropped : Prop :=
  ∀ (ie : Bool) (s : State), s.busy = true →
    exec (.decode ie) s = .next { s with ie := ie, cmdlost := true } ∧
    exec (.composite ie) s = .next { s with ie := ie, cmdlost := true } ∧
    exec (.frame ie) s = .next { s with ie := ie, cmdlost := true } ∧
    (∀ c, exec (.reserved4to7 ie c) s = .next { s with ie := ie, cmdlost := true }) ∧
    (∀ c, exec (.reserved8toF ie c) s = .next { s with ie := ie, cmdlost := true })

/-- A reserved command, CMD from 4 to 15 with bit 31 = 0, completes at once with E_BADCMD and changes nothing else;
while BUSY it is dropped (40_commands.md R146). -/
def Obligations.ReservedCommandCompletesWithBadcmd : Prop :=
  (∀ v : Word, v.getLsbD 31 = false → 4 ≤ (v.extractLsb' 0 4).toNat →
    (∃ c : BitVec 2, decodeCtrl v = .reserved4to7 (v.getLsbD 8) c ∧ (v.extractLsb' 0 4).toNat = 4 + c.toNat) ∨
    (∃ c : BitVec 3, decodeCtrl v = .reserved8toF (v.getLsbD 8) c ∧ (v.extractLsb' 0 4).toNat = 8 + c.toNat)) ∧
  (∀ (ie : Bool) (c : BitVec 2) (s : State), s.busy = false → exec (.reserved4to7 ie c) s =
    .next { s with ie := ie, lastcmd := BitVec.ofNat 4 (4 + c.toNat), errcode := .badcmd, done := true }) ∧
  (∀ (ie : Bool) (c : BitVec 3) (s : State), s.busy = false → exec (.reserved8toF ie c) s =
    .next { s with ie := ie, lastcmd := BitVec.ofNat 4 (8 + c.toNat), errcode := .badcmd, done := true }) ∧
  (∀ (ie : Bool) (c : BitVec 2) (s : State), s.busy = true → exec (.reserved4to7 ie c) s =
    .next { s with ie := ie, cmdlost := true }) ∧
  (∀ (ie : Bool) (c : BitVec 3) (s : State), s.busy = true → exec (.reserved8toF ie c) s =
    .next { s with ie := ie, cmdlost := true }) ∧
  Err.badcmd.code = 1

/-- SRST sets every register field to its reset value and the engine to idle, with irq 0. CTAB and CBUF keep their
contents, and so does every location of IBUF and FB that no abandoned command could have written. A location that the
abandoned command could have written becomes unspecified: nothing that was written there is kept, and its free value is
of a generation newer than every one before (40_commands.md R147; 70_reset_and_hazards.md R302;
93_implementation_defined.md U2; log 3). -/
def Obligations.SoftResetClearsRegistersKeepsMemories : Prop :=
  ∀ s : State, ∃ t, exec .srst s = .next t ∧ t.RegistersReset ∧ t.engine = .idle ∧ t.irq = false ∧
    t.params = s.params ∧ t.agenda = s.agenda ∧ t.busResp = s.busResp ∧ t.freeCount = s.freeCount ∧
    (∀ a, a < ibufBase → t.byteAt a = s.byteAt a ∧ t.genAt a = s.genAt a) ∧
    (∀ a, (∀ r, s.engine.cmd? = some r → ¬CouldWrite s.params r a) →
      t.byteAt a = s.byteAt a ∧ t.genAt a = s.genAt a) ∧
    (∀ r a, s.engine.cmd? = some r → CouldWrite s.params r a →
      t.mem.read? a = none ∧ ∀ b, s.genAt b < t.genAt a)

/-- A soft reset sets SCREEN, FPOS, FDIM, FCFG and CBUFLEN to 0, and the next command then fails its checks: E_MINCODE
for DECODE and FRAME, E_SCREEN for COMPOSITE (70_reset_and_hazards.md R306, where the spec marks it as derived from
40_commands.md R143 to R145). That it fails in the very next step is log 17 (the checks are the engine's first turn) and
log 5 (an empty agenda leaves the turn to the engine). -/
def Obligations.CommandAfterSoftResetFailsItsCheck : Prop :=
  ∀ (s : State) (ie : Bool), s.agenda = [] → ∃ t, exec .srst s = .next t ∧
    t.screen = 0 ∧ t.fpos = 0 ∧ t.fdim = 0 ∧ t.fcfg = 0 ∧ t.cbuflen = 0 ∧
    (∃ u v, exec (.decode ie) t = .next u ∧ step u = .next v ∧ v.errcode = .mincode ∧ v.busy = false) ∧
    (∃ u v, exec (.frame ie) t = .next u ∧ step u = .next v ∧ v.errcode = .mincode ∧ v.busy = false) ∧
    (∃ u v, exec (.composite ie) t = .next u ∧ step u = .next v ∧ v.errcode = .screen ∧ v.busy = false)

/-! ### Start checks and completion -/

/-- The checks of DECODE in its order; once they pass, N = 0 completes with zeros and N > 0 begins the decode phase in
the state a CLEAR leaves (40_commands.md R143; 41_lzw.md R180 to R182). -/
def Obligations.DecodeChecksInOrder : Prop :=
  ∀ (s : State) (r : CmdRec), s.engineDue → s.engine = .starting r → r.op = .decode →
    step s = .next (
      if ¬(2 ≤ r.m.toNat ∧ r.m.toNat ≤ 8) then s.turnTaken.failed .mincode 0 0 0
      else if s.params.maxPixels < r.fw.toNat * r.fh.toNat then s.turnTaken.failed .frame 0 0 0
      else if s.params.cbufBytes < r.len.toNat then s.turnTaken.failed .cbuflen 0 0 0
      else if r.fw.toNat * r.fh.toNat = 0 then s.turnTaken.failed .none 0 0 0
      else { s.turnTaken with
        engine := .decoding r
          { p := 0, rem := 0, acc := 0, nacc := 0, dict := rootDict r.m.toNat, w := r.m.toNat + 1, prev := none,
            count := 0 } })

/-- The checks of COMPOSITE in its order; PIXCOUNT, ERRVAL and POS are not written; once they pass, the composite
phase begins at pixel 0 (40_commands.md R144; 42_compositor.md R230). -/
def Obligations.CompositeChecksInOrder : Prop :=
  ∀ (s : State) (r : CmdRec), s.engineDue → s.engine = .starting r → r.op = .composite →
    step s = .next (
      if ¬(1 ≤ r.sw.toNat ∧ 1 ≤ r.sh.toNat ∧ r.sw.toNat * r.sh.toNat ≤ s.params.maxPixels) then
        { s.turnTaken with errcode := .screen, done := true, engine := .idle }
      else if ¬(r.fx.toNat + r.fw.toNat ≤ r.sw.toNat ∧ r.fy.toNat + r.fh.toNat ≤ r.sh.toNat) then
        { s.turnTaken with errcode := .frame, done := true, engine := .idle }
      else { s.turnTaken with engine := .compositing r { count := 0, val := 0, pos := 0 } 0 })

/-- The checks of FRAME in its order; once they pass, N = 0 goes on to the composite phase and N > 0 begins the decode
phase (40_commands.md R145). -/
def Obligations.FrameChecksInOrder : Prop :=
  ∀ (s : State) (r : CmdRec), s.engineDue → s.engine = .starting r → r.op = .frame →
    step s = .next (
      if ¬(2 ≤ r.m.toNat ∧ r.m.toNat ≤ 8) then s.turnTaken.failed .mincode 0 0 0
      else if ¬(1 ≤ r.sw.toNat ∧ 1 ≤ r.sh.toNat ∧ r.sw.toNat * r.sh.toNat ≤ s.params.maxPixels) then
        s.turnTaken.failed .screen 0 0 0
      else if ¬(r.fx.toNat + r.fw.toNat ≤ r.sw.toNat ∧ r.fy.toNat + r.fh.toNat ≤ r.sh.toNat) then
        s.turnTaken.failed .frame 0 0 0
      else if s.params.cbufBytes < r.len.toNat then s.turnTaken.failed .cbuflen 0 0 0
      else if r.fw.toNat * r.fh.toNat = 0 then
        { s.turnTaken with engine := .compositing r { count := 0, val := 0, pos := 0 } 0 }
      else { s.turnTaken with
        engine := .decoding r
          { p := 0, rem := 0, acc := 0, nacc := 0, dict := rootDict r.m.toNat, w := r.m.toNat + 1, prev := none,
            count := 0 } })

/-! ### LZW codes and framing bytes -/

/-- CLEAR is the code 2^m, at any width: the roots alone are left in the dictionary, w is m + 1, next 2^m + 2 and prev
NONE; count, p, rem, acc and nacc, and all else, are unchanged (41_lzw.md R187). -/
def Obligations.ClearResetsDictionary : Prop :=
  ∀ (s : State) (r : CmdRec) (d : DecState), s.engine = .decoding r d →
    decodeCode (codeCtx r d) (2 ^ r.m.toNat) = .codeClear ∧
    ∃ dict : List (Option (List Byte)),
      exec .codeClear s = .next { s with
        engine := .decoding r { d with dict := dict, w := r.m.toNat + 1, prev := none } } ∧
      dict.length = 2 ^ r.m.toNat + 2 ∧
      (∀ c, c < 2 ^ r.m.toNat → dict[c]? = some (some [BitVec.ofNat 8 c])) ∧
      dict[2 ^ r.m.toNat]? = some none ∧ dict[2 ^ r.m.toNat + 1]? = some none

/-- END is the code 2^m + 1: the decode ends with success and the count it has reached; DECODE completes, FRAME goes
on to composite (41_lzw.md R188; 40_commands.md R143, R145). -/
def Obligations.EndStopsDecodeWithSuccess : Prop :=
  ∀ (s : State) (r : CmdRec) (d : DecState), s.engine = .decoding r d →
    decodeCode (codeCtx r d) (2 ^ r.m.toNat + 1) = .codeEnd ∧
    (r.op = .decode → exec .codeEnd s = .next (s.failed .none d.count 0 d.p)) ∧
    (r.op = .frame → exec .codeEnd s = .next { s with
      engine := .compositing r { count := d.count, val := 0, pos := d.p } 0 })

/-- FIRST, a code below 2^m with no previous code, emits its root, adds no entry and remembers the code
(41_lzw.md R189). That no entry is added is an inference the spec marks as its own there: "This reading is the spec's
own". -/
def Obligations.FirstCodeEmitsRoot : Prop :=
  ∀ (s : State) (r : CmdRec) (d : DecState) (c : Nat), s.engine = .decoding r d → d.prev = none →
    d.count < r.pixels → d.seq c = some [BitVec.ofNat 8 c] →
    (c < 2 ^ r.m.toNat → decodeCode (codeCtx r d) c = .codeFirst c) ∧
    ∃ t, exec (.codeFirst c) s = .next t ∧ DataCodeEffect s r d c [BitVec.ofNat 8 c] none t

/-- KNOWN, a code below next that is not CLEAR or END, after a previous code, emits its slot's sequence, and adds the
previous code's sequence followed by its first index (41_lzw.md R190). -/
def Obligations.KnownCodeEmitsItsSequence : Prop :=
  ∀ (s : State) (r : CmdRec) (d : DecState) (c pc : Nat) (ps rest : List Byte) (b : Byte),
    s.engine = .decoding r d → d.prev = some pc → d.seq pc = some ps → d.seq c = some (b :: rest) →
    d.count < r.pixels →
    (c < d.dict.length → c ≠ 2 ^ r.m.toNat → c ≠ 2 ^ r.m.toNat + 1 → decodeCode (codeCtx r d) c = .codeKnown c) ∧
    ∃ t, exec (.codeKnown c) s = .next t ∧ DataCodeEffect s r d c (b :: rest) (some (ps ++ [b])) t

/-- KWKWK, the code next after a previous code, emits the previous code's sequence followed by its own first index,
and adds it as entry next (41_lzw.md R191). -/
def Obligations.KwkwkCodeEmitsExtendedPrevious : Prop :=
  ∀ (s : State) (r : CmdRec) (d : DecState) (pc : Nat) (rest : List Byte) (b : Byte),
    s.engine = .decoding r d → d.prev = some pc → d.seq pc = some (b :: rest) → d.count < r.pixels →
    (2 ^ r.m.toNat + 2 ≤ d.dict.length → decodeCode (codeCtx r d) d.dict.length = .codeKwkwk) ∧
    ∃ t, exec .codeKwkwk s = .next t ∧
      DataCodeEffect s r d d.next (b :: rest ++ [b]) (some (b :: rest ++ [b])) t

/-- FIRST_BAD (no previous code, and the code is 2^m + 2 or above) and INVALID (a code above next) end the command
with E_BADCODE: ERRVAL holds the code in [11:0] and next in [27:16], the other bits 0, and nothing is written but the
result registers and STATUS (41_lzw.md R192; 10_state.md R41). -/
def Obligations.BadCodeFailsWithCodeAndNext : Prop :=
  ∀ (s : State) (r : CmdRec) (d : DecState) (c : Nat), s.engine = .decoding r d → r.op ≠ .composite →
    c < 2 ^ 12 → d.dict.length < 2 ^ 12 →
    (d.prev = none → 2 ^ r.m.toNat + 2 ≤ c → decodeCode (codeCtx r d) c = .codeFirstBad c) ∧
    (d.prev ≠ none → 2 ^ r.m.toNat + 2 ≤ d.dict.length → d.dict.length < c →
      decodeCode (codeCtx r d) c = .codeInvalid c) ∧
    ∃ v : Word, v.extractLsb' 0 12 = BitVec.ofNat 12 c ∧ v.extractLsb' 12 4 = 0 ∧
      v.extractLsb' 16 12 = BitVec.ofNat 12 d.dict.length ∧ v.extractLsb' 28 4 = 0 ∧
      exec (.codeFirstBad c) s = .next { s.failed .badcode d.count 0 d.p with errval := v } ∧
      exec (.codeInvalid c) s = .next { s.failed .badcode d.count 0 d.p with errval := v }

/-- SUBBLOCK: the next L bytes are data (30_encoding.md R115; 41_lzw.md R183). -/
def Obligations.SubblockStartsData : Prop :=
  ∀ (s : State) (r : CmdRec) (d : DecState) (len : Byte), s.engine = .decoding r d →
    exec (.subblock len) s = .next { s with engine := .decoding r { d with rem := len.toNat } }

/-- TERMINATOR while a code still needs bits: E_EOD with POS one past the terminator, which p already is; what was
emitted stays (41_lzw.md R183; 60_exceptions.md R262). -/
def Obligations.TerminatorFailsWithEod : Prop :=
  ∀ (s : State) (r : CmdRec) (d : DecState), s.engine = .decoding r d → r.op ≠ .composite →
    exec .terminator s = .next (s.failed .eod d.count 0 d.p)

/-- A code and a framing byte have no effect outside the decode phase, where none exists: the model refuses them by
name (log 14, the model's own choice). -/
def Obligations.CodeOutsideDecodePhaseIsRefused : Prop :=
  ∀ (s : State) (i : Instr), i.level ≠ .ctrl → (∀ r d, s.engine ≠ .decoding r d) → exec i s = .refused .noDecode

/-- A byte needed at or past len: E_OVERRUN with the cursor where it is (41_lzw.md R183, R184). -/
def Obligations.ByteAtOrPastLenIsOverrun : Prop :=
  ∀ (s : State) (r : CmdRec) (d : DecState), s.engineDue → s.engine = .decoding r d → r.op ≠ .composite →
    d.nacc < d.w → r.len.toNat ≤ d.p → step s = .next (s.turnTaken.failed .overrun d.count 0 d.p)

/-- A data byte enters the accumulator least significant bit first, above the bits that are there; the code taken is
the accumulator's low w bits, and the bits above them stay for the next code
(30_encoding.md R111, R112; 41_lzw.md R185). -/
def Obligations.CodesAreReadLsbFirst : Prop :=
  (∀ (s : State) (r : CmdRec) (d : DecState), s.engineDue → s.engine = .decoding r d → d.acc < 2 ^ d.nacc →
    d.nacc < d.w → d.p < r.len.toNat → 0 < d.rem →
    ∃ acc, step s = .next { s.turnTaken with
        engine := .decoding r { d with p := d.p + 1, rem := d.rem - 1, acc := acc, nacc := d.nacc + 8 } } ∧
      ∀ j, acc.testBit j = if j < d.nacc then d.acc.testBit j else (s.cbuf d.p).getLsbD (j - d.nacc)) ∧
  (∀ (d : DecState) (j : Nat), d.code.testBit j = (decide (j < d.w) && d.acc.testBit j)) ∧
  (∀ (d : DecState) (j : Nat), d.dropCode.acc.testBit j = d.acc.testBit (d.w + j))

/-- AddEntry: a full table stays as it is; otherwise slot next is the entry, earlier slots keep theirs, next grows by
one, and w grows by one when next reaches 2^w below 12 (41_lzw.md R194, R195). -/
def Obligations.AddEntryGrowsTableAndWidth : Prop :=
  ∀ (d : DecState) (e : List Byte),
    (4096 ≤ d.dict.length → d.addEntry e = d) ∧
    (d.dict.length < 4096 → ∃ dict w,
      d.addEntry e = { d with dict := dict, w := w } ∧ dict.length = d.dict.length + 1 ∧
      dict[d.dict.length]? = some (some e) ∧ (∀ c, c < d.dict.length → dict[c]? = d.dict[c]?) ∧
      (w = d.w + 1 ↔ d.dict.length + 1 = 2 ^ d.w ∧ d.w < 12) ∧ (w = d.w ∨ w = d.w + 1))

/-! ### The compositor -/

/-- RowOf is Rows(h) by index: the closed form of R234 and the row lists of R233 agree (42_compositor.md R233). -/
def Obligations.InterlaceRowsMatchClosedForm : Prop :=
  ∀ h : Nat, (interlaceRows h).length = h ∧ ∀ r, r < h → (interlaceRows h)[r]? = some (rowOf r h true)

/-- RowOf is a permutation of the rows, interlaced or not (42_compositor.md R238 (a)). -/
def Obligations.RowOfIsAPermutation : Prop :=
  ∀ (h : Nat) (il : Bool), (∀ r, r < h → rowOf r h il < h) ∧
    (∀ r q, r < h → q < h → rowOf r h il = rowOf q h il → r = q) ∧
    (∀ y, y < h → ∃ r, r < h ∧ rowOf r h il = y)

/-- One pixel of the composite loop: a transparent index leaves every byte; an opaque one writes the colour word to
its pixel and leaves every other byte (42_compositor.md R231, R235 to R237, R240). That a turn is one pixel and moves on
to pixel i + 1 is log 6, the model's choice. -/
def Obligations.PixelTurnDrawsOrSkips : Prop :=
  ∀ (s : State) (r : CmdRec) (res : DecResult) (i : Nat), s.engineDue → s.engine = .compositing r res i →
    i < r.pixels →
    ∃ t, step s = .next t ∧ t = { s.turnTaken with mem := t.mem, engine := .compositing r res (i + 1) } ∧
      (r.te = true → s.ibuf i = r.ti → ∀ a, t.byteAt a = s.byteAt a) ∧
      (¬(r.te = true ∧ s.ibuf i = r.ti) →
        let k := (rowOf (i / r.fw.toNat) r.fh.toNat r.il + r.fy.toNat) * r.sw.toNat + r.fx.toNat + i % r.fw.toNat
        t.fb k = s.ctab (s.ibuf i) ∧
        ∀ a, (a < fbBase + 4 * k ∨ fbBase + 4 * k + 4 ≤ a) → t.byteAt a = s.byteAt a)

/-- After the last pixel the command completes with E_NONE; COMPOSITE writes no result register, FRAME writes its
decode result (40_commands.md R142, R144, R145). -/
def Obligations.CompositePhaseCompletes : Prop :=
  ∀ (s : State) (r : CmdRec) (res : DecResult) (i : Nat), s.engineDue → s.engine = .compositing r res i →
    r.pixels ≤ i →
    (r.op = .composite → step s = .next { s.turnTaken with errcode := .none, done := true, engine := .idle }) ∧
    (r.op = .frame → step s = .next (s.turnTaken.failed .none res.count res.val res.pos))

/-- A COMPOSITE whose checks pass runs to E_NONE and leaves FB as R238 says: each pixel of the frame rectangle holds
the colour of its index byte, or its earlier value where that byte is transparent, and every other byte of every
memory is unchanged (42_compositor.md R231, R238, R239; 40_commands.md R144). -/
def Obligations.CompositeDrawsTheFrame : Prop :=
  ∀ (s : State) (r : CmdRec), s.Inv → s.agenda = [] → s.engine = .starting r → r.op = .composite →
    screenOk s.params r = true → frameInScreen r = true →
    ∃ k t, Sys2Proof.core.run k s = .next t ∧
      t = { s with mem := t.mem, errcode := .none, done := true, engine := .idle } ∧
      (∀ row x, row < r.fh.toNat → x < r.fw.toNat →
        let pix := (rowOf row r.fh.toNat r.il + r.fy.toNat) * r.sw.toNat + r.fx.toNat + x
        let idx := s.ibuf (row * r.fw.toNat + x)
        t.fb pix = if r.te = true ∧ idx = r.ti then s.fb pix else s.ctab idx) ∧
      (∀ a, (∀ x y, r.fx.toNat ≤ x → x < r.fx.toNat + r.fw.toNat → r.fy.toNat ≤ y → y < r.fy.toNat + r.fh.toNat →
          a < fbBase + 4 * (y * r.sw.toNat + x) ∨ fbBase + 4 * (y * r.sw.toNat + x) + 4 ≤ a) →
        t.byteAt a = s.byteAt a)

/-- A DECODE whose checks pass runs to completion, and its turns amount to LzwDecode as the spec writes it whole: the
same error, PIXCOUNT, ERRVAL and POS, the same indices in IBUF, and every other byte of every memory unchanged
(41_lzw.md R186, R196, R197; 40_commands.md R143). -/
def Obligations.DecodeRunsAsLzwDecode : Prop :=
  ∀ (s : State) (r : CmdRec), s.Inv → s.agenda = [] → s.engine = .starting r → r.op = .decode →
    minCodeOk r = true → r.pixels ≤ s.params.maxPixels → cbufLenOk s.params r = true →
    ∃ k t R, Sys2Proof.core.run k s = .next t ∧
      refLzwDecode s.cbuf r.m.toNat r.pixels r.len.toNat = some R ∧
      t = { s.failed R.err R.res.count R.res.val R.res.pos with mem := t.mem } ∧
      R.res.count = R.out.length ∧ (∀ j, j < R.out.length → R.out[j]? = some (t.ibuf j)) ∧
      (∀ a, (a < ibufBase ∨ ibufBase + R.out.length ≤ a) → t.byteAt a = s.byteAt a)

/-- A FRAME whose checks pass runs to completion, and its turns amount to LzwDecode and then Composite as the spec
writes FRAME: the error, PIXCOUNT, ERRVAL and POS are LzwDecode's, and IBUF holds the indices it emitted. Where it
failed, every other byte of every memory, FB among them, is as before. Where it succeeded, each pixel of the frame
rectangle holds the colour of its byte in the resulting IBUF, or its earlier value where that byte is transparent, and
every other byte is as before (40_commands.md R145; 41_lzw.md R186, R196, R197; 42_compositor.md R231, R238;
60_exceptions.md R262). -/
def Obligations.FrameRunsAsLzwDecodeThenComposite : Prop :=
  ∀ (s : State) (r : CmdRec), s.Inv → s.agenda = [] → s.engine = .starting r → r.op = .frame →
    minCodeOk r = true → screenOk s.params r = true → frameInScreen r = true → cbufLenOk s.params r = true →
    ∃ k t R, Sys2Proof.core.run k s = .next t ∧
      refLzwDecode s.cbuf r.m.toNat r.pixels r.len.toNat = some R ∧
      t = { s.failed R.err R.res.count R.res.val R.res.pos with mem := t.mem } ∧
      R.res.count = R.out.length ∧ (∀ j, j < R.out.length → R.out[j]? = some (t.ibuf j)) ∧
      (R.err ≠ .none →
        ∀ a, (a < ibufBase ∨ ibufBase + R.out.length ≤ a) → t.byteAt a = s.byteAt a) ∧
      (R.err = .none →
        (∀ row x, row < r.fh.toNat → x < r.fw.toNat →
          let pix := (rowOf row r.fh.toNat r.il + r.fy.toNat) * r.sw.toNat + r.fx.toNat + x
          let idx := t.ibuf (row * r.fw.toNat + x)
          t.fb pix = if r.te = true ∧ idx = r.ti then s.fb pix else s.ctab idx) ∧
        (∀ a, (a < ibufBase ∨ ibufBase + R.out.length ≤ a) →
          (∀ x y, r.fx.toNat ≤ x → x < r.fx.toNat + r.fw.toNat → r.fy.toNat ≤ y → y < r.fy.toNat + r.fh.toNat →
            a < fbBase + 4 * (y * r.sw.toNat + x) ∨ fbBase + 4 * (y * r.sw.toNat + x) + 4 ≤ a) →
          t.byteAt a = s.byteAt a))

/-- Every command terminates, whatever CBUF holds (40_commands.md R141; 41_lzw.md R200). -/
def Obligations.EveryCommandTerminates : Prop :=
  ∀ s : State, s.Inv → s.agenda = [] →
    ∃ k t, Sys2Proof.core.run k s = .next t ∧ t.busy = false ∧ (s.busy = true → t.done = true)

/-! ### The host port -/

/-- An access that is not legal answers BUS_ERROR and changes no state, for reads and for writes, BUSY or not
(20_memory.md R75, R76, R78). That it does so at a window address while BUSY too is log 7, which reads R78 and
60_exceptions.md R267 together. -/
def Obligations.IllegalAccessIsBusError : Prop :=
  ∀ (s : State) (n : Width) (addr v : Word), (∀ g, ¬LegalAccess s.params n addr.toNat g) →
    (s.hostDue (.read n addr) → step s = .next { s.turnTaken with busResp := .busError }) ∧
    (s.hostDue (.write n addr v) → step s = .next { s.turnTaken with busResp := .busError })

/-- A legal access to a memory window while BUSY raises HOST_HAZARD (60_exceptions.md R267; 20_memory.md R83). -/
def Obligations.WindowAccessWhileBusyIsHostHazard : Prop :=
  ∀ (s : State) (n : Width) (addr v : Word) (g : Region), LegalAccess s.params n addr.toNat g → g ≠ .regs →
    s.busy = true →
    (s.hostDue (.read n addr) → step s = .fault .hostHazard) ∧
    (s.hostDue (.write n addr v) → step s = .fault .hostHazard)

/-- A legal read of a memory window while idle answers the addressed bytes, the one at the lowest address in bits
[7:0], and changes nothing else (20_memory.md R71 to R75, R77). -/
def Obligations.WindowReadIsLittleEndian : Prop :=
  ∀ (s : State) (n : Width) (addr : Word) (g : Region), LegalAccess s.params n addr.toNat g → g ≠ .regs →
    s.busy = false → s.hostDue (.read n addr) →
    ∃ u : Word, step s = .next { s.turnTaken with busResp := .data u } ∧
      (∀ j, j < n.bytes → u.extractLsb' (8 * j) 8 = s.byteAt (addr.toNat + j)) ∧ u.toNat < 2 ^ (8 * n.bytes)

/-- A legal write of a memory window while idle stores the value's bytes, bits [7:0] at the lowest address, and leaves
every other byte and every register (20_memory.md R71 to R74, R76, R77). -/
def Obligations.WindowWriteIsLittleEndian : Prop :=
  ∀ (s : State) (n : Width) (addr v : Word) (g : Region), LegalAccess s.params n addr.toNat g → g ≠ .regs →
    s.busy = false → s.hostDue (.write n addr v) →
    ∃ t, step s = .next t ∧ t = { s.turnTaken with busResp := .written, mem := t.mem } ∧
      (∀ j, j < n.bytes → t.byteAt (addr.toNat + j) = v.extractLsb' (8 * j) 8) ∧
      (∀ a, (a < addr.toNat ∨ addr.toNat + n.bytes ≤ a) → t.byteAt a = s.byteAt a)

/-- What a read of each register answers, BUSY or not: the constants, the fields in their places, and 0 for the
reserved offsets; a read changes nothing else (10_state.md R20 to R24, R30 to R39). The result registers have a
statement of their own. -/
def Obligations.RegisterReadsAnswerTheirValue : Prop :=
  ∀ s : State,
    (s.hostDue (.read .w32 0x000) → step s = .next { s.turnTaken with busResp := .data 0x4C5A5701 }) ∧
    (s.hostDue (.read .w32 0x004) →
      step s = .next { s.turnTaken with busResp := .data (if s.ie then 0x100 else 0) }) ∧
    (s.hostDue (.read .w32 0x00C) → step s = .next { s.turnTaken with busResp := .data s.screen }) ∧
    (s.hostDue (.read .w32 0x010) → step s = .next { s.turnTaken with busResp := .data s.fpos }) ∧
    (s.hostDue (.read .w32 0x014) → step s = .next { s.turnTaken with busResp := .data s.fdim }) ∧
    (s.hostDue (.read .w32 0x018) → step s = .next { s.turnTaken with busResp := .data s.fcfg }) ∧
    (s.hostDue (.read .w32 0x01C) → step s = .next { s.turnTaken with busResp := .data s.cbuflen }) ∧
    (s.hostDue (.read .w32 0x02C) →
      step s = .next { s.turnTaken with busResp := .data (BitVec.ofNat 32 s.params.cbufBytes) }) ∧
    (s.hostDue (.read .w32 0x030) →
      step s = .next { s.turnTaken with busResp := .data (BitVec.ofNat 32 s.params.maxPixels) }) ∧
    (∀ addr : Word, 0x034 ≤ addr.toNat → addr.toNat ≤ 0xFFC → addr.toNat % 4 = 0 → s.hostDue (.read .w32 addr) →
      step s = .next { s.turnTaken with busResp := .data 0 })

/-- PIXCOUNT, ERRVAL and POS read as they are while idle and while a COMPOSITE is BUSY; while a DECODE or FRAME is
BUSY, each read answers a fresh free value, and only the model's counter of them moves (10_state.md R40 to R43;
the counter is log 4, the model's own). -/
def Obligations.ResultRegisterReads : Prop :=
  ∀ s : State,
    ((∀ r, s.engine.cmd? = some r → r.op = .composite) →
      (s.hostDue (.read .w32 0x020) → step s = .next { s.turnTaken with busResp := .data s.pixcount }) ∧
      (s.hostDue (.read .w32 0x024) → step s = .next { s.turnTaken with busResp := .data s.errval }) ∧
      (s.hostDue (.read .w32 0x028) → step s = .next { s.turnTaken with busResp := .data s.pos })) ∧
    (∀ r addr, s.engine.cmd? = some r → r.op ≠ .composite → addr ∈ [0x020#32, 0x024#32, 0x028#32] →
      s.hostDue (.read .w32 addr) →
      step s = .next { s.turnTaken with
        busResp := .data (Config.busyResult s.freeCount), freeCount := s.freeCount + 1 })

/-- STATUS reads LASTCMD in [11:8], ERRCODE in [7:4], CMDLOST, DONE and BUSY in bits 2, 1 and 0, and 0 elsewhere
(10_state.md R25 to R29), and ERRCODE is the number of the error (60_exceptions.md R260). -/
def Obligations.StatusReadsItsFields : Prop :=
  (∀ s : State, s.hostDue (.read .w32 0x008) →
    ∃ u : Word, step s = .next { s.turnTaken with busResp := .data u } ∧
      u.getLsbD 0 = s.busy ∧ u.getLsbD 1 = s.done ∧ u.getLsbD 2 = s.cmdlost ∧ u.getLsbD 3 = false ∧
      u.extractLsb' 4 4 = s.errcode.code ∧ u.extractLsb' 8 4 = s.lastcmd ∧ u.extractLsb' 12 20 = 0) ∧
  Err.none.code = 0 ∧ Err.badcmd.code = 1 ∧ Err.mincode.code = 2 ∧ Err.screen.code = 3 ∧ Err.frame.code = 4 ∧
  Err.cbuflen.code = 5 ∧ Err.badcode.code = 6 ∧ Err.eod.code = 7 ∧ Err.overrun.code = 8

/-- What a write of each register other than CTRL does, BUSY or not: the configuration registers take the value (FCFG
without its reserved bits), a 1 in bit 1 or 2 of STATUS clears DONE or CMDLOST, and read-only and reserved registers
ignore it (10_state.md R20, R21, R26, R27, R29 to R42; 70_reset_and_hazards.md R311). -/
def Obligations.RegisterWritesTakeEffect : Prop :=
  ∀ (s : State) (v : Word),
    (s.hostDue (.write .w32 0x00C v) → step s = .next { s.turnTaken with busResp := .written, screen := v }) ∧
    (s.hostDue (.write .w32 0x010 v) → step s = .next { s.turnTaken with busResp := .written, fpos := v }) ∧
    (s.hostDue (.write .w32 0x014 v) → step s = .next { s.turnTaken with busResp := .written, fdim := v }) ∧
    (s.hostDue (.write .w32 0x018 v) →
      step s = .next { s.turnTaken with busResp := .written, fcfg := v &&& 0x000FFF03 }) ∧
    (s.hostDue (.write .w32 0x01C v) → step s = .next { s.turnTaken with busResp := .written, cbuflen := v }) ∧
    (s.hostDue (.write .w32 0x008 v) → step s = .next { s.turnTaken with
      busResp := .written
      done := if v.getLsbD 1 then false else s.done
      cmdlost := if v.getLsbD 2 then false else s.cmdlost }) ∧
    (∀ addr : Word, (addr.toNat = 0 ∨ (0x020 ≤ addr.toNat ∧ addr.toNat ≤ 0xFFC)) → addr.toNat % 4 = 0 →
      s.hostDue (.write .w32 addr v) → step s = .next { s.turnTaken with busResp := .written })

/-- A host read changes nothing but the answer and, in the model, the counter of free values (20_memory.md R80). -/
def Obligations.HostReadHasNoSideEffect : Prop :=
  ∀ (s t : State) (n : Width) (addr : Word), s.hostDue (.read n addr) → step s = .next t →
    t = { s.turnTaken with busResp := t.busResp, freeCount := t.freeCount } ∧ t.busResp ≠ .none ∧
      t.busResp ≠ .written

/-- irq is DONE and IE, and the four things that deassert it do: a 1 written to STATUS bit 1, an accepted command that
the engine runs, IE written 0 with no command, and the two resets (60_exceptions.md R270). -/
def Obligations.IrqIsDoneAndIe : Prop :=
  ∀ s : State, s.irq = (s.done && s.ie) ∧
    (∀ v : Word, v.getLsbD 1 = true → (s.writeStatus v).irq = false) ∧
    (∀ ie t, s.busy = false →
      (exec (.decode ie) s = .next t ∨ exec (.composite ie) s = .next t ∨ exec (.frame ie) s = .next t) →
      t.irq = false) ∧
    (∀ t, exec (.nop false) s = .next t → t.irq = false) ∧
    (∀ t, exec .srst s = .next t → t.irq = false) ∧ s.hardReset.irq = false

/-- The pseudo-instructions that write CTRL send the command they name: CMD with IE = 0, CMDI with IE = 1, and SRST
(30_encoding.md R121). -/
def Obligations.PseudoCommandsDecode : Prop :=
  ∀ c : BitVec 4,
    (∃ v, (Pseudo.cmd c).expand = [.write .w32 ctrlAddr v] ∧ ctrlSrst v = false ∧ ctrlIe v = false ∧
      ctrlCmd v = c) ∧
    (∃ v, (Pseudo.cmdi c).expand = [.write .w32 ctrlAddr v] ∧ ctrlSrst v = false ∧ ctrlIe v = true ∧
      ctrlCmd v = c) ∧
    (∃ v, Pseudo.srst.expand = [.write .w32 ctrlAddr v] ∧ decodeCtrl v = .srst)

/-! ### Reset -/

/-- The reset input, whatever runs: every register field at its reset value, the engine idle with no record, irq 0,
nothing written in any memory, and the free value of every address of a generation newer than every one before; and so
in State.reset, which has no generation before it (70_reset_and_hazards.md R300; that an unwritten byte is a free value
is log 2, that reset is a turn log 10). -/
def Obligations.HardwareResetState : Prop :=
  (∀ (s : State) (rest : List Turn), s.agenda = .reset :: rest →
    ∃ t, step s = .next t ∧ t.RegistersReset ∧ t.engine = .idle ∧ t.irq = false ∧ t.mem = [] ∧
      (∀ a b, s.genAt b < t.genAt a) ∧ t.params = s.params) ∧
  State.reset.RegistersReset ∧ State.reset.engine = .idle ∧ State.reset.irq = false ∧ State.reset.mem = []

/-- The invariant holds at reset, for every pair of parameters in range. -/
def Obligations.ResetMeetsTheInvariant : Prop :=
  (∀ p : Config.Params, p.InRange → (State.resetWith p).Inv) ∧ State.reset.Inv

/-! ### Whole-machine rules -/

/-- Every step keeps the invariant of State.Inv: the memory stays canonical and inside the map, FCFG's reserved bits
stay 0, STATUS is as the BUSY window says, the decoder keeps R198 and the width rule R195, and the checked geometry
stays (41_lzw.md R198; 10_state.md R53, R55). -/
def Obligations.EveryStepKeepsTheInvariant : Prop :=
  ∀ s t : State, s.Inv → step s = .next t → t.Inv

/-- From a state that meets the invariant, no step is refused, and a step faults only where the host accesses a memory
window while BUSY (60_exceptions.md R267; 42_compositor.md R239). -/
def Obligations.StepsStopOnlyAtHostHazard : Prop :=
  ∀ s : State, s.Inv → (∀ f, step s ≠ .refused f) ∧
    (∀ f, step s = .fault f → s.busy = true ∧ ∃ n addr v g, LegalAccess s.params n addr g ∧ g ≠ .regs ∧
      addr < 2 ^ 32 ∧ (s.hostDue (.read n (BitVec.ofNat 32 addr)) ∨ s.hostDue (.write n (BitVec.ofNat 32 addr) v)))

/-- Through the whole BUSY window DONE and ERRCODE are 0 and LASTCMD is the running command: every step keeps it
(10_state.md R28; 70_reset_and_hazards.md R314). -/
def Obligations.ErrcodeAndDoneStayZeroWhileBusy : Prop :=
  ∀ s t : State, s.BusyStatus → step s = .next t → t.BusyStatus

/-- No step changes CBUF_BYTES or MAX_PIXELS (10_state.md R56). -/
def Obligations.ParametersNeverChange : Prop :=
  ∀ s t : State, step s = .next t → t.params = s.params

/-- The engine never writes CBUF or CTAB, in success or in error (20_memory.md R82, R87; 60_exceptions.md R262). -/
def Obligations.EngineNeverWritesCbufOrCtab : Prop :=
  ∀ (s t : State) (a : Nat), s.engineDue → step s = .next t → a < ibufBase → t.byteAt a = s.byteAt a

/-- FB changes in the composite phase only, and that phase goes on, or completes with E_NONE: it cannot fail. So a
command that fails, a FRAME among them, has left FB as it was (60_exceptions.md R262; 40_commands.md R145;
42_compositor.md R239). -/
def Obligations.FbChangesOnlyInThePhaseThatCannotFail : Prop :=
  ∀ s t : State, s.Inv → s.engineDue → step s = .next t →
    (∀ a, fbBase ≤ a → t.byteAt a ≠ s.byteAt a → ∃ r res i, s.engine = .compositing r res i) ∧
    (∀ r res i, s.engine = .compositing r res i →
      t.engine = .compositing r res (i + 1) ∨ (t.engine = .idle ∧ t.errcode = .none))

/-- A command never changes a configuration register, IE, CMDLOST or LASTCMD, nor a field of the model's own but the
agenda: no turn of the engine does (70_reset_and_hazards.md R305; 40_commands.md R142). -/
def Obligations.EngineLeavesHostRegisters : Prop :=
  ∀ s t : State, s.engineDue → step s = .next t →
    t.screen = s.screen ∧ t.fpos = s.fpos ∧ t.fdim = s.fdim ∧ t.fcfg = s.fcfg ∧ t.cbuflen = s.cbuflen ∧
    t.ie = s.ie ∧ t.cmdlost = s.cmdlost ∧ t.lastcmd = s.lastcmd ∧ t.busResp = s.busResp ∧ t.losses = s.losses ∧
    t.params = s.params ∧ t.freeCount = s.freeCount ∧ t.agenda = s.agenda.tail

/-- PIXCOUNT, ERRVAL and POS change only at the completion of a DECODE or FRAME, or at a reset
(10_state.md R40 to R42; 40_commands.md R142, R144). -/
def Obligations.ResultRegistersChangeOnlyAtCompletion : Prop :=
  ∀ s t : State, step s = .next t →
    (t.pixcount = s.pixcount ∧ t.errval = s.errval ∧ t.pos = s.pos) ∨
    (t.RegistersReset ∧ t.engine = .idle) ∨
    (∃ r, s.engine.cmd? = some r ∧ r.op ≠ .composite ∧ t.engine = .idle ∧ t.done = true)

/-- In the decode phase the only bytes that change hold indices below 2^m (30_encoding.md R116; 41_lzw.md R198 (a)). -/
def Obligations.DecoderWritesOnlyRootIndices : Prop :=
  ∀ (s t : State) (r : CmdRec) (d : DecState) (a : Nat), s.Inv → s.engineDue → s.engine = .decoding r d →
    step s = .next t → t.byteAt a ≠ s.byteAt a →
    ibufBase + d.count ≤ a ∧ a < ibufBase + r.pixels ∧ (t.byteAt a).toNat < 2 ^ r.m.toNat

/-- Once the table is full it is frozen: a KNOWN code changes neither the dictionary nor the width
(41_lzw.md R201). -/
def Obligations.FullTableIsFrozen : Prop :=
  ∀ (s t : State) (r : CmdRec) (d : DecState) (c : Nat), s.engine = .decoding r d → d.dict.length = 4096 →
    exec (.codeKnown c) s = .next t →
    t.engine = .idle ∨ (∃ res, t.engine = .compositing r res 0) ∨
      ∃ d', t.engine = .decoding r d' ∧ d'.dict = d.dict ∧ d'.w = d.w ∧ d'.prev = some c
end

