-- ==== Sys2Proof/Laws/Memory.lean ====
section
/-! SUPPORT. The laws of memory as a list: a read after a write, the canonical form, and equal reads mean equal lists. -/

namespace Sys2Proof.Machine

open Sys2Proof

@[simp] theorem Memory.read?_nil (a : Nat) : Memory.read? [] a = none := rfl

theorem Memory.read?_cons (k : Nat) (v : Byte) (m : Memory) (a : Nat) :
    Memory.read? ((k, v) :: m) a = if k = a then some v else Memory.read? m a := rfl

/-- A write is read back at its address and leaves every other address alone. -/
theorem Memory.read?_write (m : Memory) (a : Nat) (v : Byte) (b : Nat) :
    (m.write a v).read? b = if b = a then some v else m.read? b := by
  induction m with
  | nil =>
    rcases eq_or_ne b a with rfl | h
    · simp [Memory.write, Memory.read?_cons]
    · simp [Memory.write, Memory.read?_cons, h, h.symm]
  | cons c rest ih =>
    obtain ⟨k, x⟩ := c
    simp only [Memory.write]
    split
    · simp only [Memory.read?_cons]; grind
    · split
      · subst_vars; simp only [Memory.read?_cons]; grind
      · simp only [Memory.read?_cons, ih]; grind

@[simp] theorem Memory.read?_write_self (m : Memory) (a : Nat) (v : Byte) :
    (m.write a v).read? a = some v := by simp [Memory.read?_write]

theorem Memory.read?_write_other (m : Memory) {a b : Nat} (v : Byte) (h : b ≠ a) :
    (m.write a v).read? b = m.read? b := by simp [Memory.read?_write, h]

/-- The cells of a memory after a write are the written one and old ones of other addresses. -/
theorem Memory.mem_write {m : Memory} {a : Nat} {v : Byte} {c : Host.Cell} (h : c ∈ m.write a v) :
    c = (a, v) ∨ c ∈ m := by
  induction m with
  | nil => left; simpa [Memory.write] using h
  | cons d rest ih =>
    obtain ⟨k, x⟩ := d
    simp only [Memory.write] at h
    split at h
    · rcases List.mem_cons.1 h with h | h
      · exact .inl h
      · exact .inr h
    · split at h
      · rcases List.mem_cons.1 h with h | h
        · exact .inl h
        · exact .inr (List.mem_cons_of_mem _ h)
      · rcases List.mem_cons.1 h with h | h
        · exact .inr (h ▸ List.mem_cons_self ..)
        · rcases ih h with h | h
          · exact .inl h
          · exact .inr (List.mem_cons_of_mem _ h)

/-- A write keeps the canonical form. -/
theorem Memory.wf_write {m : Memory} (h : m.wf) (a : Nat) (v : Byte) : (m.write a v).wf := by
  induction m with
  | nil => simp [Memory.write]
  | cons d rest ih =>
    obtain ⟨k, x⟩ := d
    obtain ⟨hk, hrest⟩ := List.pairwise_cons.1 h
    simp only [Memory.write]
    split
    · rename_i hak
      refine List.pairwise_cons.2 ⟨?_, h⟩
      intro c hc
      rcases List.mem_cons.1 hc with rfl | hc
      · exact hak
      · exact lt_trans hak (hk c hc)
    · split
      · rename_i _ hak
        subst hak
        exact List.pairwise_cons.2 ⟨hk, hrest⟩
      · rename_i hlt hne
        refine List.pairwise_cons.2 ⟨?_, ih hrest⟩
        intro c hc
        rcases Memory.mem_write hc with rfl | hc
        · simp only; omega
        · exact hk c hc

/-- Forgetting keeps the canonical form. -/
theorem Memory.wf_forget {m : Memory} (h : m.wf) (lost : Nat → Bool) : (m.forget lost).wf :=
  List.Pairwise.filter _ h

theorem Memory.mem_forget {m : Memory} {lost : Nat → Bool} {c : Host.Cell} (h : c ∈ m.forget lost) : c ∈ m :=
  List.mem_of_mem_filter h

/-- Forgetting leaves nothing written at the lost addresses and leaves every other address alone. -/
theorem Memory.read?_forget (m : Memory) (lost : Nat → Bool) (a : Nat) :
    (m.forget lost).read? a = if lost a then none else m.read? a := by
  induction m with
  | nil => simp [Memory.forget]
  | cons d rest ih =>
    obtain ⟨k, x⟩ := d
    have ih' : Memory.read? (List.filter (fun c => !lost c.1) rest) a =
        if lost a then none else Memory.read? rest a := ih
    simp only [Memory.forget, List.filter_cons]
    split <;> simp only [Memory.read?_cons, ih'] <;> grind

/-- An address below every listed one has nothing written. -/
theorem Memory.read?_eq_none_of_lt {m : Memory} {a : Nat} (h : ∀ c ∈ m, a < c.1) : m.read? a = none := by
  induction m with
  | nil => rfl
  | cons d rest ih =>
    obtain ⟨k, x⟩ := d
    have hk : a < k := h (k, x) (List.mem_cons_self ..)
    rw [Memory.read?_cons, if_neg (by omega)]
    exact ih fun c hc => h c (List.mem_cons_of_mem _ hc)

/-- In canonical form, memories that read alike are the same list. -/
theorem Memory.eq_of_reads {m n : Memory} (hm : m.wf) (hn : n.wf) (h : ∀ a, m.read? a = n.read? a) : m = n := by
  induction m generalizing n with
  | nil =>
    cases n with
    | nil => rfl
    | cons d rest =>
      obtain ⟨k, x⟩ := d
      simpa [Memory.read?_cons] using h k
  | cons c m ih =>
    obtain ⟨k, x⟩ := c
    obtain ⟨hk, hm'⟩ := List.pairwise_cons.1 hm
    cases n with
    | nil => simpa [Memory.read?_cons] using h k
    | cons d n =>
      obtain ⟨l, y⟩ := d
      obtain ⟨hl, hn'⟩ := List.pairwise_cons.1 hn
      have hkl : k = l := by
        rcases lt_trichotomy k l with hlt | heq | hgt
        · have : Memory.read? n k = none :=
            Memory.read?_eq_none_of_lt fun c hc => lt_trans hlt (hl c hc)
          have h' := h k
          rw [Memory.read?_cons, Memory.read?_cons, if_pos rfl, if_neg (by omega), this] at h'
          simp at h'
        · exact heq
        · have : Memory.read? m l = none :=
            Memory.read?_eq_none_of_lt fun c hc => lt_trans hgt (hk c hc)
          have h' := h l
          rw [Memory.read?_cons, Memory.read?_cons, if_neg (by omega), if_pos rfl, this] at h'
          simp at h'
      subst hkl
      have hx : x = y := by simpa [Memory.read?_cons] using h k
      subst hx
      congr 1
      refine ih hm' hn' fun a => ?_
      have h' := h a
      rw [Memory.read?_cons, Memory.read?_cons] at h'
      by_cases hka : k = a
      · subst hka
        rw [Memory.read?_eq_none_of_lt hk, Memory.read?_eq_none_of_lt hl]
      · simpa [hka] using h'

end Sys2Proof.Machine
end

