-- ==== Sys2Proof/Laws/State.lean ====
section
/-! SUPPORT. One lemma for each field of State under each named update. -/

namespace Sys2Proof.Machine

open Sys2Proof

/-! ### withMem -/

@[simp] theorem State.withMem_ie (s : State) (m : Memory) :
    (s.withMem m).ie = s.ie := rfl
@[simp] theorem State.withMem_done (s : State) (m : Memory) :
    (s.withMem m).done = s.done := rfl
@[simp] theorem State.withMem_cmdlost (s : State) (m : Memory) :
    (s.withMem m).cmdlost = s.cmdlost := rfl
@[simp] theorem State.withMem_errcode (s : State) (m : Memory) :
    (s.withMem m).errcode = s.errcode := rfl
@[simp] theorem State.withMem_lastcmd (s : State) (m : Memory) :
    (s.withMem m).lastcmd = s.lastcmd := rfl
@[simp] theorem State.withMem_screen (s : State) (m : Memory) :
    (s.withMem m).screen = s.screen := rfl
@[simp] theorem State.withMem_fpos (s : State) (m : Memory) :
    (s.withMem m).fpos = s.fpos := rfl
@[simp] theorem State.withMem_fdim (s : State) (m : Memory) :
    (s.withMem m).fdim = s.fdim := rfl
@[simp] theorem State.withMem_fcfg (s : State) (m : Memory) :
    (s.withMem m).fcfg = s.fcfg := rfl
@[simp] theorem State.withMem_cbuflen (s : State) (m : Memory) :
    (s.withMem m).cbuflen = s.cbuflen := rfl
@[simp] theorem State.withMem_pixcount (s : State) (m : Memory) :
    (s.withMem m).pixcount = s.pixcount := rfl
@[simp] theorem State.withMem_errval (s : State) (m : Memory) :
    (s.withMem m).errval = s.errval := rfl
@[simp] theorem State.withMem_pos (s : State) (m : Memory) :
    (s.withMem m).pos = s.pos := rfl
@[simp] theorem State.withMem_mem (s : State) (m : Memory) :
    (s.withMem m).mem = m := rfl
@[simp] theorem State.withMem_engine (s : State) (m : Memory) :
    (s.withMem m).engine = s.engine := rfl
@[simp] theorem State.withMem_params (s : State) (m : Memory) :
    (s.withMem m).params = s.params := rfl
@[simp] theorem State.withMem_agenda (s : State) (m : Memory) :
    (s.withMem m).agenda = s.agenda := rfl
@[simp] theorem State.withMem_busResp (s : State) (m : Memory) :
    (s.withMem m).busResp = s.busResp := rfl
@[simp] theorem State.withMem_losses (s : State) (m : Memory) :
    (s.withMem m).losses = s.losses := rfl
@[simp] theorem State.withMem_freeCount (s : State) (m : Memory) :
    (s.withMem m).freeCount = s.freeCount := rfl

/-! ### storeByte -/

@[simp] theorem State.storeByte_ie (s : State) (a : Nat) (v : Byte) :
    (s.storeByte a v).ie = s.ie := rfl
@[simp] theorem State.storeByte_done (s : State) (a : Nat) (v : Byte) :
    (s.storeByte a v).done = s.done := rfl
@[simp] theorem State.storeByte_cmdlost (s : State) (a : Nat) (v : Byte) :
    (s.storeByte a v).cmdlost = s.cmdlost := rfl
@[simp] theorem State.storeByte_errcode (s : State) (a : Nat) (v : Byte) :
    (s.storeByte a v).errcode = s.errcode := rfl
@[simp] theorem State.storeByte_lastcmd (s : State) (a : Nat) (v : Byte) :
    (s.storeByte a v).lastcmd = s.lastcmd := rfl
@[simp] theorem State.storeByte_screen (s : State) (a : Nat) (v : Byte) :
    (s.storeByte a v).screen = s.screen := rfl
@[simp] theorem State.storeByte_fpos (s : State) (a : Nat) (v : Byte) :
    (s.storeByte a v).fpos = s.fpos := rfl
@[simp] theorem State.storeByte_fdim (s : State) (a : Nat) (v : Byte) :
    (s.storeByte a v).fdim = s.fdim := rfl
@[simp] theorem State.storeByte_fcfg (s : State) (a : Nat) (v : Byte) :
    (s.storeByte a v).fcfg = s.fcfg := rfl
@[simp] theorem State.storeByte_cbuflen (s : State) (a : Nat) (v : Byte) :
    (s.storeByte a v).cbuflen = s.cbuflen := rfl
@[simp] theorem State.storeByte_pixcount (s : State) (a : Nat) (v : Byte) :
    (s.storeByte a v).pixcount = s.pixcount := rfl
@[simp] theorem State.storeByte_errval (s : State) (a : Nat) (v : Byte) :
    (s.storeByte a v).errval = s.errval := rfl
@[simp] theorem State.storeByte_pos (s : State) (a : Nat) (v : Byte) :
    (s.storeByte a v).pos = s.pos := rfl
@[simp] theorem State.storeByte_mem (s : State) (a : Nat) (v : Byte) :
    (s.storeByte a v).mem = s.mem.write a v := rfl
@[simp] theorem State.storeByte_engine (s : State) (a : Nat) (v : Byte) :
    (s.storeByte a v).engine = s.engine := rfl
@[simp] theorem State.storeByte_params (s : State) (a : Nat) (v : Byte) :
    (s.storeByte a v).params = s.params := rfl
@[simp] theorem State.storeByte_agenda (s : State) (a : Nat) (v : Byte) :
    (s.storeByte a v).agenda = s.agenda := rfl
@[simp] theorem State.storeByte_busResp (s : State) (a : Nat) (v : Byte) :
    (s.storeByte a v).busResp = s.busResp := rfl
@[simp] theorem State.storeByte_losses (s : State) (a : Nat) (v : Byte) :
    (s.storeByte a v).losses = s.losses := rfl
@[simp] theorem State.storeByte_freeCount (s : State) (a : Nat) (v : Byte) :
    (s.storeByte a v).freeCount = s.freeCount := rfl

/-! ### setIbuf -/

@[simp] theorem State.setIbuf_ie (s : State) (o : Nat) (v : Byte) :
    (s.setIbuf o v).ie = s.ie := rfl
@[simp] theorem State.setIbuf_done (s : State) (o : Nat) (v : Byte) :
    (s.setIbuf o v).done = s.done := rfl
@[simp] theorem State.setIbuf_cmdlost (s : State) (o : Nat) (v : Byte) :
    (s.setIbuf o v).cmdlost = s.cmdlost := rfl
@[simp] theorem State.setIbuf_errcode (s : State) (o : Nat) (v : Byte) :
    (s.setIbuf o v).errcode = s.errcode := rfl
@[simp] theorem State.setIbuf_lastcmd (s : State) (o : Nat) (v : Byte) :
    (s.setIbuf o v).lastcmd = s.lastcmd := rfl
@[simp] theorem State.setIbuf_screen (s : State) (o : Nat) (v : Byte) :
    (s.setIbuf o v).screen = s.screen := rfl
@[simp] theorem State.setIbuf_fpos (s : State) (o : Nat) (v : Byte) :
    (s.setIbuf o v).fpos = s.fpos := rfl
@[simp] theorem State.setIbuf_fdim (s : State) (o : Nat) (v : Byte) :
    (s.setIbuf o v).fdim = s.fdim := rfl
@[simp] theorem State.setIbuf_fcfg (s : State) (o : Nat) (v : Byte) :
    (s.setIbuf o v).fcfg = s.fcfg := rfl
@[simp] theorem State.setIbuf_cbuflen (s : State) (o : Nat) (v : Byte) :
    (s.setIbuf o v).cbuflen = s.cbuflen := rfl
@[simp] theorem State.setIbuf_pixcount (s : State) (o : Nat) (v : Byte) :
    (s.setIbuf o v).pixcount = s.pixcount := rfl
@[simp] theorem State.setIbuf_errval (s : State) (o : Nat) (v : Byte) :
    (s.setIbuf o v).errval = s.errval := rfl
@[simp] theorem State.setIbuf_pos (s : State) (o : Nat) (v : Byte) :
    (s.setIbuf o v).pos = s.pos := rfl
@[simp] theorem State.setIbuf_mem (s : State) (o : Nat) (v : Byte) :
    (s.setIbuf o v).mem = s.mem.write (ibufBase + o) v := rfl
@[simp] theorem State.setIbuf_engine (s : State) (o : Nat) (v : Byte) :
    (s.setIbuf o v).engine = s.engine := rfl
@[simp] theorem State.setIbuf_params (s : State) (o : Nat) (v : Byte) :
    (s.setIbuf o v).params = s.params := rfl
@[simp] theorem State.setIbuf_agenda (s : State) (o : Nat) (v : Byte) :
    (s.setIbuf o v).agenda = s.agenda := rfl
@[simp] theorem State.setIbuf_busResp (s : State) (o : Nat) (v : Byte) :
    (s.setIbuf o v).busResp = s.busResp := rfl
@[simp] theorem State.setIbuf_losses (s : State) (o : Nat) (v : Byte) :
    (s.setIbuf o v).losses = s.losses := rfl
@[simp] theorem State.setIbuf_freeCount (s : State) (o : Nat) (v : Byte) :
    (s.setIbuf o v).freeCount = s.freeCount := rfl

/-! ### setEngine -/

@[simp] theorem State.setEngine_ie (s : State) (e : Engine) :
    (s.setEngine e).ie = s.ie := rfl
@[simp] theorem State.setEngine_done (s : State) (e : Engine) :
    (s.setEngine e).done = s.done := rfl
@[simp] theorem State.setEngine_cmdlost (s : State) (e : Engine) :
    (s.setEngine e).cmdlost = s.cmdlost := rfl
@[simp] theorem State.setEngine_errcode (s : State) (e : Engine) :
    (s.setEngine e).errcode = s.errcode := rfl
@[simp] theorem State.setEngine_lastcmd (s : State) (e : Engine) :
    (s.setEngine e).lastcmd = s.lastcmd := rfl
@[simp] theorem State.setEngine_screen (s : State) (e : Engine) :
    (s.setEngine e).screen = s.screen := rfl
@[simp] theorem State.setEngine_fpos (s : State) (e : Engine) :
    (s.setEngine e).fpos = s.fpos := rfl
@[simp] theorem State.setEngine_fdim (s : State) (e : Engine) :
    (s.setEngine e).fdim = s.fdim := rfl
@[simp] theorem State.setEngine_fcfg (s : State) (e : Engine) :
    (s.setEngine e).fcfg = s.fcfg := rfl
@[simp] theorem State.setEngine_cbuflen (s : State) (e : Engine) :
    (s.setEngine e).cbuflen = s.cbuflen := rfl
@[simp] theorem State.setEngine_pixcount (s : State) (e : Engine) :
    (s.setEngine e).pixcount = s.pixcount := rfl
@[simp] theorem State.setEngine_errval (s : State) (e : Engine) :
    (s.setEngine e).errval = s.errval := rfl
@[simp] theorem State.setEngine_pos (s : State) (e : Engine) :
    (s.setEngine e).pos = s.pos := rfl
@[simp] theorem State.setEngine_mem (s : State) (e : Engine) :
    (s.setEngine e).mem = s.mem := rfl
@[simp] theorem State.setEngine_engine (s : State) (e : Engine) :
    (s.setEngine e).engine = e := rfl
@[simp] theorem State.setEngine_params (s : State) (e : Engine) :
    (s.setEngine e).params = s.params := rfl
@[simp] theorem State.setEngine_agenda (s : State) (e : Engine) :
    (s.setEngine e).agenda = s.agenda := rfl
@[simp] theorem State.setEngine_busResp (s : State) (e : Engine) :
    (s.setEngine e).busResp = s.busResp := rfl
@[simp] theorem State.setEngine_losses (s : State) (e : Engine) :
    (s.setEngine e).losses = s.losses := rfl
@[simp] theorem State.setEngine_freeCount (s : State) (e : Engine) :
    (s.setEngine e).freeCount = s.freeCount := rfl

/-! ### respond -/

@[simp] theorem State.respond_ie (s : State) (b : BusResp) :
    (s.respond b).ie = s.ie := rfl
@[simp] theorem State.respond_done (s : State) (b : BusResp) :
    (s.respond b).done = s.done := rfl
@[simp] theorem State.respond_cmdlost (s : State) (b : BusResp) :
    (s.respond b).cmdlost = s.cmdlost := rfl
@[simp] theorem State.respond_errcode (s : State) (b : BusResp) :
    (s.respond b).errcode = s.errcode := rfl
@[simp] theorem State.respond_lastcmd (s : State) (b : BusResp) :
    (s.respond b).lastcmd = s.lastcmd := rfl
@[simp] theorem State.respond_screen (s : State) (b : BusResp) :
    (s.respond b).screen = s.screen := rfl
@[simp] theorem State.respond_fpos (s : State) (b : BusResp) :
    (s.respond b).fpos = s.fpos := rfl
@[simp] theorem State.respond_fdim (s : State) (b : BusResp) :
    (s.respond b).fdim = s.fdim := rfl
@[simp] theorem State.respond_fcfg (s : State) (b : BusResp) :
    (s.respond b).fcfg = s.fcfg := rfl
@[simp] theorem State.respond_cbuflen (s : State) (b : BusResp) :
    (s.respond b).cbuflen = s.cbuflen := rfl
@[simp] theorem State.respond_pixcount (s : State) (b : BusResp) :
    (s.respond b).pixcount = s.pixcount := rfl
@[simp] theorem State.respond_errval (s : State) (b : BusResp) :
    (s.respond b).errval = s.errval := rfl
@[simp] theorem State.respond_pos (s : State) (b : BusResp) :
    (s.respond b).pos = s.pos := rfl
@[simp] theorem State.respond_mem (s : State) (b : BusResp) :
    (s.respond b).mem = s.mem := rfl
@[simp] theorem State.respond_engine (s : State) (b : BusResp) :
    (s.respond b).engine = s.engine := rfl
@[simp] theorem State.respond_params (s : State) (b : BusResp) :
    (s.respond b).params = s.params := rfl
@[simp] theorem State.respond_agenda (s : State) (b : BusResp) :
    (s.respond b).agenda = s.agenda := rfl
@[simp] theorem State.respond_busResp (s : State) (b : BusResp) :
    (s.respond b).busResp = b := rfl
@[simp] theorem State.respond_losses (s : State) (b : BusResp) :
    (s.respond b).losses = s.losses := rfl
@[simp] theorem State.respond_freeCount (s : State) (b : BusResp) :
    (s.respond b).freeCount = s.freeCount := rfl

/-! ### withAgenda -/

@[simp] theorem State.withAgenda_ie (s : State) (l : List Turn) :
    (s.withAgenda l).ie = s.ie := rfl
@[simp] theorem State.withAgenda_done (s : State) (l : List Turn) :
    (s.withAgenda l).done = s.done := rfl
@[simp] theorem State.withAgenda_cmdlost (s : State) (l : List Turn) :
    (s.withAgenda l).cmdlost = s.cmdlost := rfl
@[simp] theorem State.withAgenda_errcode (s : State) (l : List Turn) :
    (s.withAgenda l).errcode = s.errcode := rfl
@[simp] theorem State.withAgenda_lastcmd (s : State) (l : List Turn) :
    (s.withAgenda l).lastcmd = s.lastcmd := rfl
@[simp] theorem State.withAgenda_screen (s : State) (l : List Turn) :
    (s.withAgenda l).screen = s.screen := rfl
@[simp] theorem State.withAgenda_fpos (s : State) (l : List Turn) :
    (s.withAgenda l).fpos = s.fpos := rfl
@[simp] theorem State.withAgenda_fdim (s : State) (l : List Turn) :
    (s.withAgenda l).fdim = s.fdim := rfl
@[simp] theorem State.withAgenda_fcfg (s : State) (l : List Turn) :
    (s.withAgenda l).fcfg = s.fcfg := rfl
@[simp] theorem State.withAgenda_cbuflen (s : State) (l : List Turn) :
    (s.withAgenda l).cbuflen = s.cbuflen := rfl
@[simp] theorem State.withAgenda_pixcount (s : State) (l : List Turn) :
    (s.withAgenda l).pixcount = s.pixcount := rfl
@[simp] theorem State.withAgenda_errval (s : State) (l : List Turn) :
    (s.withAgenda l).errval = s.errval := rfl
@[simp] theorem State.withAgenda_pos (s : State) (l : List Turn) :
    (s.withAgenda l).pos = s.pos := rfl
@[simp] theorem State.withAgenda_mem (s : State) (l : List Turn) :
    (s.withAgenda l).mem = s.mem := rfl
@[simp] theorem State.withAgenda_engine (s : State) (l : List Turn) :
    (s.withAgenda l).engine = s.engine := rfl
@[simp] theorem State.withAgenda_params (s : State) (l : List Turn) :
    (s.withAgenda l).params = s.params := rfl
@[simp] theorem State.withAgenda_agenda (s : State) (l : List Turn) :
    (s.withAgenda l).agenda = l := rfl
@[simp] theorem State.withAgenda_busResp (s : State) (l : List Turn) :
    (s.withAgenda l).busResp = s.busResp := rfl
@[simp] theorem State.withAgenda_losses (s : State) (l : List Turn) :
    (s.withAgenda l).losses = s.losses := rfl
@[simp] theorem State.withAgenda_freeCount (s : State) (l : List Turn) :
    (s.withAgenda l).freeCount = s.freeCount := rfl

/-! ### loadIe -/

@[simp] theorem State.loadIe_ie (s : State) (ie : Bool) :
    (s.loadIe ie).ie = ie := rfl
@[simp] theorem State.loadIe_done (s : State) (ie : Bool) :
    (s.loadIe ie).done = s.done := rfl
@[simp] theorem State.loadIe_cmdlost (s : State) (ie : Bool) :
    (s.loadIe ie).cmdlost = s.cmdlost := rfl
@[simp] theorem State.loadIe_errcode (s : State) (ie : Bool) :
    (s.loadIe ie).errcode = s.errcode := rfl
@[simp] theorem State.loadIe_lastcmd (s : State) (ie : Bool) :
    (s.loadIe ie).lastcmd = s.lastcmd := rfl
@[simp] theorem State.loadIe_screen (s : State) (ie : Bool) :
    (s.loadIe ie).screen = s.screen := rfl
@[simp] theorem State.loadIe_fpos (s : State) (ie : Bool) :
    (s.loadIe ie).fpos = s.fpos := rfl
@[simp] theorem State.loadIe_fdim (s : State) (ie : Bool) :
    (s.loadIe ie).fdim = s.fdim := rfl
@[simp] theorem State.loadIe_fcfg (s : State) (ie : Bool) :
    (s.loadIe ie).fcfg = s.fcfg := rfl
@[simp] theorem State.loadIe_cbuflen (s : State) (ie : Bool) :
    (s.loadIe ie).cbuflen = s.cbuflen := rfl
@[simp] theorem State.loadIe_pixcount (s : State) (ie : Bool) :
    (s.loadIe ie).pixcount = s.pixcount := rfl
@[simp] theorem State.loadIe_errval (s : State) (ie : Bool) :
    (s.loadIe ie).errval = s.errval := rfl
@[simp] theorem State.loadIe_pos (s : State) (ie : Bool) :
    (s.loadIe ie).pos = s.pos := rfl
@[simp] theorem State.loadIe_mem (s : State) (ie : Bool) :
    (s.loadIe ie).mem = s.mem := rfl
@[simp] theorem State.loadIe_engine (s : State) (ie : Bool) :
    (s.loadIe ie).engine = s.engine := rfl
@[simp] theorem State.loadIe_params (s : State) (ie : Bool) :
    (s.loadIe ie).params = s.params := rfl
@[simp] theorem State.loadIe_agenda (s : State) (ie : Bool) :
    (s.loadIe ie).agenda = s.agenda := rfl
@[simp] theorem State.loadIe_busResp (s : State) (ie : Bool) :
    (s.loadIe ie).busResp = s.busResp := rfl
@[simp] theorem State.loadIe_losses (s : State) (ie : Bool) :
    (s.loadIe ie).losses = s.losses := rfl
@[simp] theorem State.loadIe_freeCount (s : State) (ie : Bool) :
    (s.loadIe ie).freeCount = s.freeCount := rfl

/-! ### dropRequest -/

@[simp] theorem State.dropRequest_ie (s : State) :
    (s.dropRequest).ie = s.ie := rfl
@[simp] theorem State.dropRequest_done (s : State) :
    (s.dropRequest).done = s.done := rfl
@[simp] theorem State.dropRequest_cmdlost (s : State) :
    (s.dropRequest).cmdlost = true := rfl
@[simp] theorem State.dropRequest_errcode (s : State) :
    (s.dropRequest).errcode = s.errcode := rfl
@[simp] theorem State.dropRequest_lastcmd (s : State) :
    (s.dropRequest).lastcmd = s.lastcmd := rfl
@[simp] theorem State.dropRequest_screen (s : State) :
    (s.dropRequest).screen = s.screen := rfl
@[simp] theorem State.dropRequest_fpos (s : State) :
    (s.dropRequest).fpos = s.fpos := rfl
@[simp] theorem State.dropRequest_fdim (s : State) :
    (s.dropRequest).fdim = s.fdim := rfl
@[simp] theorem State.dropRequest_fcfg (s : State) :
    (s.dropRequest).fcfg = s.fcfg := rfl
@[simp] theorem State.dropRequest_cbuflen (s : State) :
    (s.dropRequest).cbuflen = s.cbuflen := rfl
@[simp] theorem State.dropRequest_pixcount (s : State) :
    (s.dropRequest).pixcount = s.pixcount := rfl
@[simp] theorem State.dropRequest_errval (s : State) :
    (s.dropRequest).errval = s.errval := rfl
@[simp] theorem State.dropRequest_pos (s : State) :
    (s.dropRequest).pos = s.pos := rfl
@[simp] theorem State.dropRequest_mem (s : State) :
    (s.dropRequest).mem = s.mem := rfl
@[simp] theorem State.dropRequest_engine (s : State) :
    (s.dropRequest).engine = s.engine := rfl
@[simp] theorem State.dropRequest_params (s : State) :
    (s.dropRequest).params = s.params := rfl
@[simp] theorem State.dropRequest_agenda (s : State) :
    (s.dropRequest).agenda = s.agenda := rfl
@[simp] theorem State.dropRequest_busResp (s : State) :
    (s.dropRequest).busResp = s.busResp := rfl
@[simp] theorem State.dropRequest_losses (s : State) :
    (s.dropRequest).losses = s.losses := rfl
@[simp] theorem State.dropRequest_freeCount (s : State) :
    (s.dropRequest).freeCount = s.freeCount := rfl

/-! ### accept -/

@[simp] theorem State.accept_ie (s : State) (c : BitVec 4) :
    (s.accept c).ie = s.ie := rfl
@[simp] theorem State.accept_done (s : State) (c : BitVec 4) :
    (s.accept c).done = false := rfl
@[simp] theorem State.accept_cmdlost (s : State) (c : BitVec 4) :
    (s.accept c).cmdlost = s.cmdlost := rfl
@[simp] theorem State.accept_errcode (s : State) (c : BitVec 4) :
    (s.accept c).errcode = .none := rfl
@[simp] theorem State.accept_lastcmd (s : State) (c : BitVec 4) :
    (s.accept c).lastcmd = c := rfl
@[simp] theorem State.accept_screen (s : State) (c : BitVec 4) :
    (s.accept c).screen = s.screen := rfl
@[simp] theorem State.accept_fpos (s : State) (c : BitVec 4) :
    (s.accept c).fpos = s.fpos := rfl
@[simp] theorem State.accept_fdim (s : State) (c : BitVec 4) :
    (s.accept c).fdim = s.fdim := rfl
@[simp] theorem State.accept_fcfg (s : State) (c : BitVec 4) :
    (s.accept c).fcfg = s.fcfg := rfl
@[simp] theorem State.accept_cbuflen (s : State) (c : BitVec 4) :
    (s.accept c).cbuflen = s.cbuflen := rfl
@[simp] theorem State.accept_pixcount (s : State) (c : BitVec 4) :
    (s.accept c).pixcount = s.pixcount := rfl
@[simp] theorem State.accept_errval (s : State) (c : BitVec 4) :
    (s.accept c).errval = s.errval := rfl
@[simp] theorem State.accept_pos (s : State) (c : BitVec 4) :
    (s.accept c).pos = s.pos := rfl
@[simp] theorem State.accept_mem (s : State) (c : BitVec 4) :
    (s.accept c).mem = s.mem := rfl
@[simp] theorem State.accept_engine (s : State) (c : BitVec 4) :
    (s.accept c).engine = s.engine := rfl
@[simp] theorem State.accept_params (s : State) (c : BitVec 4) :
    (s.accept c).params = s.params := rfl
@[simp] theorem State.accept_agenda (s : State) (c : BitVec 4) :
    (s.accept c).agenda = s.agenda := rfl
@[simp] theorem State.accept_busResp (s : State) (c : BitVec 4) :
    (s.accept c).busResp = s.busResp := rfl
@[simp] theorem State.accept_losses (s : State) (c : BitVec 4) :
    (s.accept c).losses = s.losses := rfl
@[simp] theorem State.accept_freeCount (s : State) (c : BitVec 4) :
    (s.accept c).freeCount = s.freeCount := rfl

/-! ### writeStatus -/

@[simp] theorem State.writeStatus_ie (s : State) (v : Word) :
    (s.writeStatus v).ie = s.ie := rfl
@[simp] theorem State.writeStatus_done (s : State) (v : Word) :
    (s.writeStatus v).done = (s.done && !v.getLsbD 1) := rfl
@[simp] theorem State.writeStatus_cmdlost (s : State) (v : Word) :
    (s.writeStatus v).cmdlost = (s.cmdlost && !v.getLsbD 2) := rfl
@[simp] theorem State.writeStatus_errcode (s : State) (v : Word) :
    (s.writeStatus v).errcode = s.errcode := rfl
@[simp] theorem State.writeStatus_lastcmd (s : State) (v : Word) :
    (s.writeStatus v).lastcmd = s.lastcmd := rfl
@[simp] theorem State.writeStatus_screen (s : State) (v : Word) :
    (s.writeStatus v).screen = s.screen := rfl
@[simp] theorem State.writeStatus_fpos (s : State) (v : Word) :
    (s.writeStatus v).fpos = s.fpos := rfl
@[simp] theorem State.writeStatus_fdim (s : State) (v : Word) :
    (s.writeStatus v).fdim = s.fdim := rfl
@[simp] theorem State.writeStatus_fcfg (s : State) (v : Word) :
    (s.writeStatus v).fcfg = s.fcfg := rfl
@[simp] theorem State.writeStatus_cbuflen (s : State) (v : Word) :
    (s.writeStatus v).cbuflen = s.cbuflen := rfl
@[simp] theorem State.writeStatus_pixcount (s : State) (v : Word) :
    (s.writeStatus v).pixcount = s.pixcount := rfl
@[simp] theorem State.writeStatus_errval (s : State) (v : Word) :
    (s.writeStatus v).errval = s.errval := rfl
@[simp] theorem State.writeStatus_pos (s : State) (v : Word) :
    (s.writeStatus v).pos = s.pos := rfl
@[simp] theorem State.writeStatus_mem (s : State) (v : Word) :
    (s.writeStatus v).mem = s.mem := rfl
@[simp] theorem State.writeStatus_engine (s : State) (v : Word) :
    (s.writeStatus v).engine = s.engine := rfl
@[simp] theorem State.writeStatus_params (s : State) (v : Word) :
    (s.writeStatus v).params = s.params := rfl
@[simp] theorem State.writeStatus_agenda (s : State) (v : Word) :
    (s.writeStatus v).agenda = s.agenda := rfl
@[simp] theorem State.writeStatus_busResp (s : State) (v : Word) :
    (s.writeStatus v).busResp = s.busResp := rfl
@[simp] theorem State.writeStatus_losses (s : State) (v : Word) :
    (s.writeStatus v).losses = s.losses := rfl
@[simp] theorem State.writeStatus_freeCount (s : State) (v : Word) :
    (s.writeStatus v).freeCount = s.freeCount := rfl

/-! ### complete -/

@[simp] theorem State.complete_ie (s : State) (r : CmdRec) (e : Err) (res : DecResult) :
    (s.complete r e res).ie = s.ie := rfl
@[simp] theorem State.complete_done (s : State) (r : CmdRec) (e : Err) (res : DecResult) :
    (s.complete r e res).done = true := rfl
@[simp] theorem State.complete_cmdlost (s : State) (r : CmdRec) (e : Err) (res : DecResult) :
    (s.complete r e res).cmdlost = s.cmdlost := rfl
@[simp] theorem State.complete_errcode (s : State) (r : CmdRec) (e : Err) (res : DecResult) :
    (s.complete r e res).errcode = e := rfl
@[simp] theorem State.complete_lastcmd (s : State) (r : CmdRec) (e : Err) (res : DecResult) :
    (s.complete r e res).lastcmd = s.lastcmd := rfl
@[simp] theorem State.complete_screen (s : State) (r : CmdRec) (e : Err) (res : DecResult) :
    (s.complete r e res).screen = s.screen := rfl
@[simp] theorem State.complete_fpos (s : State) (r : CmdRec) (e : Err) (res : DecResult) :
    (s.complete r e res).fpos = s.fpos := rfl
@[simp] theorem State.complete_fdim (s : State) (r : CmdRec) (e : Err) (res : DecResult) :
    (s.complete r e res).fdim = s.fdim := rfl
@[simp] theorem State.complete_fcfg (s : State) (r : CmdRec) (e : Err) (res : DecResult) :
    (s.complete r e res).fcfg = s.fcfg := rfl
@[simp] theorem State.complete_cbuflen (s : State) (r : CmdRec) (e : Err) (res : DecResult) :
    (s.complete r e res).cbuflen = s.cbuflen := rfl
@[simp] theorem State.complete_pixcount (s : State) (r : CmdRec) (e : Err) (res : DecResult) :
    (s.complete r e res).pixcount = (if r.op.reports then BitVec.ofNat 32 res.count else s.pixcount) := rfl
@[simp] theorem State.complete_errval (s : State) (r : CmdRec) (e : Err) (res : DecResult) :
    (s.complete r e res).errval = (if r.op.reports then BitVec.ofNat 32 res.val else s.errval) := rfl
@[simp] theorem State.complete_pos (s : State) (r : CmdRec) (e : Err) (res : DecResult) :
    (s.complete r e res).pos = (if r.op.reports then BitVec.ofNat 32 res.pos else s.pos) := rfl
@[simp] theorem State.complete_mem (s : State) (r : CmdRec) (e : Err) (res : DecResult) :
    (s.complete r e res).mem = s.mem := rfl
@[simp] theorem State.complete_engine (s : State) (r : CmdRec) (e : Err) (res : DecResult) :
    (s.complete r e res).engine = .idle := rfl
@[simp] theorem State.complete_params (s : State) (r : CmdRec) (e : Err) (res : DecResult) :
    (s.complete r e res).params = s.params := rfl
@[simp] theorem State.complete_agenda (s : State) (r : CmdRec) (e : Err) (res : DecResult) :
    (s.complete r e res).agenda = s.agenda := rfl
@[simp] theorem State.complete_busResp (s : State) (r : CmdRec) (e : Err) (res : DecResult) :
    (s.complete r e res).busResp = s.busResp := rfl
@[simp] theorem State.complete_losses (s : State) (r : CmdRec) (e : Err) (res : DecResult) :
    (s.complete r e res).losses = s.losses := rfl
@[simp] theorem State.complete_freeCount (s : State) (r : CmdRec) (e : Err) (res : DecResult) :
    (s.complete r e res).freeCount = s.freeCount := rfl

/-! ### softReset -/

@[simp] theorem State.softReset_ie (s : State) :
    (s.softReset).ie = false := rfl
@[simp] theorem State.softReset_done (s : State) :
    (s.softReset).done = false := rfl
@[simp] theorem State.softReset_cmdlost (s : State) :
    (s.softReset).cmdlost = false := rfl
@[simp] theorem State.softReset_errcode (s : State) :
    (s.softReset).errcode = .none := rfl
@[simp] theorem State.softReset_lastcmd (s : State) :
    (s.softReset).lastcmd = 0 := rfl
@[simp] theorem State.softReset_screen (s : State) :
    (s.softReset).screen = 0 := rfl
@[simp] theorem State.softReset_fpos (s : State) :
    (s.softReset).fpos = 0 := rfl
@[simp] theorem State.softReset_fdim (s : State) :
    (s.softReset).fdim = 0 := rfl
@[simp] theorem State.softReset_fcfg (s : State) :
    (s.softReset).fcfg = 0 := rfl
@[simp] theorem State.softReset_cbuflen (s : State) :
    (s.softReset).cbuflen = 0 := rfl
@[simp] theorem State.softReset_pixcount (s : State) :
    (s.softReset).pixcount = 0 := rfl
@[simp] theorem State.softReset_errval (s : State) :
    (s.softReset).errval = 0 := rfl
@[simp] theorem State.softReset_pos (s : State) :
    (s.softReset).pos = 0 := rfl
@[simp] theorem State.softReset_mem (s : State) :
    (s.softReset).mem = s.abandon.mem := rfl
@[simp] theorem State.softReset_engine (s : State) :
    (s.softReset).engine = .idle := rfl
@[simp] theorem State.softReset_params (s : State) :
    (s.softReset).params = s.params := rfl
@[simp] theorem State.softReset_agenda (s : State) :
    (s.softReset).agenda = s.agenda := rfl
@[simp] theorem State.softReset_busResp (s : State) :
    (s.softReset).busResp = s.busResp := rfl
@[simp] theorem State.softReset_losses (s : State) :
    (s.softReset).losses = s.abandon.losses := rfl
@[simp] theorem State.softReset_freeCount (s : State) :
    (s.softReset).freeCount = s.freeCount := rfl

/-! ### hardReset -/

@[simp] theorem State.hardReset_ie (s : State) :
    (s.hardReset).ie = false := rfl
@[simp] theorem State.hardReset_done (s : State) :
    (s.hardReset).done = false := rfl
@[simp] theorem State.hardReset_cmdlost (s : State) :
    (s.hardReset).cmdlost = false := rfl
@[simp] theorem State.hardReset_errcode (s : State) :
    (s.hardReset).errcode = .none := rfl
@[simp] theorem State.hardReset_lastcmd (s : State) :
    (s.hardReset).lastcmd = 0 := rfl
@[simp] theorem State.hardReset_screen (s : State) :
    (s.hardReset).screen = 0 := rfl
@[simp] theorem State.hardReset_fpos (s : State) :
    (s.hardReset).fpos = 0 := rfl
@[simp] theorem State.hardReset_fdim (s : State) :
    (s.hardReset).fdim = 0 := rfl
@[simp] theorem State.hardReset_fcfg (s : State) :
    (s.hardReset).fcfg = 0 := rfl
@[simp] theorem State.hardReset_cbuflen (s : State) :
    (s.hardReset).cbuflen = 0 := rfl
@[simp] theorem State.hardReset_pixcount (s : State) :
    (s.hardReset).pixcount = 0 := rfl
@[simp] theorem State.hardReset_errval (s : State) :
    (s.hardReset).errval = 0 := rfl
@[simp] theorem State.hardReset_pos (s : State) :
    (s.hardReset).pos = 0 := rfl
@[simp] theorem State.hardReset_mem (s : State) :
    (s.hardReset).mem = [] := rfl
@[simp] theorem State.hardReset_engine (s : State) :
    (s.hardReset).engine = .idle := rfl
@[simp] theorem State.hardReset_params (s : State) :
    (s.hardReset).params = s.params := rfl
@[simp] theorem State.hardReset_agenda (s : State) :
    (s.hardReset).agenda = s.agenda := rfl
@[simp] theorem State.hardReset_busResp (s : State) :
    (s.hardReset).busResp = .none := rfl
@[simp] theorem State.hardReset_losses (s : State) :
    (s.hardReset).losses = .hardReset :: s.losses := rfl
@[simp] theorem State.hardReset_freeCount (s : State) :
    (s.hardReset).freeCount = s.freeCount := rfl

/-! ### storeHalf: memory alone changes -/

@[simp] theorem State.storeHalf_ie (s : State) (a : Nat) (v : Half) :
    (s.storeHalf a v).ie = s.ie := rfl
@[simp] theorem State.storeHalf_done (s : State) (a : Nat) (v : Half) :
    (s.storeHalf a v).done = s.done := rfl
@[simp] theorem State.storeHalf_cmdlost (s : State) (a : Nat) (v : Half) :
    (s.storeHalf a v).cmdlost = s.cmdlost := rfl
@[simp] theorem State.storeHalf_errcode (s : State) (a : Nat) (v : Half) :
    (s.storeHalf a v).errcode = s.errcode := rfl
@[simp] theorem State.storeHalf_lastcmd (s : State) (a : Nat) (v : Half) :
    (s.storeHalf a v).lastcmd = s.lastcmd := rfl
@[simp] theorem State.storeHalf_screen (s : State) (a : Nat) (v : Half) :
    (s.storeHalf a v).screen = s.screen := rfl
@[simp] theorem State.storeHalf_fpos (s : State) (a : Nat) (v : Half) :
    (s.storeHalf a v).fpos = s.fpos := rfl
@[simp] theorem State.storeHalf_fdim (s : State) (a : Nat) (v : Half) :
    (s.storeHalf a v).fdim = s.fdim := rfl
@[simp] theorem State.storeHalf_fcfg (s : State) (a : Nat) (v : Half) :
    (s.storeHalf a v).fcfg = s.fcfg := rfl
@[simp] theorem State.storeHalf_cbuflen (s : State) (a : Nat) (v : Half) :
    (s.storeHalf a v).cbuflen = s.cbuflen := rfl
@[simp] theorem State.storeHalf_pixcount (s : State) (a : Nat) (v : Half) :
    (s.storeHalf a v).pixcount = s.pixcount := rfl
@[simp] theorem State.storeHalf_errval (s : State) (a : Nat) (v : Half) :
    (s.storeHalf a v).errval = s.errval := rfl
@[simp] theorem State.storeHalf_pos (s : State) (a : Nat) (v : Half) :
    (s.storeHalf a v).pos = s.pos := rfl
@[simp] theorem State.storeHalf_engine (s : State) (a : Nat) (v : Half) :
    (s.storeHalf a v).engine = s.engine := rfl
@[simp] theorem State.storeHalf_params (s : State) (a : Nat) (v : Half) :
    (s.storeHalf a v).params = s.params := rfl
@[simp] theorem State.storeHalf_agenda (s : State) (a : Nat) (v : Half) :
    (s.storeHalf a v).agenda = s.agenda := rfl
@[simp] theorem State.storeHalf_busResp (s : State) (a : Nat) (v : Half) :
    (s.storeHalf a v).busResp = s.busResp := rfl
@[simp] theorem State.storeHalf_losses (s : State) (a : Nat) (v : Half) :
    (s.storeHalf a v).losses = s.losses := rfl
@[simp] theorem State.storeHalf_freeCount (s : State) (a : Nat) (v : Half) :
    (s.storeHalf a v).freeCount = s.freeCount := rfl

/-! ### storeWord: memory alone changes -/

@[simp] theorem State.storeWord_ie (s : State) (a : Nat) (v : Word) :
    (s.storeWord a v).ie = s.ie := rfl
@[simp] theorem State.storeWord_done (s : State) (a : Nat) (v : Word) :
    (s.storeWord a v).done = s.done := rfl
@[simp] theorem State.storeWord_cmdlost (s : State) (a : Nat) (v : Word) :
    (s.storeWord a v).cmdlost = s.cmdlost := rfl
@[simp] theorem State.storeWord_errcode (s : State) (a : Nat) (v : Word) :
    (s.storeWord a v).errcode = s.errcode := rfl
@[simp] theorem State.storeWord_lastcmd (s : State) (a : Nat) (v : Word) :
    (s.storeWord a v).lastcmd = s.lastcmd := rfl
@[simp] theorem State.storeWord_screen (s : State) (a : Nat) (v : Word) :
    (s.storeWord a v).screen = s.screen := rfl
@[simp] theorem State.storeWord_fpos (s : State) (a : Nat) (v : Word) :
    (s.storeWord a v).fpos = s.fpos := rfl
@[simp] theorem State.storeWord_fdim (s : State) (a : Nat) (v : Word) :
    (s.storeWord a v).fdim = s.fdim := rfl
@[simp] theorem State.storeWord_fcfg (s : State) (a : Nat) (v : Word) :
    (s.storeWord a v).fcfg = s.fcfg := rfl
@[simp] theorem State.storeWord_cbuflen (s : State) (a : Nat) (v : Word) :
    (s.storeWord a v).cbuflen = s.cbuflen := rfl
@[simp] theorem State.storeWord_pixcount (s : State) (a : Nat) (v : Word) :
    (s.storeWord a v).pixcount = s.pixcount := rfl
@[simp] theorem State.storeWord_errval (s : State) (a : Nat) (v : Word) :
    (s.storeWord a v).errval = s.errval := rfl
@[simp] theorem State.storeWord_pos (s : State) (a : Nat) (v : Word) :
    (s.storeWord a v).pos = s.pos := rfl
@[simp] theorem State.storeWord_engine (s : State) (a : Nat) (v : Word) :
    (s.storeWord a v).engine = s.engine := rfl
@[simp] theorem State.storeWord_params (s : State) (a : Nat) (v : Word) :
    (s.storeWord a v).params = s.params := rfl
@[simp] theorem State.storeWord_agenda (s : State) (a : Nat) (v : Word) :
    (s.storeWord a v).agenda = s.agenda := rfl
@[simp] theorem State.storeWord_busResp (s : State) (a : Nat) (v : Word) :
    (s.storeWord a v).busResp = s.busResp := rfl
@[simp] theorem State.storeWord_losses (s : State) (a : Nat) (v : Word) :
    (s.storeWord a v).losses = s.losses := rfl
@[simp] theorem State.storeWord_freeCount (s : State) (a : Nat) (v : Word) :
    (s.storeWord a v).freeCount = s.freeCount := rfl

/-! ### setFb: memory alone changes -/

@[simp] theorem State.setFb_ie (s : State) (k : Nat) (v : Word) :
    (s.setFb k v).ie = s.ie := rfl
@[simp] theorem State.setFb_done (s : State) (k : Nat) (v : Word) :
    (s.setFb k v).done = s.done := rfl
@[simp] theorem State.setFb_cmdlost (s : State) (k : Nat) (v : Word) :
    (s.setFb k v).cmdlost = s.cmdlost := rfl
@[simp] theorem State.setFb_errcode (s : State) (k : Nat) (v : Word) :
    (s.setFb k v).errcode = s.errcode := rfl
@[simp] theorem State.setFb_lastcmd (s : State) (k : Nat) (v : Word) :
    (s.setFb k v).lastcmd = s.lastcmd := rfl
@[simp] theorem State.setFb_screen (s : State) (k : Nat) (v : Word) :
    (s.setFb k v).screen = s.screen := rfl
@[simp] theorem State.setFb_fpos (s : State) (k : Nat) (v : Word) :
    (s.setFb k v).fpos = s.fpos := rfl
@[simp] theorem State.setFb_fdim (s : State) (k : Nat) (v : Word) :
    (s.setFb k v).fdim = s.fdim := rfl
@[simp] theorem State.setFb_fcfg (s : State) (k : Nat) (v : Word) :
    (s.setFb k v).fcfg = s.fcfg := rfl
@[simp] theorem State.setFb_cbuflen (s : State) (k : Nat) (v : Word) :
    (s.setFb k v).cbuflen = s.cbuflen := rfl
@[simp] theorem State.setFb_pixcount (s : State) (k : Nat) (v : Word) :
    (s.setFb k v).pixcount = s.pixcount := rfl
@[simp] theorem State.setFb_errval (s : State) (k : Nat) (v : Word) :
    (s.setFb k v).errval = s.errval := rfl
@[simp] theorem State.setFb_pos (s : State) (k : Nat) (v : Word) :
    (s.setFb k v).pos = s.pos := rfl
@[simp] theorem State.setFb_engine (s : State) (k : Nat) (v : Word) :
    (s.setFb k v).engine = s.engine := rfl
@[simp] theorem State.setFb_params (s : State) (k : Nat) (v : Word) :
    (s.setFb k v).params = s.params := rfl
@[simp] theorem State.setFb_agenda (s : State) (k : Nat) (v : Word) :
    (s.setFb k v).agenda = s.agenda := rfl
@[simp] theorem State.setFb_busResp (s : State) (k : Nat) (v : Word) :
    (s.setFb k v).busResp = s.busResp := rfl
@[simp] theorem State.setFb_losses (s : State) (k : Nat) (v : Word) :
    (s.setFb k v).losses = s.losses := rfl
@[simp] theorem State.setFb_freeCount (s : State) (k : Nat) (v : Word) :
    (s.setFb k v).freeCount = s.freeCount := rfl

end Sys2Proof.Machine
end

