-- ==== Sys2Proof/Laws/Ops.lean ====
section
/-! SUPPORT. What each shared operation can do, said once: bytes and words, the resets, Emit, the dictionary, and the
decode phase. -/

namespace Sys2Proof.Machine

open Sys2Proof

/-! ### Bytes and words -/

/-- A byte depends on the written bytes and the losses alone. -/
theorem State.byteAt_congr {s t : State} (hm : t.mem = s.mem) (hl : t.losses = s.losses) (a : Nat) :
    t.byteAt a = s.byteAt a := by simp [State.byteAt, State.genAt, hm, hl]

@[simp] theorem State.byteAt_setEngine (s : State) (e : Engine) (a : Nat) :
    (s.setEngine e).byteAt a = s.byteAt a := rfl

@[simp] theorem State.byteAt_respond (s : State) (b : BusResp) (a : Nat) :
    (s.respond b).byteAt a = s.byteAt a := rfl

@[simp] theorem State.byteAt_withAgenda (s : State) (l : List Turn) (a : Nat) :
    (s.withAgenda l).byteAt a = s.byteAt a := rfl

@[simp] theorem State.byteAt_complete (s : State) (r : CmdRec) (e : Err) (res : DecResult) (a : Nat) :
    (s.complete r e res).byteAt a = s.byteAt a := rfl

/-- A stored byte is read back at its address and leaves every other address alone. -/
theorem State.byteAt_storeByte (s : State) (a : Nat) (v : Byte) (b : Nat) :
    (s.storeByte a v).byteAt b = if b = a then v else s.byteAt b := by
  simp only [State.byteAt, State.storeByte_mem, State.genAt, State.storeByte_losses, Memory.read?_write]
  split <;> simp

theorem State.byteAt_setIbuf (s : State) (o : Nat) (v : Byte) (b : Nat) :
    (s.setIbuf o v).byteAt b = if b = ibufBase + o then v else s.byteAt b :=
  s.byteAt_storeByte _ _ _

/-- A stored half word is read back bytewise, lowest byte first. -/
theorem State.byteAt_storeHalf (s : State) (a : Nat) (v : Half) (b : Nat) :
    (s.storeHalf a v).byteAt b =
      if b = a then v.extractLsb' 0 8 else if b = a + 1 then v.extractLsb' 8 8 else s.byteAt b := by
  simp only [State.storeHalf, State.byteAt_storeByte]
  grind

/-- A stored word is read back bytewise, lowest byte first. -/
theorem State.byteAt_storeWord (s : State) (a : Nat) (v : Word) (b : Nat) :
    (s.storeWord a v).byteAt b =
      if b = a then v.extractLsb' 0 8 else if b = a + 1 then v.extractLsb' 8 8
      else if b = a + 2 then v.extractLsb' 16 8 else if b = a + 3 then v.extractLsb' 24 8 else s.byteAt b := by
  simp only [State.storeWord, State.byteAt_storeByte]
  grind

theorem State.byteAt_storeWord_outside (s : State) (a : Nat) (v : Word) (b : Nat) (h : b < a ∨ a + 4 ≤ b) :
    (s.storeWord a v).byteAt b = s.byteAt b := by
  rw [State.byteAt_storeWord]; grind

/-- The four bytes of a word put it together again. -/
theorem word_of_bytes (v : Word) :
    v.extractLsb' 24 8 ++ v.extractLsb' 16 8 ++ v.extractLsb' 8 8 ++ v.extractLsb' 0 8 = v := by
  ext i hi
  simp only [BitVec.getElem_append, BitVec.getElem_extractLsb']
  split
  · simp [BitVec.getElem_eq_testBit_toNat, BitVec.getLsbD]
  · split
    · rw [← BitVec.getLsbD_eq_getElem hi]; congr 1; omega
    · split
      · rw [← BitVec.getLsbD_eq_getElem hi]; congr 1; omega
      · rw [← BitVec.getLsbD_eq_getElem hi]; congr 1; omega

@[simp] theorem State.wordAt_storeWord (s : State) (a : Nat) (v : Word) : (s.storeWord a v).wordAt a = v := by
  simp only [State.wordAt, State.byteAt_storeWord]
  simp [word_of_bytes]

theorem State.wordAt_congr {s t : State} {a : Nat} (h : ∀ b, a ≤ b → b < a + 4 → t.byteAt b = s.byteAt b) :
    t.wordAt a = s.wordAt a := by
  simp only [State.wordAt]
  rw [h a (by omega) (by omega), h (a + 1) (by omega) (by omega), h (a + 2) (by omega) (by omega),
    h (a + 3) (by omega) (by omega)]

theorem State.wordAt_storeWord_outside (s : State) (a : Nat) (v : Word) (b : Nat) (h : b + 4 ≤ a ∨ a + 4 ≤ b) :
    (s.storeWord a v).wordAt b = s.wordAt b :=
  State.wordAt_congr fun c _ _ => s.byteAt_storeWord_outside a v c (by omega)

/-! ### The engine and BUSY -/

@[simp] theorem Engine.cmd?_idle : Engine.idle.cmd? = none := rfl
@[simp] theorem Engine.cmd?_starting (r : CmdRec) : (Engine.starting r).cmd? = some r := rfl
@[simp] theorem Engine.cmd?_decoding (r : CmdRec) (d : DecState) : (Engine.decoding r d).cmd? = some r := rfl
@[simp] theorem Engine.cmd?_compositing (r : CmdRec) (res : DecResult) (i : Nat) :
    (Engine.compositing r res i).cmd? = some r := rfl

/-- BUSY is 0 exactly when the engine is idle. -/
theorem State.busy_eq_false {s : State} : s.busy = false ↔ s.engine = .idle := by
  cases h : s.engine <;> simp [State.busy, h]

theorem State.busy_eq_true {s : State} : s.busy = true ↔ ∃ r, s.engine.cmd? = some r := by
  simp [State.busy, Option.isSome_iff_exists]

@[simp] theorem State.busy_loadIe (s : State) (ie : Bool) : (s.loadIe ie).busy = s.busy := rfl

/-- A request made while BUSY. -/
theorem State.request_busy {s : State} (h : s.busy = true) (ie : Bool) (op : Op) :
    s.request ie op = (s.loadIe ie).dropRequest := by simp [State.request, h]

/-- A request made while idle. -/
theorem State.request_idle {s : State} (h : s.busy = false) (ie : Bool) (op : Op) :
    s.request ie op = ((s.loadIe ie).accept op.cmd).setEngine (.starting ((s.loadIe ie).latch op)) := by
  simp [State.request, h]

theorem State.requestReserved_busy {s : State} (h : s.busy = true) (ie : Bool) (c : BitVec 4) :
    s.requestReserved ie c = (s.loadIe ie).dropRequest := by simp [State.requestReserved, h]

theorem State.requestReserved_idle {s : State} (h : s.busy = false) (ie : Bool) (c : BitVec 4) :
    s.requestReserved ie c = { (s.loadIe ie).accept c with errcode := .badcmd, done := true } := by
  simp [State.requestReserved, h]

/-! ### Lost contents and the resets -/

theorem generation_le (ls : List Loss) (a : Nat) : generation ls a ≤ ls.length := by
  induction ls with
  | nil => exact Nat.le_refl _
  | cons l older ih =>
    simp only [generation, List.length_cons]
    split <;> omega

/-- An address that an event covers gets a generation of its own; every other address keeps its. -/
theorem State.genAt_lose (s : State) (l : Loss) (a : Nat) :
    (s.lose l).genAt a = if l.covers a then s.losses.length + 1 else s.genAt a := rfl

/-- The generation that the next event gives is newer than every one there is. -/
theorem State.genAt_lt (s : State) (a : Nat) : s.genAt a < s.losses.length + 1 :=
  Nat.lt_succ_of_le (generation_le _ _)

/-- What losing contents does to a byte: a covered address has nothing written and holds a fresh free value, and every
other address keeps its byte. -/
theorem State.byteAt_lose (s : State) (l : Loss) (a : Nat) :
    (s.lose l).byteAt a =
      if l.covers a then Config.unwrittenByte (s.losses.length + 1) a else s.byteAt a := by
  have hm : (s.lose l).mem.read? a = if l.covers a then none else s.mem.read? a := Memory.read?_forget _ _ _
  simp only [State.byteAt, hm, State.genAt_lose]
  split <;> rfl

/-- Abandoning does nothing, where no command runs or its checks fail, or loses what the command could write. -/
theorem State.abandon_cases (s : State) :
    ((∀ r, s.engine.cmd? = some r → startOk s.params r = false) ∧ s.abandon = s) ∨
      ∃ r, s.engine.cmd? = some r ∧ startOk s.params r = true ∧ s.abandon = s.lose (.abandoned r) := by
  cases hc : s.engine.cmd? with
  | none => simp [State.abandon, hc]
  | some r => cases hk : startOk s.params r <;> simp [State.abandon, hc, hk]

theorem State.wf_abandon {s : State} (h : s.mem.wf) : s.abandon.mem.wf := by
  rcases s.abandon_cases with ⟨-, he⟩ | ⟨r, -, -, he⟩ <;> rw [he]
  · exact h
  · exact Memory.wf_forget h _

theorem State.mem_abandon {s : State} {c : Host.Cell} (h : c ∈ s.abandon.mem) : c ∈ s.mem := by
  rcases s.abandon_cases with ⟨-, he⟩ | ⟨r, -, -, he⟩ <;> rw [he] at h
  · exact h
  · exact Memory.mem_forget h

/-- A soft reset has the bytes and the generations that abandoning leaves. -/
theorem State.byteAt_softReset (s : State) (a : Nat) : s.softReset.byteAt a = s.abandon.byteAt a := rfl
theorem State.genAt_softReset (s : State) (a : Nat) : s.softReset.genAt a = s.abandon.genAt a := rfl

/-- After a hardware reset every byte is a fresh free value. -/
theorem State.byteAt_hardReset (s : State) (a : Nat) :
    s.hardReset.byteAt a = Config.unwrittenByte (s.losses.length + 1) a := rfl

/-- The pixels inside the frame rectangle are those with a column and a row inside it (10_state.md R47;
42_compositor.md R238). -/
theorem CmdRec.inFrame_iff {r : CmdRec} (h : r.fx.toNat + r.fw.toNat ≤ r.sw.toNat) (k : Nat) :
    r.inFrame k = true ↔ ∃ x y, r.fx.toNat ≤ x ∧ x < r.fx.toNat + r.fw.toNat ∧ r.fy.toNat ≤ y ∧
      y < r.fy.toNat + r.fh.toNat ∧ k = y * r.sw.toNat + x := by
  simp only [CmdRec.inFrame, Bool.and_eq_true, decide_eq_true_eq]
  constructor
  · rintro ⟨⟨h1, h2⟩, h3, h4⟩
    exact ⟨_, _, h3, h4, h1, h2, (Nat.div_add_mod' k r.sw.toNat).symm⟩
  · rintro ⟨x, y, h1, h2, h3, h4, rfl⟩
    have hx : x < r.sw.toNat := by omega
    rw [Nat.mul_comm, Nat.mul_add_div (by omega), Nat.mul_add_mod, Nat.div_eq_of_lt hx, Nat.mod_eq_of_lt hx]
    exact ⟨⟨h3, h4⟩, h1, h2⟩

/-! ### Emit (41_lzw.md R193) -/

/-- Emit changes memory alone, writes the first indices of the sequence that fit below N, and says whether the count
reached N. -/
theorem emit_spec (n : Nat) (sq : List Byte) (count : Nat) (s : State) (h : count < n) :
    ∃ m, emit n sq count s =
        (s.withMem m, count + min sq.length (n - count), decide (n ≤ count + sq.length)) ∧
      (∀ j, j < min sq.length (n - count) →
        sq[j]? = some ((s.withMem m).ibuf (count + j))) ∧
      (∀ a, (a < ibufBase + count ∨ ibufBase + count + min sq.length (n - count) ≤ a) →
        Memory.read? m a = s.mem.read? a) ∧
      (s.mem.wf → Memory.wf m) ∧
      (∀ c ∈ m, c ∈ s.mem ∨ ∃ j b, j < min sq.length (n - count) ∧ b ∈ sq ∧ c = (ibufBase + count + j, b)) := by
  induction sq generalizing count s with
  | nil =>
    refine ⟨s.mem, Prod.ext rfl (Prod.ext (by simp [emit]) ?_), by simp, fun a _ => rfl, id, fun c hc => .inl hc⟩
    simp [emit, h]
  | cons b rest ih =>
    simp only [emit]
    split
    · rename_i hfull
      refine ⟨s.mem.write (ibufBase + count) b, ?_, ?_, ?_, fun hw => Memory.wf_write hw _ _, ?_⟩
      · have hk : min (b :: rest).length (n - count) = 1 := by simp; omega
        rw [hk]
        have : n ≤ count + (b :: rest).length := by simp; omega
        simp only [State.setIbuf, State.storeByte, this, decide_true]
      · intro j hj
        have hj0 : j = 0 := by simp at hj; omega
        subst hj0
        simp [State.ibuf, State.byteAt]
      · intro a ha
        apply Memory.read?_write_other
        simp at ha; omega
      · intro c hc
        rcases Memory.mem_write hc with rfl | hc
        · exact .inr ⟨0, b, by simp; omega, by simp, by simp⟩
        · exact .inl hc
    · rename_i hmore
      obtain ⟨m, he, hout, hfr, hwf, hcells⟩ := ih (count + 1) (s.setIbuf count b) (by omega)
      refine ⟨m, ?_, ?_, ?_, fun hw => hwf (Memory.wf_write hw _ _), ?_⟩
      · rw [he]
        simp only [List.length_cons]
        refine Prod.ext (by rfl) (Prod.ext ?_ ?_)
        · simp only; omega
        · simp only [decide_eq_decide]; omega
      · intro j hj
        cases j with
        | zero =>
          have hr := hfr (ibufBase + count) (.inl (by omega))
          simp [State.ibuf, State.byteAt, hr, State.setIbuf, State.storeByte]
        | succ j =>
          have := hout j (by simp at hj ⊢; omega)
          simp only [List.getElem?_cons_succ, this, Nat.add_assoc, Nat.add_comm 1 j]
          rfl
      · intro a ha
        rw [hfr a (by simp at ha ⊢; omega)]
        apply Memory.read?_write_other
        simp at ha; omega
      · intro c hc
        rcases hcells c hc with hc | ⟨j, x, hj, hx, rfl⟩
        · rcases Memory.mem_write hc with rfl | hc
          · exact .inr ⟨0, b, by simp; omega, by simp, by simp⟩
          · exact .inl hc
        · exact .inr ⟨j + 1, x, by simp at hj ⊢; omega, List.mem_cons_of_mem _ hx, by
            simp only [Prod.mk.injEq, and_true]; omega⟩

/-! ### The dictionary (41_lzw.md R182, R194, R195) -/

@[simp] theorem rootDict_length (m : Nat) : (rootDict m).length = 2 ^ m + 2 := by simp [rootDict]

/-- A root stands for itself. -/
theorem rootDict_root {m c : Nat} (h : c < 2 ^ m) : (rootDict m)[c]? = some (some [BitVec.ofNat 8 c]) := by
  rw [rootDict, List.getElem?_append_left (by simpa using h)]
  simp [h]

/-- CLEAR and END hold no list. -/
theorem rootDict_special {m c : Nat} (h : c = 2 ^ m ∨ c = 2 ^ m + 1) : (rootDict m)[c]? = some none := by
  rw [rootDict, List.getElem?_append_right (by simp; omega)]
  rcases h with rfl | rfl <;> simp

@[simp] theorem DecState.growWidth_dict (d : DecState) : d.growWidth.dict = d.dict := by
  unfold DecState.growWidth; split <;> rfl

/-- AddEntry to a full table. -/
theorem DecState.addEntry_full {d : DecState} (h : dictEntries ≤ d.next) (e : List Byte) : d.addEntry e = d := by
  simp [DecState.addEntry, Nat.not_lt.2 h]

/-- AddEntry to a table with room: one more slot, and the width of R195. -/
theorem DecState.addEntry_room {d : DecState} (h : d.next < dictEntries) (e : List Byte) :
    d.addEntry e = { d with
      dict := d.dict ++ [some e]
      w := if d.next + 1 = 2 ^ d.w ∧ d.w < maxCodeWidth then d.w + 1 else d.w } := by
  have hlen : (d.dict ++ [some e]).length = d.next + 1 := by simp [DecState.next]
  simp only [DecState.addEntry, if_pos h, DecState.growWidth]
  simp only [DecState.next] at hlen ⊢
  simp only [hlen]
  split <;> simp [*]

/-- A slot of the extended table. -/
theorem DecState.seq_addEntry {d : DecState} (h : d.next < dictEntries) (e : List Byte) (c : Nat) :
    (d.addEntry e).seq c = if c = d.next then some e else d.seq c := by
  rw [DecState.addEntry_room h]
  have hn : d.next = d.dict.length := rfl
  simp only [DecState.seq, hn]
  rcases lt_trichotomy c d.dict.length with hlt | rfl | hgt
  · rw [List.getElem?_append_left hlt, if_neg (by omega)]
  · simp
  · rw [List.getElem?_eq_none (by simp; omega), List.getElem?_eq_none (by omega), if_neg (by omega)]

/-! ### Codes and framing bytes run in the decode phase -/

theorem inDecode_decoding {s : State} {r : CmdRec} {d : DecState} (h : s.engine = .decoding r d)
    (f : CmdRec → DecState → Host.Outcome State Fault Refusal) : inDecode s f = f r d := by
  simp [inDecode, h]

/-- What a data code does while the count stays below N, and when it reaches N (41_lzw.md R186, R193). -/
theorem State.dataCode_spec {s : State} {r : CmdRec} {d : DecState} (h : d.count < r.pixels) (c : Nat)
    (sq : List Byte) (entry : Option (List Byte)) :
    ∃ m, (∀ j, j < min sq.length (r.pixels - d.count) →
        sq[j]? = some ((s.withMem m).ibuf (d.count + j))) ∧
      (∀ a, (a < ibufBase + d.count ∨ ibufBase + d.count + min sq.length (r.pixels - d.count) ≤ a) →
        Memory.read? m a = s.mem.read? a) ∧
      (s.mem.wf → Memory.wf m) ∧
      (∀ x ∈ m, x ∈ s.mem ∨
        ∃ j b, j < min sq.length (r.pixels - d.count) ∧ b ∈ sq ∧ x = (ibufBase + d.count + j, b)) ∧
      s.dataCode r d c sq entry =
        if r.pixels ≤ d.count + sq.length then
          (s.withMem m).finishDecode r { count := r.pixels, val := 0, pos := d.p }
        else
          (s.withMem m).setEngine
            (.decoding r (((d.counted (d.count + sq.length)).learn entry).remember c)) := by
  obtain ⟨m, he, hout, hfr, hwf, hcells⟩ := emit_spec r.pixels sq d.count s h
  refine ⟨m, hout, hfr, hwf, hcells, ?_⟩
  by_cases hfull : r.pixels ≤ d.count + sq.length
  · have hk : d.count + min sq.length (r.pixels - d.count) = r.pixels := by omega
    simp only [State.dataCode, he, hfull, decide_true, hk, if_true]
  · have hk : d.count + min sq.length (r.pixels - d.count) = d.count + sq.length := by omega
    simp only [State.dataCode, he, hfull, decide_false, hk, if_false]

end Sys2Proof.Machine
end

