-- ==== Sys2Proof/Laws/Step.lean ====
section
/-! SUPPORT. What one step can do, said once: whose turn it is, when an access is legal, how a register access runs,
and what an engine turn can change. -/

namespace Sys2Proof.Machine

open Sys2Proof

/-! ### Whose turn it is -/

/-- A step in which the engine is due is an engine turn. -/
theorem step_engineDue {s : State} (h : s.engineDue) : step s = s.turnTaken.engineTurn := by
  rcases h with h | ⟨rest, h⟩
  · have hs : s.turnTaken = s := by cases s; simp_all [State.turnTaken]
    rw [hs]; simp [step, State.nextTurn, h]
  · simp [step, State.nextTurn, h, State.turnTaken, State.takeTurn, State.withAgenda]

/-- A step in which the host is due is that transaction. -/
theorem step_hostDue {s : State} {t : HostTxn} (h : s.hostDue t) : step s = s.turnTaken.hostTurn t := by
  obtain ⟨rest, h⟩ := h
  simp [step, State.nextTurn, h, State.turnTaken, State.takeTurn, State.withAgenda]

@[simp] theorem State.turnTaken_engine (s : State) : s.turnTaken.engine = s.engine := rfl
@[simp] theorem State.turnTaken_params (s : State) : s.turnTaken.params = s.params := rfl
@[simp] theorem State.turnTaken_mem (s : State) : s.turnTaken.mem = s.mem := rfl
@[simp] theorem State.turnTaken_losses (s : State) : s.turnTaken.losses = s.losses := rfl
@[simp] theorem State.turnTaken_busy (s : State) : s.turnTaken.busy = s.busy := rfl
@[simp] theorem State.byteAt_turnTaken (s : State) (a : Nat) : s.turnTaken.byteAt a = s.byteAt a := rfl

/-! ### Runs -/

/-- A run that begins with a step that answers a next state. -/
theorem run_succ {s t : State} (h : step s = .next t) (k : Nat) :
    Sys2Proof.core.run (k + 1) s = Sys2Proof.core.run k t := by
  have hs : Sys2Proof.core.step s = .next t := h
  simp only [Host.Core.run, hs]

/-- Runs put one after the other. -/
theorem run_trans {j k : Nat} {s t u : State} (h1 : Sys2Proof.core.run j s = .next t)
    (h2 : Sys2Proof.core.run k t = .next u) : Sys2Proof.core.run (j + k) s = .next u := by
  induction j generalizing s with
  | zero => cases h1; rwa [Nat.zero_add]
  | succ j ih =>
    simp only [Host.Core.run] at h1
    split at h1
    · rename_i s' hs
      rw [show j + 1 + k = (j + k) + 1 by omega, run_succ hs]
      exact ih h1
    · cases h1
    · cases h1

/-! ### The address map -/

theorem regionOf_regs {p : Config.Params} {a : Nat} : regionOf p a = some .regs ↔ a < 0x1000 := by
  unfold regionOf; split_ifs <;> simp [*]

theorem regionOf_ctab {p : Config.Params} {a : Nat} : regionOf p a = some .ctab ↔ 0x1000 ≤ a ∧ a < 0x1400 := by
  unfold regionOf; split_ifs <;> simp <;> omega

theorem regionOf_cbuf {p : Config.Params} {a : Nat} :
    regionOf p a = some .cbuf ↔ 0x1400 ≤ a ∧ cbufBase ≤ a ∧ a < cbufBase + p.cbufBytes := by
  unfold regionOf; split_ifs <;> simp <;> omega

theorem regionOf_ibuf {p : Config.Params} {a : Nat} :
    regionOf p a = some .ibuf ↔ 0x1400 ≤ a ∧ (cbufBase ≤ a → cbufBase + p.cbufBytes ≤ a) ∧ ibufBase ≤ a ∧
      a < ibufBase + p.maxPixels := by
  unfold regionOf; split_ifs <;> simp <;> omega

theorem regionOf_fb {p : Config.Params} {a : Nat} :
    regionOf p a = some .fb ↔ 0x1400 ≤ a ∧ (cbufBase ≤ a → cbufBase + p.cbufBytes ≤ a) ∧
      (ibufBase ≤ a → ibufBase + p.maxPixels ≤ a) ∧ fbBase ≤ a ∧ a < fbBase + 4 * p.maxPixels := by
  unfold regionOf; split_ifs <;> simp <;> omega

/-- A region has no hole: an address between two of its addresses is in it. -/
theorem regionOf_between {p : Config.Params} {a b c : Nat} {g : Region} (ha : regionOf p a = some g)
    (hc : regionOf p c = some g) (hab : a ≤ b) (hbc : b ≤ c) : regionOf p b = some g := by
  cases g <;> simp only [regionOf_regs, regionOf_ctab, regionOf_cbuf, regionOf_ibuf, regionOf_fb, cbufBase,
    ibufBase, fbBase] at * <;> omega

/-- legalRegion decides the four clauses of 20_memory.md R78. -/
theorem legalRegion_iff {p : Config.Params} {n : Width} {a : Nat} {g : Region} :
    legalRegion p n a = some g ↔ LegalAccess p n a g := by
  have hb : 1 ≤ n.bytes := by cases n <;> decide
  unfold legalRegion LegalAccess
  cases h : regionOf p a with
  | none => simp
  | some g' =>
    simp only
    split
    · rename_i hc
      obtain ⟨h1, h2, h3⟩ := hc
      refine ⟨fun h4 => ?_, fun h4 => h4.1⟩
      cases h4
      exact ⟨rfl, h1, h2, fun j hj => regionOf_between h h3 (by omega) (by omega)⟩
    · rename_i hc
      simp only [reduceCtorEq, false_iff]
      rintro ⟨h4, h5, h6, h7⟩
      cases h4
      refine hc ⟨h5, h6, ?_⟩
      have := h7 (n.bytes - 1) (by omega)
      rwa [show a + n.bytes - 1 = a + (n.bytes - 1) by omega]

theorem legalRegion_eq_none {p : Config.Params} {n : Width} {a : Nat} (h : ∀ g, ¬LegalAccess p n a g) :
    legalRegion p n a = none := by
  cases hl : legalRegion p n a with
  | none => rfl
  | some g => exact absurd (legalRegion_iff.1 hl) (h g)

/-- Every aligned word of the register block is a legal register access. -/
theorem legalRegion_regs (p : Config.Params) {a : Nat} (h : a ≤ 0xFFC) (h4 : a % 4 = 0) :
    legalRegion p .w32 a = some .regs := by
  have h1 : a < 0x1000 := by omega
  have h2 : a + Width.w32.bytes - 1 < 0x1000 := by simp [Width.bytes]; omega
  simp only [legalRegion, regionOf, if_pos h1, if_pos h2]
  simp [Region.accepts, Width.bytes, h4]

theorem regAt_reserved {a : Nat} (h : 0x34 ≤ a) : regAt a = .reserved := by
  unfold regAt; repeat rw [if_neg (by omega)]

/-- A host read of a register. -/
theorem step_readReg {s : State} {addr : Word} (h : addr.toNat ≤ 0xFFC) (h4 : addr.toNat % 4 = 0)
    (hd : s.hostDue (.read .w32 addr)) : step s = .next (s.turnTaken.readReg (regAt addr.toNat)) := by
  rw [step_hostDue hd]; simp only [State.hostTurn, State.hostRead, legalRegion_regs _ h h4]

/-- A host write of a register. -/
theorem step_writeReg {s : State} {addr v : Word} (h : addr.toNat ≤ 0xFFC) (h4 : addr.toNat % 4 = 0)
    (hd : s.hostDue (.write .w32 addr v)) :
    step s = (s.turnTaken.respond .written).writeReg v (regAt addr.toNat) := by
  rw [step_hostDue hd]; simp only [State.hostTurn, State.hostWrite, legalRegion_regs _ h h4]

/-! ### What an engine turn can change -/

/-- A command with a failing start check ends in its first turn, with an error and no memory written
(40_commands.md R142 to R145). -/
theorem State.start_failed {s : State} {r : CmdRec} (h : startOk s.params r = false) :
    ∃ e, e ≠ .none ∧ s.start r = s.complete r e .zero := by
  unfold State.start
  cases ho : r.op <;> simp only [startOk, ho] at h <;>
    simp only [State.startDecode, State.startComposite, State.startFrame]
  all_goals
    split_ifs <;> first
      | exact ⟨_, by decide, rfl⟩
      | (exfalso; simp_all)

/-- A command whose start checks pass begins its first phase. -/
theorem State.start_passed {s : State} {r : CmdRec} (h : startOk s.params r = true) :
    s.start r = if r.op = .composite then s.setEngine (.compositing r .zero 0) else s.beginDecode r := by
  unfold State.start
  cases ho : r.op <;> simp only [startOk, ho, Bool.and_eq_true, decide_eq_true_eq] at h <;>
    simp [State.startDecode, State.startComposite, State.startFrame, h]

/-- The shape of the state after a turn of the engine on command r: below IBUF the memory reads as before, and the
command has completed or goes on. -/
def TurnShape (s t : State) (r : CmdRec) : Prop :=
  ∃ m : Memory, (∀ a, a < ibufBase → Memory.read? m a = s.mem.read? a) ∧
    ((∃ err res, t = (s.withMem m).complete r err res) ∨
      ∃ e, e.cmd? = some r ∧ t = (s.withMem m).setEngine e)

theorem TurnShape.complete (s : State) (r : CmdRec) (e : Err) (res : DecResult) :
    TurnShape s (s.complete r e res) r := ⟨s.mem, fun _ _ => rfl, .inl ⟨e, res, rfl⟩⟩

theorem TurnShape.setEngine (s : State) {r : CmdRec} {e : Engine} (h : e.cmd? = some r) :
    TurnShape s (s.setEngine e) r := ⟨s.mem, fun _ _ => rfl, .inr ⟨e, h, rfl⟩⟩

theorem TurnShape.finishDecode (s : State) (r : CmdRec) (res : DecResult) :
    TurnShape s (s.finishDecode r res) r := by
  unfold State.finishDecode; split
  · exact .setEngine s rfl
  · exact .complete s r _ _

theorem TurnShape.beginDecode (s : State) (r : CmdRec) : TurnShape s (s.beginDecode r) r := by
  unfold State.beginDecode; split
  · exact .finishDecode s r _
  · exact .setEngine s rfl

theorem TurnShape.start (s : State) (r : CmdRec) : TurnShape s (s.start r) r := by
  unfold State.start
  split
  · unfold State.startDecode
    split; · exact .complete ..
    split; · exact .complete ..
    split; · exact .complete ..
    exact .beginDecode ..
  · unfold State.startComposite
    split; · exact .complete ..
    split; · exact .complete ..
    exact .setEngine s rfl
  · unfold State.startFrame
    split; · exact .complete ..
    split; · exact .complete ..
    split; · exact .complete ..
    split; · exact .complete ..
    exact .beginDecode ..

theorem emit_below (n : Nat) (sq : List Byte) (count : Nat) (s : State) :
    ∃ m, (emit n sq count s).1 = s.withMem m ∧ ∀ a, a < ibufBase → Memory.read? m a = s.mem.read? a := by
  induction sq generalizing count s with
  | nil => exact ⟨s.mem, rfl, fun _ _ => rfl⟩
  | cons b rest ih =>
    have hw : ∀ a, a < ibufBase → (s.mem.write (ibufBase + count) b).read? a = s.mem.read? a :=
      fun a ha => Memory.read?_write_other _ _ (by omega)
    simp only [emit]
    split
    · exact ⟨s.mem.write (ibufBase + count) b, rfl, hw⟩
    · obtain ⟨m, he, hm⟩ := ih (count + 1) (s.setIbuf count b)
      exact ⟨m, by rw [he]; rfl, fun a ha => (hm a ha).trans (hw a ha)⟩

theorem TurnShape.dataCode (s : State) (r : CmdRec) (d : DecState) (c : Nat) (sq : List Byte)
    (entry : Option (List Byte)) : TurnShape s (s.dataCode r d c sq entry) r := by
  obtain ⟨m, he, hm⟩ := emit_below r.pixels sq d.count s
  unfold State.dataCode
  split
  · rename_i s' count heq
    have hs : s' = s.withMem m := by rw [← he, heq]
    subst hs
    unfold State.finishDecode; split
    · exact ⟨m, hm, .inr ⟨_, rfl, rfl⟩⟩
    · exact ⟨m, hm, .inl ⟨_, _, rfl⟩⟩
  · rename_i s' count heq
    have hs : s' = s.withMem m := by rw [← he, heq]
    subst hs
    exact ⟨m, hm, .inr ⟨_, rfl, rfl⟩⟩

/-- A code or a framing byte that gives a next state is a turn of the decode phase. -/
theorem exec_code_shape {s t : State} {r : CmdRec} {d : DecState} {i : Instr} (hl : i.level ≠ .ctrl)
    (he : s.engine = .decoding r d) (h : exec i s = .next t) : TurnShape s t r := by
  cases i <;> simp only [Instr.level, ne_eq, not_true_eq_false, reduceCtorEq, not_false_eq_true] at hl <;>
    simp only [exec, execCodeClear, execCodeEnd, execCodeFirst, execCodeFirstBad, execCodeKnown, execCodeKwkwk,
      execCodeInvalid, execSubblock, execTerminator, inDecode_decoding he] at h
  case codeClear => cases h; exact .setEngine s rfl
  case codeEnd => cases h; exact .finishDecode s r _
  case codeFirst =>
    split at h <;> cases h
    exact .dataCode ..
  case codeFirstBad => cases h; exact .complete ..
  case codeKnown =>
    split at h <;> cases h
    exact .dataCode ..
  case codeKwkwk =>
    split at h <;> cases h
    exact .dataCode ..
  case codeInvalid => cases h; exact .complete ..
  case subblock => cases h; exact .setEngine s rfl
  case terminator => cases h; exact .complete ..

theorem decodeCode_level (x : CodeCtx) (c : Nat) : (decodeCode x c).level = .code := by
  unfold decodeCode; repeat' split
  all_goals rfl

theorem decodeFrameByte_level (b : Byte) : (decodeFrameByte b).level = .frameByte := by
  unfold decodeFrameByte; split <;> rfl

theorem TurnShape.of_setEngine {s t : State} {r : CmdRec} {e : Engine} (h : TurnShape (s.setEngine e) t r) :
    TurnShape s t r := by
  obtain ⟨m, hm, h⟩ := h
  refine ⟨m, hm, ?_⟩
  rcases h with ⟨err, res, rfl⟩ | ⟨e', he', rfl⟩
  · exact .inl ⟨err, res, rfl⟩
  · exact .inr ⟨e', he', rfl⟩

/-- The pixel write stays above IBUF's base. -/
theorem TurnShape.compositeTurn (s : State) (r : CmdRec) (res : DecResult) (i : Nat) :
    TurnShape s (s.compositeTurn r res i) r := by
  unfold State.compositeTurn
  split
  · unfold State.pixel
    split
    · exact .setEngine s rfl
    · refine ⟨(s.setFb (r.target (i / r.fw.toNat) (i % r.fw.toNat)) (s.ctab (s.ibuf i))).mem, ?_, .inr ⟨_, rfl, rfl⟩⟩
      intro a ha
      have hb : a < fbBase := lt_trans ha (by decide)
      simp only [State.setFb, State.storeWord, State.storeByte_mem]
      rw [Memory.read?_write_other _ _ (by omega), Memory.read?_write_other _ _ (by omega),
        Memory.read?_write_other _ _ (by omega), Memory.read?_write_other _ _ (by omega)]
  · exact .complete ..

/-- A turn of the engine changes nothing while idle, and otherwise has the shape of a turn of the running command. -/
theorem engineTurn_shape {s t : State} (h : s.engineTurn = .next t) :
    (s.engine = .idle ∧ t = s) ∨ ∃ r, s.engine.cmd? = some r ∧ TurnShape s t r := by
  unfold State.engineTurn at h
  split at h
  · rename_i he; cases h; exact .inl ⟨he, rfl⟩
  · rename_i r he; cases h; exact .inr ⟨r, by rw [he]; rfl, .start s r⟩
  · rename_i r d he
    refine .inr ⟨r, by rw [he]; rfl, ?_⟩
    unfold State.decodeTurn at h
    split at h
    · split at h
      · cases h; exact .complete ..
      · split at h
        · exact .of_setEngine (exec_code_shape (by rw [decodeFrameByte_level]; decide) rfl h)
        · cases h; exact .setEngine s rfl
    · exact .of_setEngine (exec_code_shape (by rw [decodeCode_level]; decide) rfl h)
  · rename_i r res i he; cases h; exact .inr ⟨r, by rw [he]; rfl, .compositeTurn s r res i⟩

end Sys2Proof.Machine
end

