-- ==== Sys2Proof/Laws/Decoder.lean ====
section
/-! SUPPORT. The decoder's invariant DecState.Inv under each small operation of the decode phase, and what it says of a
code's sequence. -/

namespace Sys2Proof.Machine

open Sys2Proof

variable {r : CmdRec} {d : DecState}

/-! ### The width (41_lzw.md R195) -/

theorem log2_eq {n k : Nat} (h1 : 2 ^ k ≤ n) (h2 : n < 2 ^ (k + 1)) : Nat.log2 n = k := by
  have hn : n ≠ 0 := by have := Nat.two_pow_pos k; omega
  have h3 := (Nat.le_log2 hn).2 h1
  have h4 := (Nat.log2_lt hn).2 h2
  omega

/-- The width after ResetDict is the width of R195 for next = 2^m + 2. -/
theorem width_start {m : Nat} (h : 2 ≤ m) (h8 : m ≤ 8) :
    m + 1 = min maxCodeWidth (Nat.log2 (2 ^ m + 2) + 1) := by
  have : Nat.log2 (2 ^ m + 2) = m := log2_eq (by omega) (by
    have : 2 ^ 2 ≤ 2 ^ m := Nat.pow_le_pow_right (by decide) h
    rw [Nat.pow_succ]; omega)
  rw [this]; simp only [maxCodeWidth]; omega

/-- One entry more moves the width as GrowWidth does. -/
theorem width_step {n w : Nat} (h6 : 1 ≤ n) (hn : n < dictEntries) (hw : w = min maxCodeWidth (Nat.log2 n + 1)) :
    (if n + 1 = 2 ^ w ∧ w < maxCodeWidth then w + 1 else w) = min maxCodeWidth (Nat.log2 (n + 1) + 1) := by
  have hn0 : n ≠ 0 := by omega
  obtain ⟨k, hk⟩ : ∃ k, k = Nat.log2 n := ⟨_, rfl⟩
  have h1 : 2 ^ k ≤ n := hk ▸ (Nat.le_log2 hn0).1 le_rfl
  have h2 : n < 2 ^ (k + 1) := hk ▸ (Nat.log2_lt hn0).1 (by omega)
  have hk12 : k < 12 := by
    by_contra hc
    have : 2 ^ 12 ≤ 2 ^ k := Nat.pow_le_pow_right (by decide) (by omega)
    simp only [dictEntries] at hn; omega
  have hwk : w = k + 1 := by rw [hw, ← hk]; simp only [maxCodeWidth]; omega
  subst hwk
  by_cases hg : n + 1 = 2 ^ (k + 1)
  · have : Nat.log2 (n + 1) = k + 1 := log2_eq (by omega) (by rw [Nat.pow_succ 2 (k + 1)]; omega)
    rw [this]; simp only [hg, true_and, maxCodeWidth]; split <;> omega
  · have : Nat.log2 (n + 1) = k := log2_eq (by omega) (by omega)
    rw [this, if_neg (fun h => hg h.1)]; simp only [maxCodeWidth]; omega

theorem DecState.Inv.width_le (h : d.Inv r) : d.w ≤ 12 := by
  have := h.width; simp only [maxCodeWidth] at this; omega

/-! ### Sequences (41_lzw.md R198 (a), (b)) -/

/-- A slot below 2^m + 2 is as ResetDict left it. -/
theorem DecState.Inv.seq_low (h : d.Inv r) {c : Nat} (hc : c < 2 ^ r.m.toNat + 2) :
    d.seq c = ((rootDict r.m.toNat)[c]?).join := by
  rw [DecState.seq, ← h.roots, List.getElem?_take, if_pos hc]

theorem DecState.Inv.seq_root (h : d.Inv r) {c : Nat} (hc : c < 2 ^ r.m.toNat) :
    d.seq c = some [BitVec.ofNat 8 c] := by
  rw [h.seq_low (by omega), rootDict_root hc]; rfl

theorem DecState.Inv.seq_special (h : d.Inv r) {c : Nat} (hc : c = 2 ^ r.m.toNat ∨ c = 2 ^ r.m.toNat + 1) :
    d.seq c = none := by
  rw [h.seq_low (by omega), rootDict_special hc]; rfl

/-- The sequence of a root or a defined entry: not empty, shorter than next - 2^m, and of indices below 2^m. -/
theorem DecState.Inv.seq_spec (h : d.Inv r) {c : Nat} (hc : c < d.next) (h1 : c ≠ 2 ^ r.m.toNat)
    (h2 : c ≠ 2 ^ r.m.toNat + 1) :
    ∃ l, d.seq c = some l ∧ 1 ≤ l.length ∧ l.length < d.next - 2 ^ r.m.toNat ∧ ∀ b ∈ l, b.toNat < 2 ^ r.m.toNat := by
  have hn := h.next_ge
  by_cases hr : c < 2 ^ r.m.toNat
  · refine ⟨_, h.seq_root hr, by simp, by simp; omega, ?_⟩
    intro b hb
    rw [List.mem_singleton] at hb
    subst hb
    exact lt_of_le_of_lt (Nat.mod_le _ _) hr
  · obtain ⟨l, hl, h3, h4, h5⟩ := h.entries c (by omega) hc
    exact ⟨l, hl, by omega, by omega, h5⟩

/-- The sequence of the previous code. -/
theorem DecState.Inv.prev_spec (h : d.Inv r) {c : Nat} (hc : d.prev = some c) :
    ∃ l, d.prevSeq = some l ∧ 1 ≤ l.length ∧ l.length < d.next - 2 ^ r.m.toNat ∧ ∀ b ∈ l, b.toNat < 2 ^ r.m.toNat := by
  obtain ⟨h1, h2⟩ := h.prev c hc
  obtain ⟨l, hl, h3⟩ := h.seq_spec h1 (fun hs => h2 (h.seq_special (.inl hs))) fun hs => h2 (h.seq_special (.inr hs))
  exact ⟨l, by simp [DecState.prevSeq, hc, hl], h3⟩

/-! ### The small operations -/

theorem DecState.Inv.init {p : Config.Params} (h : DecodeChecked p r) : (DecState.init r.m.toNat).Inv r := by
  have hm := h.minCode
  simp only [minCodeOk, Bool.and_eq_true, decide_eq_true_eq] at hm
  have h8 : 2 ^ r.m.toNat ≤ 2 ^ 8 := Nat.pow_le_pow_right (by decide) hm.2
  have hn : (DecState.init r.m.toNat).next = 2 ^ r.m.toNat + 2 := rootDict_length _
  refine ⟨Nat.zero_le _, by simp [DecState.init], by simp [DecState.init], by simp [DecState.init], ?_, ?_, ?_, ?_,
    ?_, fun _ => hn, ?_, h.pixels_pos⟩
  · omega
  · rw [hn]; simp only [dictEntries]; omega
  · rw [hn]; exact width_start hm.1 hm.2
  · simp [DecState.init, List.take_of_length_le]
  · intro e h1 h2; omega
  · intro c hc; simp [DecState.init] at hc

theorem DecState.Inv.resetDict (h : d.Inv r) (hm : minCodeOk r = true) : (d.resetDict r.m.toNat).Inv r := by
  simp only [minCodeOk, Bool.and_eq_true, decide_eq_true_eq] at hm
  have h8 : 2 ^ r.m.toNat ≤ 2 ^ 8 := Nat.pow_le_pow_right (by decide) hm.2
  have hn : (d.resetDict r.m.toNat).next = 2 ^ r.m.toNat + 2 := rootDict_length _
  refine ⟨h.p_le, h.rem_le, h.nacc_le, h.acc_lt, by omega, ?_, ?_, ?_, ?_, fun _ => hn, ?_, h.count_lt⟩
  · rw [hn]; simp only [dictEntries]; omega
  · rw [hn]; exact width_start hm.1 hm.2
  · simp [DecState.resetDict, List.take_of_length_le]
  · intro e h1 h2; omega
  · intro c hc; simp [DecState.resetDict] at hc

theorem DecState.Inv.advance (h : d.Inv r) (hp : d.p < r.len.toNat) : d.advance.Inv r :=
  ⟨hp, h.rem_le, h.nacc_le, h.acc_lt, h.next_ge, h.next_le, h.width, h.roots, h.entries, h.noPrev, h.prev,
    h.count_lt⟩

theorem DecState.Inv.withRem (h : d.Inv r) {n : Nat} (hn : n ≤ 255) : DecState.Inv r { d with rem := n } :=
  ⟨h.p_le, hn, h.nacc_le, h.acc_lt, h.next_ge, h.next_le, h.width, h.roots, h.entries, h.noPrev, h.prev, h.count_lt⟩

theorem DecState.Inv.takeData (h : d.Inv r) (hp : d.p < r.len.toNat) (hw : d.nacc < d.w) (b : Byte) :
    (d.takeData b).Inv r := by
  have hw12 := h.width_le
  have hr := h.rem_le
  refine ⟨hp, ?_, ?_, ?_, h.next_ge, h.next_le, h.width, h.roots, h.entries, h.noPrev, h.prev, h.count_lt⟩
  · simp only [DecState.takeData]; omega
  · simp only [DecState.takeData]; omega
  · simp only [DecState.takeData]
    have h1 := h.acc_lt
    have h2 : b.toNat + 1 ≤ 256 := b.isLt
    have h3 : (b.toNat + 1) * 2 ^ d.nacc ≤ 256 * 2 ^ d.nacc := Nat.mul_le_mul_right _ h2
    rw [Nat.pow_add, Nat.mul_comm (2 ^ d.nacc)]
    rw [Nat.add_mul] at h3
    omega

theorem DecState.Inv.dropCode (h : d.Inv r) (hw : d.w ≤ d.nacc) : d.dropCode.Inv r := by
  have hn := h.nacc_le
  refine ⟨h.p_le, h.rem_le, ?_, ?_, h.next_ge, h.next_le, h.width, h.roots, h.entries, h.noPrev, h.prev, h.count_lt⟩
  · simp only [DecState.dropCode]; omega
  · simp only [DecState.dropCode]
    apply Nat.div_lt_of_lt_mul
    rw [← Nat.pow_add, show d.w + (d.nacc - d.w) = d.nacc by omega]
    exact h.acc_lt

theorem DecState.Inv.counted (h : d.Inv r) {n : Nat} (hn : n < r.pixels) : (d.counted n).Inv r :=
  ⟨h.p_le, h.rem_le, h.nacc_le, h.acc_lt, h.next_ge, h.next_le, h.width, h.roots, h.entries, h.noPrev, h.prev, hn⟩

theorem DecState.Inv.remember (h : d.Inv r) {c : Nat} (hc : c < d.next) (hs : d.seq c ≠ none) :
    (d.remember c).Inv r := by
  refine ⟨h.p_le, h.rem_le, h.nacc_le, h.acc_lt, h.next_ge, h.next_le, h.width, h.roots, h.entries, ?_, ?_,
    h.count_lt⟩
  · intro hn; simp [DecState.remember] at hn
  · intro x hx
    simp only [DecState.remember, Option.some.injEq] at hx
    subst hx
    exact ⟨hc, hs⟩

/-- AddEntry keeps the invariant for an entry of the length and the indices that R198 (b) allows. -/
theorem DecState.Inv.addEntry (h : d.Inv r) (hp : d.prev ≠ none) {e : List Byte} (h2 : 2 ≤ e.length)
    (hle : e.length ≤ d.next - 2 ^ r.m.toNat) (hb : ∀ b ∈ e, b.toNat < 2 ^ r.m.toNat) : (d.addEntry e).Inv r := by
  by_cases hroom : d.next < dictEntries
  · have hseq := DecState.seq_addEntry hroom e
    have hge := h.next_ge
    rw [DecState.addEntry_room hroom] at hseq ⊢
    have hn : (d.dict ++ [some e]).length = d.next + 1 := by simp [DecState.next]
    refine ⟨h.p_le, h.rem_le, h.nacc_le, h.acc_lt, ?_, ?_, ?_, ?_, ?_, fun hn => absurd hn hp, ?_, h.count_lt⟩
    · simp only [DecState.next, hn] at hge ⊢; omega
    · simp only [DecState.next, hn] at hroom ⊢; omega
    · simp only [DecState.next, hn]
      exact width_step (Nat.lt_of_lt_of_le (Nat.succ_pos _) hge) hroom h.width
    · simp only
      rw [List.take_append_of_le_length (by simpa only [DecState.next] using hge)]
      exact h.roots
    · intro x hx hlt
      rw [hseq]
      simp only [DecState.next, hn] at hlt
      split
      · rename_i hxn
        subst hxn
        exact ⟨e, rfl, h2, hle, hb⟩
      · rename_i hxn
        simp only [DecState.next] at hxn
        exact h.entries x hx (by simp only [DecState.next]; omega)
    · intro c hc
      obtain ⟨h3, h4⟩ := h.prev c hc
      refine ⟨?_, ?_⟩
      · simp only [DecState.next, hn] at h3 ⊢; omega
      · rw [hseq, if_neg (by omega)]; exact h4
  · rw [DecState.addEntry_full (by omega)]; exact h

/-- Earlier slots keep their sequence when an entry is added. -/
theorem DecState.seq_learn_of_lt {d : DecState} {c : Nat} (hc : c < d.next) (entry : Option (List Byte)) :
    (d.learn entry).seq c = d.seq c := by
  cases entry with
  | none => rfl
  | some e =>
    by_cases hroom : d.next < dictEntries
    · rw [DecState.learn, DecState.seq_addEntry hroom, if_neg (by omega)]
    · rw [DecState.learn, DecState.addEntry_full (by omega)]

theorem DecState.next_learn_le {d : DecState} (entry : Option (List Byte)) : d.next ≤ (d.learn entry).next := by
  cases entry with
  | none => exact le_rfl
  | some e =>
    by_cases hroom : d.next < dictEntries
    · rw [DecState.learn, DecState.addEntry_room hroom]; simp [DecState.next]
    · rw [DecState.learn, DecState.addEntry_full (by omega)]

end Sys2Proof.Machine
end

