-- ==== Sys2Proof/Laws/PerInstr.lean ====
section
/-! SUPPORT. One family of laws with a lemma for each constructor of Instr: the encoding of a well-formed instruction
fits in the bits its level gives it (30_encoding.md R100, R112, R115). -/

namespace Sys2Proof.Laws.EncodeFits

open Sys2Proof

/-- The encoding of i fits in its bits, in every context in which i is well formed. -/
def Statement (i : Instr) : Prop :=
  ∀ x : CodeCtx, i.wf x = true → (encode x i).2 < 2 ^ (encode x i).1

/-- CLEAR and END are below 2^w, because w is at least m + 1 and m at least 2. -/
theorem special_lt {x : CodeCtx} (h : x.Ok) : 2 ^ x.m + 1 < 2 ^ x.w := by
  have h1 : 2 ^ (x.m + 1) ≤ 2 ^ x.w := Nat.pow_le_pow_right (by decide) h.2.1.1
  have h2 : 2 ^ 2 ≤ 2 ^ x.m := Nat.pow_le_pow_right (by decide) h.1.1
  rw [Nat.pow_succ] at h1; omega

theorem nop (ie : Bool) : Statement (.nop ie) := fun _ _ => BitVec.isLt _

theorem decode (ie : Bool) : Statement (.decode ie) := fun _ _ => BitVec.isLt _

theorem composite (ie : Bool) : Statement (.composite ie) := fun _ _ => BitVec.isLt _

theorem frame (ie : Bool) : Statement (.frame ie) := fun _ _ => BitVec.isLt _

theorem reserved4to7 (ie : Bool) (c : BitVec 2) : Statement (.reserved4to7 ie c) := fun _ _ => BitVec.isLt _

theorem reserved8toF (ie : Bool) (c : BitVec 3) : Statement (.reserved8toF ie c) := fun _ _ => BitVec.isLt _

theorem srst : Statement .srst := fun _ _ => show 0x80000000 < 2 ^ 32 by decide

theorem codeClear : Statement .codeClear := fun _ h =>
  Nat.lt_of_succ_lt (special_lt (of_decide_eq_true h))

theorem codeEnd : Statement .codeEnd := fun _ h => special_lt (of_decide_eq_true h)

theorem codeFirst (c : Nat) : Statement (.codeFirst c) := fun x h => by
  obtain ⟨hx, -, hc⟩ := of_decide_eq_true h
  exact Nat.lt_trans hc (Nat.lt_of_succ_lt (special_lt hx))

theorem codeFirstBad (c : Nat) : Statement (.codeFirstBad c) := fun _ h =>
  (of_decide_eq_true h).2.2.2

theorem codeKnown (c : Nat) : Statement (.codeKnown c) := fun _ h =>
  (of_decide_eq_true h).2.2.2.2.2

theorem codeKwkwk : Statement .codeKwkwk := fun _ h => (of_decide_eq_true h).2.2

theorem codeInvalid (c : Nat) : Statement (.codeInvalid c) := fun _ h =>
  (of_decide_eq_true h).2.2.2

theorem subblock (len : BitVec 8) : Statement (.subblock len) := fun _ _ => len.isLt

theorem terminator : Statement .terminator := fun _ _ => show 0 < 2 ^ 8 by decide

end Sys2Proof.Laws.EncodeFits
end

