-- ==== Sys2Proof/Tests/Slice0.lean ====
section
/-! SUPPORT. Small tests of the model against words and results written out from the spec, the smoke test of
WellFormed, and a witness for the hypotheses of each statement. -/

namespace Sys2Proof.Tests

open Sys2Proof Sys2Proof.Machine

/-! ### Helpers -/

/-- The outcome is a next state of which f holds. -/
def nextIs (o : Host.Outcome State Fault Refusal) (f : State → Bool) : Bool :=
  match o with
  | .next t => f t
  | .fault _ => false
  | .refused _ => false

/-- The frame of program P1 (95_test_vectors.md): 4 by 1 at row 1 of a 4 by 2 screen, m = 2, len = 5. -/
def recP1 (op : Op) : CmdRec where
  op := op
  sw := 4
  sh := 2
  fx := 0
  fy := 1
  fw := 4
  fh := 1
  il := false
  te := false
  ti := 0
  m := 2
  len := 5

/-- Reset, with an engine at work on a command and no turn planned. -/
def working (e : Engine) (op : Op) : State := { State.reset with engine := e, lastcmd := op.cmd }

def starting (op : Op) : State := working (.starting (recP1 op)) op
def decoding (op : Op) (d : DecState) : State := working (.decoding (recP1 op) d) op
def compositing (op : Op) (i : Nat) : State :=
  working (.compositing (recP1 op) { count := 4, val := 0, pos := 3 } i) op

/-- The decoder after CLEAR 1 with m = 2: one index out, the first sub-block open. -/
def afterOne : DecState := { DecState.init 2 with p := 2, rem := 1, prev := some 1, count := 1 }

/-- The decoder after CLEAR 1 6 with m = 2 (41_lzw.md R191): entry 6 is [1, 1]. -/
def afterSix : DecState :=
  { afterOne with dict := rootDict 2 ++ [some [1, 1]], prev := some 6, count := 3 }

/-- A context in the middle of a stream: m = 2, w = 3, next = 6, prev = 1. -/
def ctxMid : CodeCtx := { m := 2, w := 3, next := 6, prev := some 1 }

/-! ### WellFormed refuses an ill-formed term, one for each check -/

theorem test_wf_refuses_subblock_zero : Instr.wf ctxMid (.subblock 0) = false := by decide
theorem test_wf_refuses_min_code : Instr.wf { ctxMid with m := 1, w := 2, next := 4 } .codeClear = false := by decide
theorem test_wf_refuses_width_13 : Instr.wf { ctxMid with w := 13 } .codeEnd = false := by decide
theorem test_wf_refuses_width_low : Instr.wf { ctxMid with w := 2 } .codeEnd = false := by decide
theorem test_wf_refuses_next_low : Instr.wf { ctxMid with next := 5 } .codeClear = false := by decide
theorem test_wf_refuses_next_high : Instr.wf { ctxMid with w := 12, next := 4097 } .codeClear = false := by decide
theorem test_wf_refuses_next_without_prev :
    Instr.wf { ctxMid with next := 7, prev := none } .codeClear = false := by decide
theorem test_wf_refuses_first_no_root : Instr.wf (CodeCtx.start 2) (.codeFirst 4) = false := by decide
theorem test_wf_refuses_first_with_prev : Instr.wf ctxMid (.codeFirst 1) = false := by decide
theorem test_wf_refuses_first_bad_special : Instr.wf (CodeCtx.start 2) (.codeFirstBad 5) = false := by decide
theorem test_wf_refuses_first_bad_too_wide : Instr.wf (CodeCtx.start 2) (.codeFirstBad 8) = false := by decide
theorem test_wf_refuses_known_clear : Instr.wf ctxMid (.codeKnown 4) = false := by decide
theorem test_wf_refuses_known_end : Instr.wf ctxMid (.codeKnown 5) = false := by decide
theorem test_wf_refuses_known_next : Instr.wf ctxMid (.codeKnown 6) = false := by decide
theorem test_wf_refuses_kwkwk_no_prev : Instr.wf (CodeCtx.start 2) .codeKwkwk = false := by decide
theorem test_wf_refuses_kwkwk_too_wide : Instr.wf { ctxMid with next := 8 } .codeKwkwk = false := by decide
theorem test_wf_refuses_invalid_next : Instr.wf ctxMid (.codeInvalid 6) = false := by decide
theorem test_wf_refuses_invalid_too_wide : Instr.wf ctxMid (.codeInvalid 8) = false := by decide

/-- One well-formed term of each constructor, with boundary values. -/
theorem test_wf_accepts :
    (∀ i ∈ [Instr.nop true, .decode false, .composite true, .frame false, .reserved4to7 true 0, .reserved8toF false 7,
      .srst, .codeClear, .codeEnd, .codeKnown 3, .codeKwkwk, .codeInvalid 7, .subblock 255, .terminator],
      i.wf ctxMid = true) ∧
    (∀ i ∈ [Instr.codeFirst 3, .codeFirstBad 6, .codeFirstBad 7], i.wf (CodeCtx.start 2) = true) := by decide

/-! ### Words written out from the spec's encodings -/

/-- CTRL words (30_encoding.md R100, R101): SRST is bit 31, IE bit 8, CMD bits 3 to 0; bits 30 to 9 and 7 to 4 are
ignored. -/
theorem test_decode_nop : decodeCtrl 0b00000000000000000000000100000000#32 = .nop true := by decide
theorem test_decode_decode : decodeCtrl 0b00000000000000000000000000000001#32 = .decode false := by decide
theorem test_decode_composite : decodeCtrl 0b00000000000000000000000000000010#32 = .composite false := by decide
theorem test_decode_frame : decodeCtrl 0b00000000000000000000000100000011#32 = .frame true := by decide
theorem test_decode_reserved4 : decodeCtrl 0b00000000000000000000000000000100#32 = .reserved4to7 false 0 := by decide
theorem test_decode_reserved7 : decodeCtrl 0b00000000000000000000000100000111#32 = .reserved4to7 true 3 := by decide
theorem test_decode_reserved8 : decodeCtrl 0b00000000000000000000000000001000#32 = .reserved8toF false 0 := by decide
theorem test_decode_reservedF : decodeCtrl 0b00000000000000000000000100001111#32 = .reserved8toF true 7 := by decide
theorem test_decode_srst : decodeCtrl 0b10000000000000000000000100000011#32 = .srst := by decide
theorem test_decode_ignored_bits : decodeCtrl 0b01111111111111111111111011110011#32 = .frame false := by decide

/-- Framing bytes (30_encoding.md R115). -/
theorem test_decode_terminator : decodeFrameByte 0b00000000#8 = .terminator := by decide
theorem test_decode_subblock : decodeFrameByte 0b11111111#8 = .subblock 255 := by decide

/-- Codes (30_encoding.md R113) with m = 2: 100 is CLEAR and 101 END, whatever prev is. -/
theorem test_decode_clear :
    decodeCode (CodeCtx.start 2) 0b100 = .codeClear ∧ decodeCode ctxMid 0b100 = .codeClear := by decide
theorem test_decode_end :
    decodeCode (CodeCtx.start 2) 0b101 = .codeEnd ∧ decodeCode ctxMid 0b101 = .codeEnd := by decide
theorem test_decode_first : decodeCode (CodeCtx.start 2) 0b011 = .codeFirst 3 := by decide
theorem test_decode_first_bad : decodeCode (CodeCtx.start 2) 0b110 = .codeFirstBad 6 := by decide
theorem test_decode_known : decodeCode ctxMid 0b001 = .codeKnown 1 := by decide
theorem test_decode_kwkwk : decodeCode ctxMid 0b110 = .codeKwkwk := by decide
theorem test_decode_invalid : decodeCode ctxMid 0b111 = .codeInvalid 7 := by decide

/-- A word of the wrong width, or too wide for its bits, is rejected by name. -/
theorem test_decode_rejects_width : decodeAt ctxMid .code 4 1 = .error (.wrongWidth 4 3) := by decide
theorem test_decode_rejects_value : decodeAt ctxMid .code 3 8 = .error (.valueTooWide 3) := by decide

/-- The host's two interfaces agree on a word of each level. -/
theorem test_table_words :
    decodeTableWord 32 0x107 = some (.reserved4to7 true 3) ∧ decodeTableWord 8 0 = some .terminator ∧
      decodeTableWord 16 4 = some .codeClear ∧ decodeTableWord 64 0 = none := by decide

/-! ### CTRL words, on the examples of 40_commands.md and the STATUS values of 95_test_vectors.md -/

/-- 40_commands.md R146: 0x107 while idle gives STATUS = 0x712 and irq = 1. -/
theorem test_reserved_example :
    nextIs (step (State.reset.withFetchWord 32 0x107)) (fun t => t.statusWord == 0x712 && t.irq) = true := by decide
theorem test_reserved_F : nextIs (exec (.reserved8toF false 7) State.reset)
    (fun t => t.statusWord == 0xF12 && !t.irq) = true := by decide

/-- 40_commands.md R148: 0x100 with DONE = 1 raises irq, and STATUS stays. -/
theorem test_nop_example : nextIs (step (({ State.reset with done := true }).withFetchWord 32 0x100))
    (fun t => t.irq && t.statusWord == 0x2) = true := by decide

/-- 95_test_vectors.md P2 and P1: STATUS in the BUSY window. -/
theorem test_decode_status : nextIs (step (State.reset.withFetchWord 32 0x1)) (fun t => t.statusWord == 0x101) = true := by
  decide
theorem test_composite_status :
    nextIs (step (State.reset.withFetchWord 32 0x2)) (fun t => t.statusWord == 0x201) = true := by decide
theorem test_frame_status :
    nextIs (step (State.reset.withFetchWord 32 0x103)) (fun t => t.statusWord == 0x301 && t.ie) = true := by decide

/-- A request while BUSY sets CMDLOST and leaves the running command (40_commands.md R140). -/
theorem test_request_while_busy : nextIs (exec (.frame false) (starting .frame))
    (fun t => t.statusWord == 0x305 && t.engine == (starting .frame).engine) = true := by decide

/-- SRST (40_commands.md R147): STATUS and FCFG are 0, and a byte in CBUF stays. -/
theorem test_srst : nextIs (exec .srst ({ starting .frame with fcfg := 0x20000 }.storeByte 0x100000 0x8C))
    (fun t => t.statusWord == 0 && t.fcfg == 0 && t.cbuf 0 == 0x8C) = true := by decide

/-- A FRAME of 2 by 1 pixels at column 1 of row 1 of a 4 by 2 screen, and a byte written at each end, inside and out, of
what it could write: IBUF[0] and IBUF[1], FB[5] and FB[6]. -/
def recSmall : CmdRec := { recP1 .frame with fx := 1, fw := 2 }
def written : State :=
  { working (.starting recSmall) .frame with
    mem := [(0x00FFFFFF, 1), (0x01000000, 2), (0x01000001, 3), (0x01000002, 4), (0x40000013, 5), (0x40000014, 6),
      (0x4000001B, 7), (0x4000001C, 8)] }

/-- 93_implementation_defined.md U2: a soft reset makes unspecified what the abandoned command could have written, and
keeps every other location, written or not. -/
theorem test_srst_abandons : nextIs (exec .srst written)
    (fun t => t.mem == [(0x00FFFFFF, 1), (0x01000002, 4), (0x40000013, 5), (0x4000001C, 8)] &&
      [0x00FFFFFF, 0x01000000, 0x01000001, 0x01000002, 0x40000013, 0x40000014, 0x4000001B, 0x4000001C].map t.genAt
        == [0, 1, 1, 0, 0, 1, 1, 0]) = true := by decide

/-! ### LZW codes, on the examples of 41_lzw.md and the vectors of 95_test_vectors.md -/

/-- 41_lzw.md R187: at CLEAR w stays 3 while next goes back from 7 to 6; count is kept. -/
theorem test_clear : nextIs (exec .codeClear (decoding .decode afterSix))
    (fun t => t.engine == .decoding (recP1 .decode) { afterSix with dict := rootDict 2, prev := none }) = true := by
  decide

/-- 41_lzw.md R188: END below N succeeds with the count so far. -/
theorem test_end : nextIs (exec .codeEnd (decoding .decode afterSix))
    (fun t => t.statusWord == 0x102 && t.pixcount == 3 && t.errval == 0) = true := by decide

/-- 41_lzw.md R189: after CLEAR, code 1 emits [1] and next stays 6. -/
theorem test_first : nextIs (exec (.codeFirst 1) (decoding .decode (DecState.init 2)))
    (fun t => t.mem == [(0x01000000, 1)] &&
      t.engine == .decoding (recP1 .decode) { DecState.init 2 with prev := some 1, count := 1 }) = true := by decide

/-- 41_lzw.md R190: CLEAR 0 1: code 1 emits [1] and adds 6 = [0, 1]. -/
theorem test_known : nextIs (exec (.codeKnown 1) (decoding .decode { afterOne with prev := some 0 }))
    (fun t => t.mem == [(0x01000001, 1)] &&
      t.engine == .decoding (recP1 .decode)
        { afterOne with dict := rootDict 2 ++ [some [0, 1]], prev := some 1, count := 2 }) = true := by decide

/-- A code that fills the count ends the decode in the middle of its sequence, and adds no entry
(41_lzw.md R193). -/
theorem test_known_full : nextIs (exec (.codeKnown 6) (decoding .decode afterSix))
    (fun t => t.mem == [(0x01000003, 1)] && t.statusWord == 0x102 && t.pixcount == 4 && t.pos == 2) = true := by decide

/-- 41_lzw.md R191: CLEAR 1 6: code 6 = next emits [1, 1] and adds 6 = [1, 1]. -/
theorem test_kwkwk : nextIs (exec .codeKwkwk (decoding .decode afterOne))
    (fun t => t.mem == [(0x01000001, 1), (0x01000002, 1)] &&
      t.engine == .decoding (recP1 .decode) afterSix) = true := by decide

/-- 95_test_vectors.md V-LZW-E1: code 7 above next = 6. -/
theorem test_invalid : nextIs (exec (.codeInvalid 7) (decoding .decode { afterOne with prev := some 0, p := 3 }))
    (fun t => t.statusWord == 0x162 && t.errval == 0x00060007 && t.pos == 3 && t.pixcount == 1) = true := by decide

/-- 95_test_vectors.md V-LZW-E2: CLEAR 6. -/
theorem test_first_bad : nextIs (exec (.codeFirstBad 6) (decoding .decode { DecState.init 2 with p := 2 }))
    (fun t => t.statusWord == 0x162 && t.errval == 0x00060006 && t.pos == 2 && t.pixcount == 0) = true := by decide

/-- The eighth slot makes next = 2^3 and w = 4 (41_lzw.md R195). -/
theorem test_grow_width : (afterSix.addEntry [1, 1, 2]).w = 4 ∧ (afterSix.addEntry [1, 1, 2]).next = 8 := by decide

/-- 95_test_vectors.md V-LZW-E9: the terminator first. -/
theorem test_terminator : nextIs (step ((decoding .decode (DecState.init 2)).withFetchWord 8 0))
    (fun t => t.statusWord == 0x172 && t.pos == 1 && t.pixcount == 0 && t.errval == 0) = true := by decide

/-- A length byte opens its sub-block, with p past it (41_lzw.md R183). -/
theorem test_subblock : nextIs (step ((decoding .decode (DecState.init 2)).withFetchWord 8 3))
    (fun t => t.engine == .decoding (recP1 .decode) { DecState.init 2 with p := 1, rem := 3 }) = true := by decide

/-- A code placed in the accumulator is the one the next step runs. -/
theorem test_fetch_code : nextIs (step (State.reset.withFetchWord 16 1)) (fun t => t.ibuf 0 == 1) = true := by decide

/-- 95_test_vectors.md V-LZW-E10: len = 0. -/
theorem test_overrun : nextIs (step (working (.decoding { recP1 .decode with len := 0 } (DecState.init 2)) .decode))
    (fun t => t.statusWord == 0x182 && t.pos == 0) = true := by decide

/-- 95_test_vectors.md V-LZW-1, its first data byte 0x8C: the low three bits are CLEAR, the next three are 1
(30_encoding.md R111, R112). -/
theorem test_lsb_first : ((DecState.init 2).takeData 0x8C).code = 4 ∧ ((DecState.init 2).takeData 0x8C).dropCode.code = 1 := by
  decide

/-! ### The compositor -/

/-- 95_test_vectors.md V-CMP-1: Rows(5), Rows(8), Rows(9). -/
theorem test_interlace_rows : interlaceRows 5 = [0, 4, 2, 1, 3] ∧ interlaceRows 8 = [0, 4, 2, 6, 1, 3, 5, 7] ∧
    interlaceRows 9 = [0, 8, 4, 2, 6, 1, 3, 5, 7] := by decide
theorem test_row_of : (List.range 9).map (fun r => rowOf r 9 true) = [0, 8, 4, 2, 6, 1, 3, 5, 7] := by decide

/-- Index 3 of IBUF[0] and the red word of CTAB[3], as in program P1. -/
def indexed (te : Bool) : State :=
  ((working (.compositing { recP1 .composite with te := te, ti := 3 } .zero 0) .composite).setIbuf 0 3).storeWord
    0x100C 0xFF0000FF

/-- 95_test_vectors.md P1: the first index of the frame goes to FB[4]. -/
theorem test_pixel : nextIs (step (indexed false)) (fun t => t.fb 4 == 0xFF0000FF) = true := by decide

/-- 42_compositor.md R235: a transparent index writes nothing. -/
theorem test_pixel_transparent : nextIs (step (indexed true)) (fun t => t.mem == (indexed true).mem) = true := by decide

/-! ### The host port -/

/-- The host's next transaction is t. -/
def withHost (s : State) (t : HostTxn) : State := s.withAgenda (.host t :: s.agenda)

theorem hostDue_withHost (s : State) (t : HostTxn) : (withHost s t).hostDue t := ⟨s.agenda, rfl⟩

/-- 20_memory.md R78: a misaligned word, a half word of CTRL, and the first unmapped address after CTAB. -/
theorem test_bus_errors :
    nextIs (step (withHost State.reset (.read .w32 0x2))) (fun t => t.busResp == .busError) = true ∧
    nextIs (step (withHost State.reset (.write .w16 0x4 0x3))) (fun t => t.busResp == .busError && !t.busy) = true ∧
    nextIs (step (withHost State.reset (.read .w32 0x1400))) (fun t => t.busResp == .busError) = true := by decide

/-- 20_memory.md R77: the byte at the lowest address is bits [7:0]. -/
theorem test_little_endian :
    nextIs (step (withHost State.reset (.write .w32 0x100000 0x02059C03)))
      (fun t => t.cbuf 0 == 0x03 && t.cbuf 3 == 0x02 && t.load .w16 0x100002 == 0x0205) = true := by decide

/-- 10_state.md R21 and R38: ID, and FCFG without its reserved bits. -/
theorem test_registers :
    nextIs (step (withHost State.reset (.read .w32 0x0))) (fun t => t.busResp == .data 0x4C5A5701) = true ∧
    nextIs (step (withHost State.reset (.write .w32 0x18 0xFFFFFFFF))) (fun t => t.fcfg == 0x000FFF03) = true := by decide

/-- 60_exceptions.md R267. -/
theorem test_host_hazard : step (withHost (starting .decode) (.read .w8 0x100000)) = .fault .hostHazard := by rfl

/-- 30_encoding.md R121: SETCFG of program P2. -/
theorem test_setcfg : (Pseudo.setCfg 2 1 1 2).expand = [.write .w32 0x18 0x00020203] := by decide

/-! ### Witnesses: states and operands that meet the hypotheses of the statements -/

/-- Reset meets the invariant. -/
theorem witness_reset_inv : State.reset.Inv :=
  ⟨by decide, List.Pairwise.nil, rfl, by decide, fun r hr => (by cases hr), trivial⟩

theorem working_inv {e : Engine} {op : Op} (he : e.Inv Config.Params.vectors) (ho : ∀ r, e.cmd? = some r → r.op = op) :
    (working e op).Inv :=
  ⟨witness_reset_inv.params, List.Pairwise.nil, rfl, witness_reset_inv.fcfgReserved,
    fun r hr => ⟨rfl, rfl, by rw [ho r hr]; rfl⟩, he⟩

theorem checked_recP1 (op : Op) (h : op ≠ .composite) : DecodeChecked Config.Params.vectors (recP1 op) :=
  ⟨h, by cases op <;> decide, by cases op <;> decide, by cases op <;> decide, by cases op <;> decide,
    fun _ => by cases op <;> decide⟩

theorem witness_starting_inv (op : Op) : (starting op).Inv :=
  working_inv trivial (fun r hr => by simp only [Engine.cmd?_starting, Option.some.injEq] at hr; subst hr; rfl)

theorem init_inv (op : Op) (h : op ≠ .composite) : (DecState.init 2).Inv (recP1 op) :=
  DecState.Inv.init (checked_recP1 op h)

theorem witness_decoding_inv (op : Op) (h : op ≠ .composite) {d : DecState} (hd : d.Inv (recP1 op)) :
    (decoding op d).Inv :=
  working_inv ⟨checked_recP1 op h, hd⟩
    (fun r hr => by simp only [Engine.cmd?_decoding, Option.some.injEq] at hr; subst hr; rfl)

theorem witness_compositing_inv (op : Op) (h : op ≠ .decode) : (compositing op 0).Inv :=
  working_inv ⟨⟨h, by cases op <;> decide, by cases op <;> decide⟩, Nat.zero_le _⟩
    (fun r hr => by simp only [Engine.cmd?_compositing, Option.some.injEq] at hr; subst hr; rfl)

/-- DecodeInvertsEncode, CodeClassesByCondition: contexts that are Ok at both ends of the ranges. -/
theorem witness_ctx_ok : (CodeCtx.start 2).Ok ∧ (CodeCtx.start 8).Ok ∧ ctxMid.Ok ∧
    CodeCtx.Ok { m := 8, w := 12, next := 4096, prev := some 0 } := by decide

/-- CommandMapOfCtrlWords, NopLoadsIeOnly, ReservedCommandCompletesWithBadcmd: a word for each clause. -/
theorem witness_ctrl_words :
    (0x80000000 : Word).getLsbD 31 = true ∧ (0x103 : Word).getLsbD 31 = false ∧
    (0x100 : Word).extractLsb' 0 4 = 0x0#4 ∧ (0x101 : Word).extractLsb' 0 4 = 0x1#4 ∧
    (0x2 : Word).extractLsb' 0 4 = 0x2#4 ∧ (0x103 : Word).extractLsb' 0 4 = 0x3#4 ∧
    (0x7 : Word).extractLsb' 0 4 = BitVec.ofNat 4 (4 + (3 : BitVec 2).toNat) ∧
    (0x8 : Word).extractLsb' 0 4 = BitVec.ofNat 4 (8 + (0 : BitVec 3).toNat) ∧
    (0xF : Word).extractLsb' 0 4 = BitVec.ofNat 4 (8 + (7 : BitVec 3).toNat) := by decide

/-- The engine is due in every state with no turn planned, and in one where its turn is planned. -/
theorem engineDue_working (e : Engine) (op : Op) : (working e op).engineDue := .inl rfl
theorem witness_engineDue_planned : (State.reset.withAgenda [.engine]).engineDue := .inr ⟨[], rfl⟩

/-- StepRunsCtrlWord. -/
theorem witness_step_runs_ctrl : (withHost State.reset (.write .w32 ctrlAddr 0x103)).hostDue (.write .w32 ctrlAddr 0x103) :=
  hostDue_withHost _ _

/-- StepRunsFrameByte, at a length byte 0 and at another. -/
theorem witness_step_runs_frame_byte : (decoding .decode (DecState.init 2)).engineDue ∧
    (DecState.init 2).nacc < (DecState.init 2).w ∧ (DecState.init 2).p < (recP1 .decode).len.toNat ∧
    (DecState.init 2).rem = 0 ∧ ((decoding .decode (DecState.init 2)).storeByte 0x100000 0).cbuf 0 = 0 ∧
    ((decoding .decode (DecState.init 2)).storeByte 0x100000 3).cbuf 0 = 3 :=
  ⟨.inl rfl, by decide, by decide, rfl, by decide, by decide⟩

/-- StepRunsCode: exactly w bits. -/
theorem witness_step_runs_code : (decoding .decode { DecState.init 2 with acc := 4, nacc := 3 }).engineDue ∧
    ({ DecState.init 2 with acc := 4, nacc := 3 } : DecState).w ≤ 3 := ⟨.inl rfl, by decide⟩

/-- Idle and BUSY states, for the CTRL words. -/
theorem witness_idle : State.reset.busy = false := rfl
theorem witness_busy (op : Op) : (starting op).busy = true := rfl

/-- SoftResetClearsRegistersKeepsMemories: an idle machine, which could write nothing, and a FRAME at the ends of what
it could write, inside and out. -/
theorem recSmall_checks : StartChecksPass Config.Params.vectors recSmall :=
  ⟨fun _ => by decide, fun _ => by decide, fun _ => by decide⟩
theorem witness_soft_reset_idle : ∀ r, State.reset.engine.cmd? = some r → ¬CouldWrite State.reset.params r 0x01000000 :=
  fun r h => by cases h
theorem witness_soft_reset_lost : written.engine.cmd? = some recSmall ∧
    CouldWrite written.params recSmall 0x01000001 ∧ CouldWrite written.params recSmall 0x40000014 ∧
    CouldWrite written.params recSmall 0x4000001B :=
  ⟨rfl, ⟨recSmall_checks, .inl ⟨by decide, 1, by decide, by decide⟩⟩,
    ⟨recSmall_checks, .inr ⟨by decide, 1, 1, 0, by decide⟩⟩, ⟨recSmall_checks, .inr ⟨by decide, 2, 1, 3, by decide⟩⟩⟩
theorem witness_soft_reset_kept (a : Nat)
    (h : a ∈ [0x00FFFFFF, 0x01000002, 0x40000013, 0x4000001C]) : ¬CouldWrite written.params recSmall a := by
  rintro ⟨-, ⟨-, o, ho, rfl⟩ | ⟨-, x, y, j, h1, h2, h3, h4, hj, rfl⟩⟩
  · have : o < 2 := ho
    simp [ibufBase] at h; omega
  · have h1 : 1 ≤ x := h1
    have h2 : x < 3 := h2
    have h3 : 1 ≤ y := h3
    have h4 : y < 2 := h4
    have hy : y = 1 := by omega
    subst hy
    simp [fbBase, recSmall, recP1] at h; omega

/-- CommandAfterSoftResetFailsItsCheck. -/
theorem witness_no_agenda : (starting .frame).agenda = [] := rfl

/-- DecodeChecksInOrder, CompositeChecksInOrder, FrameChecksInOrder: the command, and both sides of each bound. -/
theorem witness_start_checks (op : Op) : (starting op).engineDue ∧ (starting op).engine = .starting (recP1 op) ∧
    (recP1 op).op = op := ⟨.inl rfl, rfl, rfl⟩
theorem witness_min_code_bounds : ([1, 2, 8, 9].map fun m : Nat => minCodeOk { recP1 .decode with m := BitVec.ofNat 4 m }) =
    [false, true, true, false] := by decide
theorem witness_cbuf_len_bounds :
    ([8192, 8193].map fun n : Nat => cbufLenOk Config.Params.vectors { recP1 .decode with len := BitVec.ofNat 32 n }) =
      [true, false] := by decide
theorem witness_geometry_bounds :
    ([1024, 1025].map fun n : Nat => screenOk Config.Params.vectors { recP1 .frame with sh := BitVec.ofNat 16 n }) =
      [true, false] ∧
    ([0, 1].map fun n : Nat => frameInScreen { recP1 .frame with fx := BitVec.ofNat 16 n }) = [true, false] ∧
    ([0, 1].map fun n : Nat => screenOk Config.Params.vectors { recP1 .frame with sw := BitVec.ofNat 16 n }) =
      [false, true] := by decide

/-- The decode-phase statements: records of DECODE and of FRAME in the decode phase. -/
theorem witness_decode_phase : (decoding .decode afterOne).engine = .decoding (recP1 .decode) afterOne ∧
    (recP1 .decode).op = .decode ∧ (recP1 .decode).op ≠ .composite ∧
    (decoding .frame afterOne).engine = .decoding (recP1 .frame) afterOne ∧ (recP1 .frame).op = .frame := by
  refine ⟨rfl, rfl, by decide, rfl, rfl⟩

/-- FirstCodeEmitsRoot, at the last root. -/
theorem witness_first : (DecState.init 2).prev = none ∧ (DecState.init 2).count < (recP1 .decode).pixels ∧
    (DecState.init 2).seq 3 = some [BitVec.ofNat 8 3] ∧ 3 < 2 ^ (recP1 .decode).m.toNat := by decide

/-- KnownCodeEmitsItsSequence, for a root and for an entry, both short of N and at N. -/
theorem witness_known : afterSix.prev = some 6 ∧ afterSix.seq 6 = some [1, 1] ∧ afterSix.seq 3 = some [3] ∧
    afterSix.count < (recP1 .decode).pixels ∧ (recP1 .decode).pixels ≤ afterSix.count + 2 ∧
    afterOne.count + 1 < (recP1 .decode).pixels ∧ 6 < afterSix.dict.length ∧ 6 ≠ 2 ^ (recP1 .decode).m.toNat ∧
    6 ≠ 2 ^ (recP1 .decode).m.toNat + 1 := by decide

/-- KwkwkCodeEmitsExtendedPrevious. -/
theorem witness_kwkwk : afterOne.prev = some 1 ∧ afterOne.seq 1 = some [1] ∧ afterOne.count < (recP1 .decode).pixels ∧
    2 ^ (recP1 .decode).m.toNat + 2 ≤ afterOne.dict.length := by decide

/-- BadCodeFailsWithCodeAndNext, at the least and the largest code of each class. -/
theorem witness_bad_code : 4095 < 2 ^ 12 ∧ afterSix.dict.length < 2 ^ 12 ∧
    ((DecState.init 2).prev = none ∧ 2 ^ (recP1 .decode).m.toNat + 2 ≤ 6) ∧
    (afterSix.prev ≠ none ∧ 2 ^ (recP1 .decode).m.toNat + 2 ≤ afterSix.dict.length ∧ afterSix.dict.length < 8 ∧
      afterSix.dict.length < 4095) := by decide

/-- CodeOutsideDecodePhaseIsRefused. -/
theorem witness_code_outside : (Instr.codeEnd).level ≠ .ctrl ∧ (Instr.terminator).level ≠ .ctrl ∧
    ∀ r d, State.reset.engine ≠ .decoding r d := ⟨by decide, by decide, fun _ _ h => by cases h⟩

/-- ByteAtOrPastLenIsOverrun: p = len. -/
theorem witness_overrun : (decoding .decode { DecState.init 2 with p := 5 }).engineDue ∧
    (recP1 .decode).len.toNat ≤ 5 ∧ (DecState.init 2).nacc < (DecState.init 2).w := ⟨.inl rfl, by decide, by decide⟩

/-- CodesAreReadLsbFirst: a data byte is next. -/
theorem witness_data_byte : afterOne.acc < 2 ^ afterOne.nacc ∧ afterOne.nacc < afterOne.w ∧
    afterOne.p < (recP1 .decode).len.toNat ∧ 0 < afterOne.rem := by decide

/-- The decoder with a table of 6 + n slots. -/
def table (n : Nat) : DecState := { afterOne with dict := rootDict 2 ++ List.replicate n (some [0, 0]) }

theorem table_root (n : Nat) : (table n).seq 1 = some [1] := by
  rw [DecState.seq, table, List.getElem?_append_left (by rw [rootDict_length]; decide), rootDict_root (by decide)]; rfl

/-- AddEntryGrowsTableAndWidth and FullTableIsFrozen: tables of 4095 and of 4096 slots, and a KNOWN code that runs. -/
theorem witness_full_table : (table 4089).dict.length = 4095 ∧ (table 4090).dict.length = 4096 ∧
    (decoding .decode (table 4090)).engine = .decoding (recP1 .decode) (table 4090) ∧
    ∃ t, exec (.codeKnown 1) (decoding .decode (table 4090)) = .next t := by
  have hl : ∀ n, (table n).dict.length = 6 + n := fun n => by
    rw [table, List.length_append, rootDict_length, List.length_replicate]; rfl
  refine ⟨hl _, hl _, rfl, ?_⟩
  have hp : (table 4090).prevSeq = some [1] := table_root 4090
  simp only [exec, execCodeKnown]
  rw [inDecode_decoding (r := recP1 .decode) (d := table 4090) rfl]
  simp only [hp, table_root]
  exact ⟨_, rfl⟩

/-- PixelTurnDrawsOrSkips: an opaque and a transparent index. -/
theorem witness_pixel : (indexed false).engineDue ∧ (indexed true).engineDue ∧ 0 < (recP1 .composite).pixels ∧
    (indexed true).ibuf 0 = 3 ∧ ({ recP1 .composite with te := true, ti := 3 } : CmdRec).ti = 3 :=
  ⟨.inl rfl, .inl rfl, by decide, by decide, rfl⟩

/-- CompositePhaseCompletes, for COMPOSITE and FRAME, at i = N. -/
theorem witness_composite_done (op : Op) : (compositing op 4).engineDue ∧ (recP1 op).pixels ≤ 4 :=
  ⟨.inl rfl, by cases op <;> decide⟩

/-- CompositeDrawsTheFrame. -/
theorem witness_composite : (starting .composite).Inv ∧ (starting .composite).agenda = [] ∧
    (recP1 .composite).op = .composite ∧ screenOk (starting .composite).params (recP1 .composite) = true ∧
    frameInScreen (recP1 .composite) = true :=
  ⟨witness_starting_inv _, rfl, rfl, by decide, by decide⟩

/-- DecodeRunsAsLzwDecode. -/
theorem witness_lzw_decode : (starting .decode).Inv ∧ (starting .decode).agenda = [] ∧
    (recP1 .decode).op = .decode ∧ minCodeOk (recP1 .decode) = true ∧
    (recP1 .decode).pixels ≤ (starting .decode).params.maxPixels ∧
    cbufLenOk (starting .decode).params (recP1 .decode) = true :=
  ⟨witness_starting_inv _, rfl, rfl, by decide, by decide, by decide⟩

/-- FrameRunsAsLzwDecodeThenComposite: a FRAME that fails, since its stream ends at once, and one that draws, with the
stream of the example of 40_commands.md R143. -/
def streamed (l : List Byte) : State :=
  { starting .frame with mem := l.mapIdx fun i b => (0x100000 + i, b) }
theorem witness_frame_run : (streamed [0]).Inv ∧ (streamed [0x03, 0x9C, 0x02, 0x05, 0x00]).Inv ∧
    (starting .frame).agenda = [] ∧ (recP1 .frame).op = .frame ∧ minCodeOk (recP1 .frame) = true ∧
    screenOk (starting .frame).params (recP1 .frame) = true ∧ frameInScreen (recP1 .frame) = true ∧
    cbufLenOk (starting .frame).params (recP1 .frame) = true := by
  obtain ⟨h1, -, -, h4, h5, h6⟩ := witness_starting_inv .frame
  exact ⟨⟨h1, by decide, by decide, h4, h5, h6⟩, ⟨h1, by decide, by decide, h4, h5, h6⟩, rfl, rfl, by decide, by decide,
    by decide, by decide⟩
theorem witness_frame_fails : refLzwDecode (streamed [0]).cbuf 2 4 5 =
    some { err := .eod, res := { count := 0, val := 0, pos := 1 }, out := [] } := by decide
theorem witness_frame_draws : refLzwDecode (streamed [0x03, 0x9C, 0x02, 0x05, 0x00]).cbuf 2 4 5 =
    some { err := .none, res := { count := 4, val := 0, pos := 3 }, out := [3, 2, 1, 0] } := by decide

/-- EveryCommandTerminates: BUSY in each phase. -/
theorem witness_terminates : ((starting .frame).Inv ∧ (starting .frame).busy = true) ∧
    ((decoding .frame (DecState.init 2)).Inv ∧ (decoding .frame (DecState.init 2)).busy = true) ∧
    ((compositing .frame 0).Inv ∧ (compositing .frame 0).busy = true) :=
  ⟨⟨witness_starting_inv _, rfl⟩, ⟨witness_decoding_inv _ (by decide) (init_inv _ (by decide)), rfl⟩,
    ⟨witness_compositing_inv _ (by decide), rfl⟩⟩

/-- IllegalAccessIsBusError: one address for each clause of 20_memory.md R78. -/
theorem witness_illegal (n : Width) (a : Nat) (h : legalRegion Config.Params.vectors n a = none) (g : Region) :
    ¬LegalAccess State.reset.params n a g := fun hl => by
  have := legalRegion_iff.2 hl
  rw [show State.reset.params = Config.Params.vectors from rfl, h] at this
  cases this
theorem witness_illegal_addresses :
    legalRegion Config.Params.vectors .w32 0x1400 = none ∧ legalRegion Config.Params.vectors .w8 0x1000 = none ∧
    legalRegion Config.Params.vectors .w16 0x100001 = none ∧ legalRegion Config.Params.vectors .w8 0x102000 = none ∧
    legalRegion { cbufBytes := 3, maxPixels := 3 } .w32 0x100000 = none := by decide

/-- WindowAccessWhileBusyIsHostHazard, WindowReadIsLittleEndian, WindowWriteIsLittleEndian: a legal access of each
window at its last address. -/
theorem witness_legal :
    LegalAccess State.reset.params .w32 0x13FC .ctab ∧ LegalAccess State.reset.params .w8 0x101FFF .cbuf ∧
    LegalAccess State.reset.params .w16 0x01000FFE .ibuf ∧ LegalAccess State.reset.params .w32 0x40003FFC .fb :=
  ⟨legalRegion_iff.1 (by decide), legalRegion_iff.1 (by decide), legalRegion_iff.1 (by decide),
    legalRegion_iff.1 (by decide)⟩
theorem witness_windows_idle_busy (t : HostTxn) : (withHost State.reset t).hostDue t ∧
    (withHost State.reset t).busy = false ∧ (withHost (starting .decode) t).hostDue t ∧
    (withHost (starting .decode) t).busy = true := ⟨hostDue_withHost _ _, rfl, hostDue_withHost _ _, rfl⟩

/-- RegisterReadsAnswerTheirValue, RegisterWritesTakeEffect: the ends of the reserved range. -/
theorem witness_reserved_offsets : (0x034 : Word).toNat % 4 = 0 ∧ (0xFFC : Word).toNat % 4 = 0 ∧
    (0xFFC : Word).toNat ≤ 0xFFC ∧ 0x034 ≤ (0x034 : Word).toNat ∧ 0x020 ≤ (0x020 : Word).toNat := by decide

/-- ResultRegisterReads: an idle state, a COMPOSITE and a DECODE. -/
theorem witness_result_reads : (∀ r, State.reset.engine.cmd? = some r → r.op = .composite) ∧
    (∀ r, (starting .composite).engine.cmd? = some r → r.op = .composite) ∧
    (starting .decode).engine.cmd? = some (recP1 .decode) ∧ (recP1 .decode).op ≠ .composite := by
  refine ⟨fun r h => (by cases h), fun r h => (by cases h; rfl), rfl, by decide⟩

/-- HostReadHasNoSideEffect. -/
theorem witness_host_read : ∃ t, step (withHost State.reset (.read .w32 0x8)) = .next t := ⟨_, rfl⟩

/-- IrqIsDoneAndIe: a W1C word, and a next state of each instruction named. -/
theorem witness_irq : (0x2 : Word).getLsbD 1 = true ∧ State.reset.busy = false ∧
    (∃ t, exec (.decode true) State.reset = .next t) ∧ (∃ t, exec (.nop false) State.reset = .next t) ∧
    (∃ t, exec .srst State.reset = .next t) := ⟨by decide, rfl, ⟨_, rfl⟩, ⟨_, rfl⟩, ⟨_, rfl⟩⟩

/-- HardwareResetState, while a command runs. -/
theorem witness_reset_turn : ((starting .frame).withAgenda [.reset]).agenda = .reset :: [] := rfl

/-- ResetMeetsTheInvariant: both ends of the parameters' ranges. -/
theorem witness_params : Config.Params.InRange { cbufBytes := 1, maxPixels := 1 } ∧
    Config.Params.InRange { cbufBytes := 0x00F00000, maxPixels := 0x30000000 } := by decide

/-- EveryStepKeepsTheInvariant, ErrcodeAndDoneStayZeroWhileBusy, ParametersNeverChange, EngineNeverWritesCbufOrCtab,
FbChangesOnlyInThePhaseThatCannotFail, EngineLeavesHostRegisters: a step in each phase. -/
theorem witness_steps : (starting .frame).Inv ∧ (∃ t, step (starting .frame) = .next t) ∧
    (decoding .frame (DecState.init 2)).Inv ∧
    (∃ t, step (decoding .frame { DecState.init 2 with acc := 4, nacc := 3 }) = .next t) ∧
    (compositing .frame 0).Inv ∧ (∃ t, step (compositing .frame 0) = .next t) ∧
    (∀ r res i, (starting .frame).engine ≠ .compositing r res i) ∧ 0x100000 < ibufBase :=
  ⟨witness_starting_inv _, ⟨_, rfl⟩, witness_decoding_inv _ (by decide) (init_inv _ (by decide)), ⟨_, rfl⟩,
    witness_compositing_inv _ (by decide), ⟨_, rfl⟩, fun _ _ _ h => (by cases h), by decide⟩

/-- StepsStopOnlyAtHostHazard: a step that faults, from a state that meets the invariant. -/
theorem witness_fault : (withHost (starting .decode) (.read .w8 0x100000)).Inv ∧
    step (withHost (starting .decode) (.read .w8 0x100000)) = .fault .hostHazard := by
  obtain ⟨h1, h2, h3, h4, h5, h6⟩ := witness_starting_inv .decode
  exact ⟨⟨h1, h2, h3, h4, h5, h6⟩, rfl⟩

/-- ResultRegistersChangeOnlyAtCompletion: a completion that changes PIXCOUNT, and a reset. -/
theorem witness_completion : (∃ t, step (compositing .frame 4) = .next t ∧ t.pixcount ≠ (compositing .frame 4).pixcount) ∧
    (∃ t, step ((starting .frame).withAgenda [.reset]) = .next t) := ⟨⟨_, rfl, by decide⟩, ⟨_, rfl⟩⟩

/-- DecoderWritesOnlyRootIndices: a step of the decode phase from the invariant that writes an index over another. -/
def writing : State := (decoding .decode { DecState.init 2 with acc := 1, nacc := 3 }).storeByte 0x01000000 0xFF
theorem witness_writing : writing.Inv ∧ writing.engineDue ∧
    ∃ t, step writing = .next t ∧ t.byteAt 0x01000000 ≠ writing.byteAt 0x01000000 := by
  have hd : ({ DecState.init 2 with acc := 1, nacc := 3 } : DecState).Inv (recP1 .decode) := by
    obtain ⟨h1, h2, h3, h4, h5, h6, h7, h8, h9, h10, h11, h12⟩ := init_inv .decode (by decide)
    exact ⟨h1, h2, by decide, by decide, h5, h6, h7, h8, h9, h10, h11, h12⟩
  obtain ⟨h1, h2, h3, h4, h5, h6⟩ := witness_decoding_inv .decode (by decide) hd
  exact ⟨⟨h1, by decide, by decide, h4, h5, h6⟩, .inl rfl, ⟨_, rfl, by decide⟩⟩

end Sys2Proof.Tests
end

/-! ## The host-visible registers (10_state.md) -/

section
/-! SUPPORT. What one step can do, with the guards of each case, said once for the host's port and for the whole
step; and what the registers read as and take. -/

namespace Sys2Proof.Machine

open Sys2Proof

/-! ### Codes and framing bytes outside the decode phase -/

theorem inDecode_refused {s : State} (h : ∀ r d, s.engine ≠ .decoding r d)
    (f : CmdRec → DecState → Host.Outcome State Fault Refusal) : inDecode s f = .refused .noDecode := by
  unfold inDecode
  split
  · rename_i r d he; exact absurd he (h r d)
  · rfl
  · rfl
  · rfl

/-! ### Register reads -/

/-- The commands that report a decode result are DECODE and FRAME. -/
theorem Op.reports_iff {op : Op} : op.reports = true ↔ op ≠ .composite := by
  cases op <;> simp [Op.reports]

/-- The window of 10_state.md R43: a DECODE or FRAME is BUSY. -/
theorem State.resultsUnstable_iff {s : State} :
    s.resultsUnstable = true ↔ ∃ r, s.engine.cmd? = some r ∧ r.op ≠ .composite := by
  unfold State.resultsUnstable
  cases s.engine.cmd? with
  | none => simp
  | some r => simp [Op.reports_iff]

/-- Outside the window a result register reads as its value. -/
theorem State.readResult_stable {s : State} (h : ∀ r, s.engine.cmd? = some r → r.op = .composite) (v : Word) :
    s.readResult v = s.respond (.data v) := by
  have hu : ¬s.resultsUnstable = true := fun hu =>
    have ⟨r, hr, hop⟩ := State.resultsUnstable_iff.1 hu
    hop (h r hr)
  rw [State.readResult, if_neg hu]

/-- The answer of the next free value (log 4). -/
def State.answerFree (s : State) : State :=
  { s.respond (.data (Config.busyResult s.freeCount)) with freeCount := s.freeCount + 1 }

/-- Inside the window a read of a result register, whichever it is, answers the next free value. -/
theorem State.readResult_unstable {s : State} {r : CmdRec} (hr : s.engine.cmd? = some r) (hop : r.op ≠ .composite)
    (v : Word) : s.readResult v = s.answerFree := by
  rw [State.readResult, if_pos (State.resultsUnstable_iff.2 ⟨r, hr, hop⟩), State.answerFree]

/-- A register read answers and changes nothing else, or it answers a free value inside the window. -/
theorem State.readReg_cases (s : State) (g : Reg) :
    (∃ v, s.readReg g = s.respond (.data v)) ∨ (s.resultsUnstable = true ∧ s.readReg g = s.answerFree) := by
  have result (v : Word) : (∃ w, s.readResult v = s.respond (.data w)) ∨
      (s.resultsUnstable = true ∧ s.readResult v = s.answerFree) := by
    unfold State.readResult
    split
    · rename_i hu; exact .inr ⟨hu, rfl⟩
    · exact .inl ⟨v, rfl⟩
  cases g
  case pixcount => exact result _
  case errval => exact result _
  case pos => exact result _
  all_goals exact .inl ⟨_, rfl⟩

/-- CTRL reads as IE at bit 8. -/
theorem State.ctrlWord_eq (s : State) : s.ctrlWord = if s.ie then 0x100 else 0 := by
  unfold State.ctrlWord
  cases s.ie <;> rfl

/-- A bit of STATUS, by its field. -/
theorem State.getLsbD_statusWord (s : State) (i : Nat) : s.statusWord.getLsbD i =
    if i = 0 then s.busy else if i = 1 then s.done else if i = 2 then s.cmdlost else if i < 4 then false
    else if i < 8 then s.errcode.code.getLsbD (i - 4) else if i < 12 then s.lastcmd.getLsbD (i - 8) else false := by
  simp only [State.statusWord, bit, BitVec.getLsbD_append, BitVec.getLsbD_ofBool, BitVec.getLsbD_zero]
  grind

theorem State.extract_errcode_statusWord (s : State) : s.statusWord.extractLsb' 4 4 = s.errcode.code := by
  refine BitVec.eq_of_getLsbD_eq fun i hi => ?_
  rw [BitVec.getLsbD_extractLsb', State.getLsbD_statusWord]
  simp (disch := omega) [hi, if_neg, if_pos]

theorem State.extract_lastcmd_statusWord (s : State) : s.statusWord.extractLsb' 8 4 = s.lastcmd := by
  refine BitVec.eq_of_getLsbD_eq fun i hi => ?_
  rw [BitVec.getLsbD_extractLsb', State.getLsbD_statusWord]
  simp (disch := omega) [hi, if_neg, if_pos]

theorem State.extract_reserved_statusWord (s : State) : s.statusWord.extractLsb' 12 20 = 0 := by
  refine BitVec.eq_of_getLsbD_eq fun i hi => ?_
  rw [BitVec.getLsbD_extractLsb', State.getLsbD_statusWord]
  simp (disch := omega) [hi, if_neg]

/-! ### Register writes -/

/-- The read-only registers and the reserved offsets (10_state.md R20). -/
def Reg.ignoresWrites : Reg → Bool
  | .id | .pixcount | .errval | .pos | .capCbuf | .capPix | .reserved => true
  | .ctrl | .status | .screen | .fpos | .fdim | .fcfg | .cbuflen => false

theorem regAt_ignoresWrites {a : Nat} (h : a = 0 ∨ 0x020 ≤ a) : (regAt a).ignoresWrites = true := by
  rcases h with rfl | h
  · rfl
  · simp (disch := omega) only [regAt, if_neg]
    split_ifs <;> rfl

theorem State.writeReg_of_ignoresWrites {g : Reg} (h : g.ignoresWrites = true) (s : State) (v : Word) :
    s.writeReg v g = .next s := by
  cases g <;> cases h <;> rfl

/-- A store changes memory alone. -/
theorem State.store_eq_withMem (s : State) (n : Width) (a : Nat) (v : Word) : ∃ m, s.store n a v = s.withMem m := by
  cases n <;> exact ⟨_, rfl⟩

/-! ### What a CTRL word can do -/

/-- What a CTRL word does to the state (40_commands.md R140 to R148). -/
inductive CtrlShape (s : State) : State → Prop
  | reset : CtrlShape s s.softReset
  | load (ie : Bool) : CtrlShape s (s.loadIe ie)
  | drop (ie : Bool) (hb : s.busy = true) : CtrlShape s (s.loadIe ie).dropRequest
  | start (ie : Bool) (op : Op) (hb : s.busy = false) :
    CtrlShape s (((s.loadIe ie).accept op.cmd).setEngine (.starting ((s.loadIe ie).latch op)))
  | badcmd (ie : Bool) (c : BitVec 4) (hb : s.busy = false) :
    CtrlShape s { (s.loadIe ie).accept c with errcode := .badcmd, done := true }

theorem CtrlShape.request (s : State) (ie : Bool) (op : Op) : CtrlShape s (s.request ie op) := by
  cases hb : s.busy with
  | true => rw [State.request_busy hb]; exact .drop ie hb
  | false => rw [State.request_idle hb]; exact .start ie op hb

theorem CtrlShape.requestReserved (s : State) (ie : Bool) (c : BitVec 4) :
    CtrlShape s (s.requestReserved ie c) := by
  cases hb : s.busy with
  | true => rw [State.requestReserved_busy hb]; exact .drop ie hb
  | false => rw [State.requestReserved_idle hb]; exact .badcmd ie c hb

theorem exec_ctrl_shape {s t : State} {i : Instr} (hl : i.level = .ctrl) (h : exec i s = .next t) :
    CtrlShape s t := by
  cases i
  case nop ie => cases h; exact .load ie
  case decode ie => cases h; exact .request s ie _
  case composite ie => cases h; exact .request s ie _
  case frame ie => cases h; exact .request s ie _
  case reserved4to7 ie c => cases h; exact .requestReserved s ie _
  case reserved8toF ie c => cases h; exact .requestReserved s ie _
  case srst => cases h; exact .reset
  all_goals cases hl

theorem decodeCtrl_level (v : Word) : (decodeCtrl v).level = .ctrl := by
  unfold decodeCtrl; repeat' split
  all_goals rfl

/-! ### What a host transaction can do -/

/-- What a host transaction that answers a next state does (20_memory.md R75, R76). -/
inductive HostShape (s : State) : State → Prop
  | answer (b : BusResp) : HostShape s (s.respond b)
  | freeValue (hu : s.resultsUnstable = true) : HostShape s s.answerFree
  | config (screen fpos fdim fcfg cbuflen : Word) (hf : fcfg = s.fcfg ∨ ∃ v, fcfg = v &&& fcfgMask) :
    HostShape s { s.respond .written with
      screen := screen, fpos := fpos, fdim := fdim, fcfg := fcfg, cbuflen := cbuflen }
  | status (v : Word) : HostShape s ((s.respond .written).writeStatus v)
  | ctrl (t : State) (h : CtrlShape (s.respond .written) t) : HostShape s t
  | store (n : Width) (a : Nat) (v : Word) (g : Region) (hl : legalRegion s.params n a = some g) (hg : g ≠ .regs)
    (hb : s.busy = false) : HostShape s ((s.respond .written).store n a v)

theorem HostShape.writeReg {s t : State} {v : Word} {g : Reg}
    (h : (s.respond .written).writeReg v g = .next t) : HostShape s t := by
  cases g
  case ctrl => exact .ctrl t (exec_ctrl_shape (decodeCtrl_level v) h)
  case status => cases h; exact .status v
  case screen => cases h; exact .config v s.fpos s.fdim s.fcfg s.cbuflen (.inl rfl)
  case fpos => cases h; exact .config s.screen v s.fdim s.fcfg s.cbuflen (.inl rfl)
  case fdim => cases h; exact .config s.screen s.fpos v s.fcfg s.cbuflen (.inl rfl)
  case fcfg => cases h; exact .config s.screen s.fpos s.fdim _ s.cbuflen (.inr ⟨v, rfl⟩)
  case cbuflen => cases h; exact .config s.screen s.fpos s.fdim s.fcfg v (.inl rfl)
  all_goals cases h; exact .answer _

theorem HostShape.hostRead {s t : State} {n : Width} {addr : Word} (h : s.hostRead n addr = .next t) :
    HostShape s t := by
  unfold State.hostRead at h
  split at h
  · cases h; exact .answer .busError
  · cases h
    rcases s.readReg_cases (regAt addr.toNat) with ⟨v, hr⟩ | ⟨hu, hr⟩ <;> rw [hr]
    · exact .answer _
    · exact .freeValue hu
  · split at h
    · cases h
    · cases h; exact .answer _

theorem HostShape.hostWrite {s t : State} {n : Width} {addr v : Word} (h : s.hostWrite n addr v = .next t) :
    HostShape s t := by
  unfold State.hostWrite at h
  split at h
  · cases h; exact .answer .busError
  · exact .writeReg h
  · rename_i g hg hl
    split at h
    · cases h
    · rename_i hb
      cases h
      exact .store n _ v g hl hg (Bool.eq_false_iff.2 hb)

theorem hostTurn_shape {s t : State} {x : HostTxn} (h : s.hostTurn x = .next t) : HostShape s t := by
  cases x with
  | read n addr => exact .hostRead h
  | write n addr v => exact .hostWrite h

/-! ### What a step can do -/

/-- What a step that answers a next state does: the turn is the reset input's, the host's, or the engine's, which is
idle or has a command to run. -/
theorem step_cases {s t : State} (h : step s = .next t) :
    t = s.turnTaken.hardReset ∨ HostShape s.turnTaken t ∨ (s.engine = .idle ∧ t = s.turnTaken) ∨
      ∃ r, s.engine.cmd? = some r ∧ TurnShape s.turnTaken t r := by
  have engine (hd : s.engineDue) : (s.engine = .idle ∧ t = s.turnTaken) ∨
      ∃ r, s.engine.cmd? = some r ∧ TurnShape s.turnTaken t r :=
    engineTurn_shape ((step_engineDue hd).symm.trans h)
  rcases ha : s.agenda with _ | ⟨turn, rest⟩
  · exact .inr (.inr (engine (.inl ha)))
  · cases turn with
    | host x => exact .inr (.inl (hostTurn_shape ((step_hostDue ⟨rest, ha⟩).symm.trans h)))
    | engine => exact .inr (.inr (engine (.inr ⟨rest, ha⟩)))
    | reset =>
      have hr : step s = .next s.turnTaken.hardReset := by
        simp [step, State.nextTurn, ha, State.turnTaken, State.takeTurn, State.withAgenda]
      cases hr.symm.trans h
      exact .inl rfl

/-! ### The BUSY window of STATUS (10_state.md R28, R29) -/

theorem State.BusyStatus.of_idle {t : State} (h : t.engine = .idle) : t.BusyStatus := by
  intro r hr
  rw [h] at hr
  cases hr

/-- The fact is kept where the same command runs, DONE is not set, and ERRCODE and LASTCMD stay. -/
theorem State.BusyStatus.of_fields {s t : State} (h : s.BusyStatus) (hc : t.engine.cmd? = s.engine.cmd?)
    (hd : s.done = false → t.done = false) (he : t.errcode = s.errcode) (hl : t.lastcmd = s.lastcmd) :
    t.BusyStatus := by
  intro r hr
  obtain ⟨h1, h2, h3⟩ := h r (hc ▸ hr)
  exact ⟨hd h1, he.trans h2, hl.trans h3⟩

theorem State.BusyStatus.turn {s t : State} {r : CmdRec} (h : s.BusyStatus) (hr : s.engine.cmd? = some r)
    (ht : TurnShape s t r) : t.BusyStatus := by
  obtain ⟨m, -, ⟨err, res, rfl⟩ | ⟨e, he, rfl⟩⟩ := ht
  · exact .of_idle rfl
  · exact h.of_fields (he.trans hr.symm) id rfl rfl

theorem State.BusyStatus.ctrl {s t : State} (h : s.BusyStatus) (ht : CtrlShape s t) : t.BusyStatus := by
  cases ht with
  | reset => exact .of_idle rfl
  | load ie => exact h
  | drop ie _ => exact h
  | start ie op _ =>
    intro r hr
    cases hr
    exact ⟨rfl, rfl, rfl⟩
  | badcmd ie c hb => exact .of_idle (State.busy_eq_false.1 hb)

theorem State.BusyStatus.host {s t : State} (h : s.BusyStatus) (ht : HostShape s t) : t.BusyStatus := by
  cases ht with
  | answer b => exact h
  | freeValue _ => exact h
  | config screen fpos fdim fcfg cbuflen _ => exact h
  | status v =>
    have hdone (hd : s.done = false) : ((s.respond .written).writeStatus v).done = false := by simp [hd]
    exact h.of_fields rfl hdone rfl rfl
  | ctrl t ht => exact State.BusyStatus.ctrl (s := s.respond .written) h ht
  | store n a v g _ _ _ =>
    obtain ⟨m, hm⟩ := (s.respond .written).store_eq_withMem n a v
    rw [hm]; exact h

/-! ### The parameters (10_state.md R56) -/

theorem TurnShape.params {s t : State} {r : CmdRec} (h : TurnShape s t r) : t.params = s.params := by
  obtain ⟨m, -, ⟨err, res, rfl⟩ | ⟨e, -, rfl⟩⟩ := h <;> rfl

theorem CtrlShape.params {s t : State} (h : CtrlShape s t) : t.params = s.params := by
  cases h <;> rfl

theorem HostShape.params {s t : State} (h : HostShape s t) : t.params = s.params := by
  cases h with
  | ctrl t h => exact h.params
  | store n a v g _ _ _ =>
    obtain ⟨m, hm⟩ := (s.respond .written).store_eq_withMem n a v
    rw [hm]; rfl
  | _ => rfl

/-! ### The result registers (10_state.md R40 to R42) -/

/-- PIXCOUNT, ERRVAL and POS are as they were. -/
def ResultsKept (s t : State) : Prop := t.pixcount = s.pixcount ∧ t.errval = s.errval ∧ t.pos = s.pos

theorem State.softReset_registers (s : State) : s.softReset.RegistersReset := by simp [State.RegistersReset]

theorem State.hardReset_registers (s : State) : s.hardReset.RegistersReset := by simp [State.RegistersReset]

/-- A COMPOSITE reports nothing at its completion. -/
theorem State.complete_resultsKept {r : CmdRec} (h : r.op = .composite) (s : State) (e : Err) (res : DecResult) :
    ResultsKept s (s.complete r e res) := by simp [ResultsKept, h, Op.reports]

theorem TurnShape.results {s t : State} {r : CmdRec} (h : TurnShape s t r) :
    ResultsKept s t ∨ (r.op ≠ .composite ∧ t.engine = .idle ∧ t.done = true) := by
  obtain ⟨m, -, ⟨err, res, rfl⟩ | ⟨e, -, rfl⟩⟩ := h
  · by_cases hop : r.op = .composite
    · exact .inl (State.complete_resultsKept hop _ err res)
    · exact .inr ⟨hop, rfl, rfl⟩
  · exact .inl ⟨rfl, rfl, rfl⟩

theorem CtrlShape.results {s t : State} (h : CtrlShape s t) :
    ResultsKept s t ∨ (t.RegistersReset ∧ t.engine = .idle) := by
  cases h with
  | reset => exact .inr ⟨s.softReset_registers, rfl⟩
  | _ => exact .inl ⟨rfl, rfl, rfl⟩

theorem HostShape.results {s t : State} (h : HostShape s t) :
    ResultsKept s t ∨ (t.RegistersReset ∧ t.engine = .idle) := by
  cases h with
  | ctrl t h => exact h.results
  | store n a v g _ _ _ =>
    obtain ⟨m, hm⟩ := (s.respond .written).store_eq_withMem n a v
    rw [hm]; exact .inl ⟨rfl, rfl, rfl⟩
  | _ => exact .inl ⟨rfl, rfl, rfl⟩

/-! ### The obligations -/

/-- Settles O41: each register is read as its own case of `readReg`. -/
theorem registerReadsAnswerTheirValue : Obligations.RegisterReadsAnswerTheirValue := by
  unfold Obligations.RegisterReadsAnswerTheirValue
  refine fun s => ⟨?id, ?ctrl, ?screen, ?fpos, ?fdim, ?fcfg, ?cbuflen, ?capCbuf, ?capPix, ?reserved⟩
  case ctrl =>
    intro hd
    have hw : s.turnTaken.ctrlWord = if s.ie then 0x100 else 0 := s.turnTaken.ctrlWord_eq
    rw [step_readReg (by decide) (by decide) hd, ← hw]
    rfl
  case reserved =>
    intro addr hlo hhi h4 hd
    rw [step_readReg hhi h4 hd, regAt_reserved hlo]
    rfl
  all_goals exact fun hd => step_readReg (by decide) (by decide) hd

/-- Settles O42: the three registers share `readResult`, which looks at the running command. -/
theorem resultRegisterReads : Obligations.ResultRegisterReads := by
  unfold Obligations.ResultRegisterReads
  refine fun s => ⟨fun hstable => ?_, fun r addr hr hop haddr hd => ?_⟩
  · have value (v : Word) : s.turnTaken.readResult v = s.turnTaken.respond (.data v) :=
      State.readResult_stable (s := s.turnTaken) hstable v
    refine ⟨fun hd => ?_, fun hd => ?_, fun hd => ?_⟩ <;> rw [step_readReg (by decide) (by decide) hd]
    · exact congrArg _ (value s.pixcount)
    · exact congrArg _ (value s.errval)
    · exact congrArg _ (value s.pos)
  · have free (v : Word) := State.readResult_unstable (s := s.turnTaken) hr hop v
    simp only [List.mem_cons, List.not_mem_nil, or_false] at haddr
    rcases haddr with rfl | rfl | rfl <;> rw [step_readReg (by decide) (by decide) hd]
    · exact congrArg _ (free s.pixcount)
    · exact congrArg _ (free s.errval)
    · exact congrArg _ (free s.pos)

/-- Settles O43, by the place of each field in the word. -/
theorem statusReadsItsFields : Obligations.StatusReadsItsFields := by
  unfold Obligations.StatusReadsItsFields
  refine ⟨fun s hd => ⟨s.statusWord, step_readReg (by decide) (by decide) hd, ?_⟩,
    rfl, rfl, rfl, rfl, rfl, rfl, rfl, rfl, rfl⟩
  have bits := s.getLsbD_statusWord
  exact ⟨bits 0, bits 1, bits 2, bits 3, s.extract_errcode_statusWord, s.extract_lastcmd_statusWord,
    s.extract_reserved_statusWord⟩

/-- Settles O44: each register is written as its own case of `writeReg`. -/
theorem registerWritesTakeEffect : Obligations.RegisterWritesTakeEffect := by
  unfold Obligations.RegisterWritesTakeEffect
  refine fun s v => ⟨?screen, ?fpos, ?fdim, ?fcfg, ?cbuflen, ?status, ?readOnly⟩
  case status =>
    intro hd
    have clear (b c : Bool) : (b && !c) = if c then false else b := by cases b <;> cases c <;> rfl
    rw [step_writeReg (by decide) (by decide) hd, ← clear, ← clear]
    rfl
  case readOnly =>
    intro addr hrange h4 hd
    rw [step_writeReg (by omega) h4 hd, State.writeReg_of_ignoresWrites (regAt_ignoresWrites (hrange.imp id And.left))]
    rfl
  all_goals exact fun hd => step_writeReg (by decide) (by decide) hd

/-- Settles O52, by what each kind of turn does to DONE, ERRCODE, LASTCMD and the running command. -/
theorem errcodeAndDoneStayZeroWhileBusy : Obligations.ErrcodeAndDoneStayZeroWhileBusy := by
  unfold Obligations.ErrcodeAndDoneStayZeroWhileBusy
  intro s t hs h
  have hs' : s.turnTaken.BusyStatus := hs
  rcases step_cases h with rfl | host | ⟨-, rfl⟩ | ⟨r, hr, turn⟩
  · exact .of_idle rfl
  · exact hs'.host host
  · exact hs'
  · exact hs'.turn hr turn

/-- Settles O53, by what each kind of turn does to the parameters. -/
theorem parametersNeverChange : Obligations.ParametersNeverChange := by
  unfold Obligations.ParametersNeverChange
  intro s t h
  rcases step_cases h with rfl | host | ⟨-, rfl⟩ | ⟨r, -, turn⟩
  · rfl
  · exact host.params
  · rfl
  · exact turn.params

/-- Settles O57, by what each kind of turn does to the result registers. -/
theorem resultRegistersChangeOnlyAtCompletion : Obligations.ResultRegistersChangeOnlyAtCompletion := by
  unfold Obligations.ResultRegistersChangeOnlyAtCompletion
  intro s t h
  rcases step_cases h with rfl | host | ⟨-, rfl⟩ | ⟨r, hr, turn⟩
  · exact .inr (.inl ⟨s.turnTaken.hardReset_registers, rfl⟩)
  · exact host.results.imp id .inl
  · exact .inl ⟨rfl, rfl, rfl⟩
  · exact turn.results.imp id fun done => .inr ⟨r, hr, done⟩

/-- Settles O26: every meaning of a code or a framing byte goes through `inDecode`. -/
theorem codeOutsideDecodePhaseIsRefused : Obligations.CodeOutsideDecodePhaseIsRefused := by
  unfold Obligations.CodeOutsideDecodePhaseIsRefused
  intro s i hl h
  have refused := inDecode_refused h
  cases i
  case codeClear => exact refused _
  case codeEnd => exact refused _
  case codeFirst c => exact refused _
  case codeFirstBad c => exact refused _
  case codeKnown c => exact refused _
  case codeKwkwk => exact refused _
  case codeInvalid c => exact refused _
  case subblock len => exact refused _
  case terminator => exact refused _
  all_goals exact absurd rfl hl

end Sys2Proof.Machine
end

/-! ## The host's accesses and the engine's footprint (20_memory.md) -/

section
/-! SUPPORT. A host access by its legality: a bus error, or a window access and the bytes it moves; and the bytes
that the engine cannot reach. -/

namespace Sys2Proof.Machine

open Sys2Proof

/-! ### An access that is not legal -/

theorem State.hostRead_illegal {s : State} {n : Width} {addr : Word} (h : ∀ g, ¬LegalAccess s.params n addr.toNat g) :
    s.hostRead n addr = .next (s.respond .busError) := by
  simp only [State.hostRead, legalRegion_eq_none h]

theorem State.hostWrite_illegal {s : State} {n : Width} {addr : Word} (h : ∀ g, ¬LegalAccess s.params n addr.toNat g)
    (v : Word) : s.hostWrite n addr v = .next (s.respond .busError) := by
  simp only [State.hostWrite, legalRegion_eq_none h]

/-! ### A legal access to a memory window -/

/-- A legal window read is the hazard while BUSY, and loads while idle. -/
theorem State.hostRead_window {s : State} {n : Width} {addr : Word} {g : Region}
    (hl : LegalAccess s.params n addr.toNat g) (hg : g ≠ .regs) :
    s.hostRead n addr =
      if s.busy then .fault .hostHazard else .next (s.respond (.data (s.load n addr.toNat))) := by
  have hl' := legalRegion_iff.2 hl
  cases g
  case regs => exact absurd rfl hg
  all_goals simp only [State.hostRead, hl']

/-- A legal window write is the hazard while BUSY, and stores while idle. -/
theorem State.hostWrite_window {s : State} {n : Width} {addr : Word} {g : Region}
    (hl : LegalAccess s.params n addr.toNat g) (hg : g ≠ .regs) (v : Word) :
    s.hostWrite n addr v =
      if s.busy then .fault .hostHazard else .next ((s.respond .written).store n addr.toNat v) := by
  have hl' := legalRegion_iff.2 hl
  cases g
  case regs => exact absurd rfl hg
  all_goals simp only [State.hostWrite, hl']

/-! ### The bytes of a load and of a store (20_memory.md R77) -/

/-- A load holds the addressed bytes, the one at the lowest address in its low bits. -/
theorem State.extract_load (s : State) {n : Width} {j : Nat} (hj : j < n.bytes) (a : Nat) :
    (s.load n a).extractLsb' (8 * j) 8 = s.byteAt (a + j) := by
  refine BitVec.eq_of_getLsbD_eq fun i hi => ?_
  cases n <;> simp only [Width.bytes] at hj <;> interval_cases j
  all_goals
    simp (disch := omega) only [State.load, State.halfAt, State.wordAt, BitVec.getLsbD_extractLsb',
      BitVec.truncate_eq_setWidth, BitVec.getLsbD_setWidth, BitVec.getLsbD_append, if_pos, if_neg, decide_eq_true,
      Bool.true_and]
    congr 1
    omega

/-- A load is zero-extended. -/
theorem State.load_lt (s : State) (n : Width) (a : Nat) : (s.load n a).toNat < 2 ^ (8 * n.bytes) := by
  cases n
  case w8 => exact (BitVec.toNat_setWidth ..).trans_lt ((Nat.mod_le ..).trans_lt (s.byteAt a).isLt)
  case w16 => exact (BitVec.toNat_setWidth ..).trans_lt ((Nat.mod_le ..).trans_lt (s.halfAt a).isLt)
  case w32 => exact (s.wordAt a).isLt

/-- A store is read back bytewise, lowest byte first. -/
theorem State.byteAt_store_inside (s : State) {n : Width} {j : Nat} (hj : j < n.bytes) (a : Nat) (v : Word) :
    (s.store n a v).byteAt (a + j) = v.extractLsb' (8 * j) 8 := by
  cases n <;> simp only [Width.bytes] at hj <;> interval_cases j
  case w8 => simp [State.store, State.byteAt_storeByte]
  all_goals simp [State.store, State.byteAt_storeHalf, State.byteAt_storeWord]

theorem State.byteAt_store_outside (s : State) (n : Width) {a b : Nat} (h : b < a ∨ a + n.bytes ≤ b) (v : Word) :
    (s.store n a v).byteAt b = s.byteAt b := by
  cases n <;> simp only [Width.bytes] at h
  case w8 => rw [State.store, State.byteAt_storeByte, if_neg (by omega)]
  case w16 => rw [State.store, State.byteAt_storeHalf, if_neg (by omega), if_neg (by omega)]
  case w32 => exact s.byteAt_storeWord_outside a v b h

/-! ### A host read -/

/-- The answer to a read: a value or BUS_ERROR (20_memory.md R75). -/
theorem State.hostRead_cases {s t : State} {n : Width} {addr : Word} (h : s.hostRead n addr = .next t) :
    t = s.respond .busError ∨ (∃ v, t = s.respond (.data v)) ∨ t = s.answerFree := by
  unfold State.hostRead at h
  split at h
  · cases h; exact .inl rfl
  · cases h; exact .inr ((s.readReg_cases _).imp id And.right)
  · split at h <;> cases h
    exact .inr (.inl ⟨_, rfl⟩)

/-! ### The bytes below IBUF -/

/-- A byte depends on what is written at its own address. -/
theorem State.byteAt_withMem {s : State} {m : Memory} {a : Nat} (h : Memory.read? m a = s.mem.read? a) :
    (s.withMem m).byteAt a = s.byteAt a := by
  simp only [State.byteAt, State.withMem_mem, h, State.genAt, State.withMem_losses]

theorem TurnShape.byteAt_below {s t : State} {r : CmdRec} (h : TurnShape s t r) {a : Nat} (ha : a < ibufBase) :
    t.byteAt a = s.byteAt a := by
  obtain ⟨m, hm, ⟨err, res, rfl⟩ | ⟨e, -, rfl⟩⟩ := h
  · rw [State.byteAt_complete, State.byteAt_withMem (hm a ha)]
  · rw [State.byteAt_setEngine, State.byteAt_withMem (hm a ha)]

/-! ### The obligations -/

/-- Settles O6: CTRL is an aligned word of the register block, so its write is `writeReg`'s own case. -/
theorem stepRunsCtrlWord : Obligations.StepRunsCtrlWord := by
  unfold Obligations.StepRunsCtrlWord
  exact fun s v hd => step_writeReg (by decide) (by decide) hd

/-- Settles O37: with no legal region, reads and writes both take the bus-error case, which does not look at BUSY. -/
theorem illegalAccessIsBusError : Obligations.IllegalAccessIsBusError := by
  unfold Obligations.IllegalAccessIsBusError
  refine fun s n addr v h => ⟨fun hd => ?_, fun hd => ?_⟩ <;> refine (step_hostDue hd).trans ?_
  · exact State.hostRead_illegal (s := s.turnTaken) h
  · exact State.hostWrite_illegal (s := s.turnTaken) h v

/-- Settles O39, by the bits of a load. -/
theorem windowReadIsLittleEndian : Obligations.WindowReadIsLittleEndian := by
  unfold Obligations.WindowReadIsLittleEndian
  intro s n addr g hl hg hidle hd
  have hread := State.hostRead_window (s := s.turnTaken) hl hg
  rw [State.turnTaken_busy, hidle] at hread
  exact ⟨s.load n addr.toNat, (step_hostDue hd).trans hread, fun j hj => s.extract_load hj _, s.load_lt n _⟩

/-- Settles O40, by the bytes inside and outside a store. -/
theorem windowWriteIsLittleEndian : Obligations.WindowWriteIsLittleEndian := by
  unfold Obligations.WindowWriteIsLittleEndian
  intro s n addr v g hl hg hidle hd
  have hwrite := State.hostWrite_window (s := s.turnTaken) hl hg v
  rw [State.turnTaken_busy, hidle] at hwrite
  refine ⟨_, (step_hostDue hd).trans hwrite, ?_, fun j hj => ?_, fun a ha => ?_⟩
  · obtain ⟨m, hm⟩ := (s.turnTaken.respond .written).store_eq_withMem n addr.toNat v
    rw [hm]; rfl
  · exact State.byteAt_store_inside _ hj _ v
  · exact State.byteAt_store_outside (s.turnTaken.respond .written) n ha v

/-- Settles O45, by the three answers a read can have. -/
theorem hostReadHasNoSideEffect : Obligations.HostReadHasNoSideEffect := by
  unfold Obligations.HostReadHasNoSideEffect
  intro s t n addr hd h
  rcases State.hostRead_cases ((step_hostDue hd).symm.trans h) with rfl | ⟨v, rfl⟩ | rfl
  all_goals exact ⟨rfl, nofun, nofun⟩

/-- Settles O54: an idle engine changes nothing, and a turn of a command writes from IBUF on. -/
theorem engineNeverWritesCbufOrCtab : Obligations.EngineNeverWritesCbufOrCtab := by
  unfold Obligations.EngineNeverWritesCbufOrCtab
  intro s t a hd h ha
  rcases engineTurn_shape ((step_engineDue hd).symm.trans h) with ⟨-, rfl⟩ | ⟨r, -, turn⟩
  · exact s.byteAt_turnTaken a
  · exact turn.byteAt_below ha

end Sys2Proof.Machine
end

/-! ## Encodings (30_encoding.md) -/

section
/-! SUPPORT. The encoder and the decoders of the three levels, one against the other: the fields of a CTRL word, the
command map, the code classes, and the value of a well-formed instruction. -/

namespace Sys2Proof

/-! ### The fields of a CTRL word (R100) -/

/-- A bit of the word that the encoder builds: CMD in [3:0], IE at 8, and 0 elsewhere. -/
theorem getLsbD_ctrlWord (ie : Bool) (c : BitVec 4) (i : Nat) :
    (ctrlWord ie c).getLsbD i = if i < 4 then c.getLsbD i else decide (i = 8) && ie := by
  have hbit : (if ie then 0x100 else 0 : Word).getLsbD i = (decide (i = 8) && ie) := by
    cases ie
    · simp
    · rw [if_pos rfl, show (0x100 : Word) = BitVec.twoPow 32 8 from rfl, BitVec.getLsbD_twoPow]
      simp [eq_comm]
  have hc : 4 ≤ i → c.getLsbD i = false := BitVec.getLsbD_of_ge c i
  simp only [ctrlWord, BitVec.getLsbD_or, hbit, BitVec.truncate_eq_setWidth, BitVec.getLsbD_setWidth]
  split
  · have h8 : i ≠ 8 := by omega
    have h32 : i < 32 := by omega
    simp [h8, h32]
  · simp [hc (by omega)]

@[simp] theorem ctrlSrst_ctrlWord (ie : Bool) (c : BitVec 4) : ctrlSrst (ctrlWord ie c) = false := by
  rw [ctrlSrst, getLsbD_ctrlWord]; rfl

@[simp] theorem ctrlIe_ctrlWord (ie : Bool) (c : BitVec 4) : ctrlIe (ctrlWord ie c) = ie := by
  rw [ctrlIe, getLsbD_ctrlWord]; rfl

@[simp] theorem ctrlCmd_ctrlWord (ie : Bool) (c : BitVec 4) : ctrlCmd (ctrlWord ie c) = c := by
  refine BitVec.eq_of_getLsbD_eq fun i hi => ?_
  simp only [ctrlCmd, BitVec.getLsbD_extractLsb', Nat.zero_add, getLsbD_ctrlWord, hi, decide_true, Bool.true_and,
    if_true]

/-- Encoding the fields that are looked at clears the bits that are not: [30:9] and [7:4]. -/
theorem ctrlWord_fields (v : Word) : ctrlWord (ctrlIe v) (ctrlCmd v) = v &&& 0x10F#32 := by
  have hmask : ∀ i < 32, (0x10F#32).getLsbD i = (decide (i < 4) || decide (i = 8)) := by decide
  refine BitVec.eq_of_getLsbD_eq fun i hi => ?_
  rw [getLsbD_ctrlWord, BitVec.getLsbD_and, hmask i hi]
  split
  · simp [ctrlCmd, *]
  · rcases eq_or_ne i 8 with rfl | h8
    · simp [ctrlIe]
    · simp [*]

/-! ### The command map (R101) -/

/-- The instruction of a command code and IE, in a word whose SRST is 0. -/
def commandOf (ie : Bool) (c : BitVec 4) : Instr :=
  if c = 0 then .nop ie
  else if c = 1 then .decode ie
  else if c = 2 then .composite ie
  else if c = 3 then .frame ie
  else if c.getLsbD 3 then .reserved8toF ie (c.extractLsb' 0 3)
  else .reserved4to7 ie (c.extractLsb' 0 2)

theorem decodeCtrl_srst {v : Word} (h : ctrlSrst v = true) : decodeCtrl v = .srst := if_pos h

theorem decodeCtrl_command {v : Word} (h : ctrlSrst v = false) : decodeCtrl v = commandOf (ctrlIe v) (ctrlCmd v) :=
  if_neg (Bool.eq_false_iff.1 h)

/-- The command codes: the four commands, and the two ranges of reserved ones. -/
theorem command_cases : ∀ c : BitVec 4,
    c = 0 ∨ c = 1 ∨ c = 2 ∨ c = 3 ∨ (∃ k : BitVec 2, c = 1#2 ++ k) ∨ ∃ k : BitVec 3, c = 1#1 ++ k := by decide

theorem commandOf_reserved4to7 : ∀ (ie : Bool) (k : BitVec 2), commandOf ie (1#2 ++ k) = .reserved4to7 ie k := by
  decide

theorem commandOf_reserved8toF : ∀ (ie : Bool) (k : BitVec 3), commandOf ie (1#1 ++ k) = .reserved8toF ie k := by
  decide

theorem ofNat_reserved4to7 : ∀ k : BitVec 2, BitVec.ofNat 4 (4 + k.toNat) = 1#2 ++ k := by decide

theorem ofNat_reserved8toF : ∀ k : BitVec 3, BitVec.ofNat 4 (8 + k.toNat) = 1#1 ++ k := by decide

/-- A command's instruction encodes to the word of its code and IE. -/
theorem encodeValue_commandOf (x : CodeCtx) (ie : Bool) (c : BitVec 4) :
    encodeValue x (commandOf ie c) = (ctrlWord ie c).toNat := by
  rcases command_cases c with rfl | rfl | rfl | rfl | ⟨k, rfl⟩ | ⟨k, rfl⟩
  case inr.inr.inr.inr.inl => rw [commandOf_reserved4to7, encodeValue]
  case inr.inr.inr.inr.inr => rw [commandOf_reserved8toF, encodeValue]
  all_goals rfl

/-- The word of a code and IE, as the number that the encoder gives, decodes to the command. -/
theorem decodeCtrl_ctrlWord (ie : Bool) (c : BitVec 4) :
    decodeCtrl (BitVec.ofNat 32 (ctrlWord ie c).toNat) = commandOf ie c := by
  rw [BitVec.ofNat_toNat, BitVec.setWidth_eq, decodeCtrl_command (ctrlSrst_ctrlWord ie c), ctrlIe_ctrlWord,
    ctrlCmd_ctrlWord]

/-! ### The code classes (R113) -/

/-- The conditions of the seven classes, each complete in itself, where the table takes the first row that matches. -/
inductive CodeClass (x : CodeCtx) (c : Nat) : Instr → Prop
  | clear (hc : c = 2 ^ x.m) : CodeClass x c .codeClear
  | endCode (hc : c = 2 ^ x.m + 1) : CodeClass x c .codeEnd
  | first (hp : x.prev = none) (hc : c < 2 ^ x.m) : CodeClass x c (.codeFirst c)
  | firstBad (hp : x.prev = none) (hc : 2 ^ x.m + 2 ≤ c) : CodeClass x c (.codeFirstBad c)
  | known (hp : x.prev ≠ none) (hc : c < x.next) (h1 : c ≠ 2 ^ x.m) (h2 : c ≠ 2 ^ x.m + 1) :
    CodeClass x c (.codeKnown c)
  | kwkwk (hp : x.prev ≠ none) (hc : c = x.next) (h1 : c ≠ 2 ^ x.m) (h2 : c ≠ 2 ^ x.m + 1) : CodeClass x c .codeKwkwk
  | invalid (hp : x.prev ≠ none) (hc : x.next < c) (h1 : c ≠ 2 ^ x.m) (h2 : c ≠ 2 ^ x.m + 1) :
    CodeClass x c (.codeInvalid c)

theorem decodeCode_class (x : CodeCtx) (c : Nat) : CodeClass x c (decodeCode x c) := by
  unfold decodeCode
  split_ifs with h1 h2 hp hc hlt heq
  · exact .clear h1
  · exact .endCode h2
  · exact .first hp hc
  · exact .firstBad hp (by omega)
  · exact .known hp hlt h1 h2
  · exact .kwkwk hp heq h1 h2
  · exact .invalid hp (by omega) h1 h2

/-- The classes exclude each other: the one whose condition holds is the one decoded. -/
theorem CodeClass.decodeCode_eq {x : CodeCtx} {c : Nat} {i : Instr} (h : CodeClass x c i) : decodeCode x c = i := by
  unfold decodeCode
  cases h with
  | clear hc => rw [if_pos hc]
  | endCode hc => rw [if_neg (by omega), if_pos hc]
  | first hp hc => rw [if_neg (by omega), if_neg (by omega), if_pos hp, if_pos hc]
  | firstBad hp hc => rw [if_neg (by omega), if_neg (by omega), if_pos hp, if_neg (by omega)]
  | known hp hc h1 h2 => rw [if_neg h1, if_neg h2, if_neg hp, if_pos hc]
  | kwkwk hp hc h1 h2 => rw [if_neg h1, if_neg h2, if_neg hp, if_neg (by omega), if_pos hc]
  | invalid hp hc h1 h2 => rw [if_neg h1, if_neg h2, if_neg hp, if_neg (by omega), if_neg (by omega)]

theorem decodeCode_eq_iff {x : CodeCtx} {c : Nat} {i : Instr} : decodeCode x c = i ↔ CodeClass x c i :=
  ⟨fun h => h ▸ decodeCode_class x c, CodeClass.decodeCode_eq⟩

/-- There is no class beside the seven. -/
theorem CodeClass.mem {x : CodeCtx} {c : Nat} {i : Instr} (h : CodeClass x c i) :
    i ∈ [Instr.codeClear, .codeEnd, .codeFirst c, .codeFirstBad c, .codeKnown c, .codeKwkwk, .codeInvalid c] := by
  cases h <;> simp

/-! ### Decoding at a level -/

/-- The instruction of the level that a value of the right width holds. -/
def Level.instr (x : CodeCtx) (v : Nat) : Level → Instr
  | .ctrl => decodeCtrl (BitVec.ofNat 32 v)
  | .code => decodeCode x v
  | .frameByte => decodeFrameByte (BitVec.ofNat 8 v)

/-- A value that fits in the level's bits is decoded. -/
theorem decodeAt_of_lt {x : CodeCtx} {l : Level} {v : Nat} (h : v < 2 ^ l.bits x) :
    decodeAt x l (l.bits x) v = .ok (l.instr x v) := by
  rw [decodeAt.eq_def, if_neg (fun hne => hne rfl), if_neg (Nat.not_le.2 h)]
  cases l <;> rfl

/-- The encoding of a well-formed instruction fits in its level's bits. -/
theorem encodeValue_lt {x : CodeCtx} : ∀ {i : Instr}, i.wf x = true → encodeValue x i < 2 ^ i.level.bits x
  | .nop ie => Laws.EncodeFits.nop ie x
  | .decode ie => Laws.EncodeFits.decode ie x
  | .composite ie => Laws.EncodeFits.composite ie x
  | .frame ie => Laws.EncodeFits.frame ie x
  | .reserved4to7 ie c => Laws.EncodeFits.reserved4to7 ie c x
  | .reserved8toF ie c => Laws.EncodeFits.reserved8toF ie c x
  | .srst => Laws.EncodeFits.srst x
  | .codeClear => Laws.EncodeFits.codeClear x
  | .codeEnd => Laws.EncodeFits.codeEnd x
  | .codeFirst c => Laws.EncodeFits.codeFirst c x
  | .codeFirstBad c => Laws.EncodeFits.codeFirstBad c x
  | .codeKnown c => Laws.EncodeFits.codeKnown c x
  | .codeKwkwk => Laws.EncodeFits.codeKwkwk x
  | .codeInvalid c => Laws.EncodeFits.codeInvalid c x
  | .subblock len => Laws.EncodeFits.subblock len x
  | .terminator => Laws.EncodeFits.terminator x

/-- A well-formed code satisfies the condition of its class. -/
theorem codeClass_of_wf {x : CodeCtx} {i : Instr} (hl : i.level = .code) (h : i.wf x = true) :
    CodeClass x (encodeValue x i) i := by
  cases i
  case codeClear => exact .clear rfl
  case codeEnd => exact .endCode rfl
  case codeFirst c =>
    obtain ⟨-, hp, hc⟩ := of_decide_eq_true h
    exact .first hp hc
  case codeFirstBad c =>
    obtain ⟨-, hp, hc, -⟩ := of_decide_eq_true h
    exact .firstBad hp hc
  case codeKnown c =>
    obtain ⟨-, hp, hc, h1, h2, -⟩ := of_decide_eq_true h
    exact .known hp hc h1 h2
  case codeKwkwk =>
    obtain ⟨⟨-, -, ⟨hn, -⟩, -⟩, hp, -⟩ := of_decide_eq_true h
    exact .kwkwk hp rfl (by simp only [encodeValue]; omega) (by simp only [encodeValue]; omega)
  case codeInvalid c =>
    obtain ⟨⟨-, -, ⟨hn, -⟩, -⟩, hp, hc, -⟩ := of_decide_eq_true h
    exact .invalid hp hc (by simp only [encodeValue]; omega) (by simp only [encodeValue]; omega)
  all_goals cases hl

/-- The value of a well-formed instruction's encoding holds that instruction. -/
theorem instr_encodeValue {x : CodeCtx} {i : Instr} (h : i.wf x = true) : i.level.instr x (encodeValue x i) = i := by
  cases i
  case nop ie => exact decodeCtrl_ctrlWord ie 0
  case decode ie => exact decodeCtrl_ctrlWord ie 1
  case composite ie => exact decodeCtrl_ctrlWord ie 2
  case frame ie => exact decodeCtrl_ctrlWord ie 3
  case reserved4to7 ie k => exact (decodeCtrl_ctrlWord ie _).trans (commandOf_reserved4to7 ie k)
  case reserved8toF ie k => exact (decodeCtrl_ctrlWord ie _).trans (commandOf_reserved8toF ie k)
  case srst => exact decodeCtrl_srst (v := 0x80000000) rfl
  case subblock len =>
    have hlen : len ≠ 0 := of_decide_eq_true h
    simp only [Instr.level, Level.instr, encodeValue, BitVec.ofNat_toNat, BitVec.setWidth_eq, decodeFrameByte, hlen,
      if_false]
  case terminator => rfl
  all_goals exact (codeClass_of_wf rfl h).decodeCode_eq

/-! ### The obligations -/

/-- Settles O1: the encoding fits in its level's bits, and the value at that level holds the instruction. -/
theorem decodeInvertsEncode : Obligations.DecodeInvertsEncode := by
  unfold Obligations.DecodeInvertsEncode
  intro x i h
  calc decodeAt x i.level (encode x i).1 (encode x i).2
    _ = .ok (i.level.instr x (encodeValue x i)) := decodeAt_of_lt (encodeValue_lt h)
    _ = .ok i := by rw [instr_encodeValue h]

/-- Settles O2: the command's instruction encodes to the word of the fields, which has the other bits 0. -/
theorem ctrlWordReencodesWithoutIgnoredBits : Obligations.CtrlWordReencodesWithoutIgnoredBits := by
  unfold Obligations.CtrlWordReencodesWithoutIgnoredBits
  intro x v
  split
  · rename_i h
    rw [decodeCtrl_srst h]; rfl
  · rename_i h
    have hs : ctrlSrst v = false := Bool.eq_false_iff.2 h
    rw [decodeCtrl_command hs, encodeValue_commandOf, ctrlWord_fields]

/-- Settles O3, by the command code of the word. -/
theorem commandMapOfCtrlWords : Obligations.CommandMapOfCtrlWords := by
  unfold Obligations.CommandMapOfCtrlWords
  refine fun v => ⟨decodeCtrl_srst, fun hs => ?_⟩
  have command {c : BitVec 4} (hc : v.extractLsb' 0 4 = c) : decodeCtrl v = commandOf (v.getLsbD 8) c :=
    hc ▸ decodeCtrl_command hs
  refine ⟨command, command, command, command, fun k hk => ?_, fun k hk => ?_⟩
  · rw [command hk, ofNat_reserved4to7, commandOf_reserved4to7]
  · rw [command hk, ofNat_reserved8toF, commandOf_reserved8toF]

/-- Settles O4: each class by its condition, where a decoder context has `next` past CLEAR and END. -/
theorem codeClassesByCondition : Obligations.CodeClassesByCondition := by
  unfold Obligations.CodeClassesByCondition
  rintro x c ⟨-, -, ⟨hn, -⟩, -⟩
  simp only [decodeCode_eq_iff]
  exact ⟨⟨fun | .clear hc => hc, .clear⟩, ⟨fun | .endCode hc => hc, .endCode⟩,
    ⟨fun | .first hp hc => ⟨hp, hc⟩, fun ⟨hp, hc⟩ => .first hp hc⟩,
    ⟨fun | .firstBad hp hc => ⟨hp, hc⟩, fun ⟨hp, hc⟩ => .firstBad hp hc⟩,
    ⟨fun | .known hp hc h1 h2 => ⟨hp, hc, h1, h2⟩, fun ⟨hp, hc, h1, h2⟩ => .known hp hc h1 h2⟩,
    ⟨fun | .kwkwk hp hc _ _ => ⟨hp, hc⟩, fun ⟨hp, hc⟩ => .kwkwk hp hc (by omega) (by omega)⟩,
    ⟨fun | .invalid hp hc _ _ => ⟨hp, hc⟩, fun ⟨hp, hc⟩ => .invalid hp hc (by omega) (by omega)⟩,
    (decodeCode_class x c).mem⟩

/-- Settles O5: the decoders evaluated on nine words. -/
theorem sampleWordsDecode : Obligations.SampleWordsDecode := by
  unfold Obligations.SampleWordsDecode
  decide

end Sys2Proof
end

/-! ## The stream's bits and the bytes that the decoder writes (30_encoding.md R111, R112, R116, R121) -/

section
/-! SUPPORT. The pseudo-instructions that write CTRL, the accumulator by its bits, and the bytes that a turn of the
decode phase can change. -/

namespace Sys2Proof.Machine

open Sys2Proof

/-! ### The words that the pseudo-instructions send (R121) -/

/-- CMD sends the word with IE = 0. -/
theorem ofNat_cmd : ∀ c : BitVec 4, BitVec.ofNat 32 c.toNat = Sys2Proof.ctrlWord false c := by decide

/-- CMDI sends the word with IE = 1. -/
theorem ofNat_cmdi : ∀ c : BitVec 4, BitVec.ofNat 32 (0x100 + c.toNat) = Sys2Proof.ctrlWord true c := by decide

/-! ### The accumulator by its bits (R111, R112) -/

/-- A data byte enters above the bits that are there. -/
theorem DecState.testBit_takeData {d : DecState} (h : d.acc < 2 ^ d.nacc) (b : Byte) (j : Nat) :
    (d.takeData b).acc.testBit j = if j < d.nacc then d.acc.testBit j else b.getLsbD (j - d.nacc) := by
  have hacc : (d.takeData b).acc = d.acc + b.toNat * 2 ^ d.nacc := rfl
  rw [hacc, Nat.add_comm, Nat.mul_comm, Nat.testBit_two_pow_mul_add _ h, BitVec.testBit_toNat]

theorem DecState.testBit_code (d : DecState) (j : Nat) : d.code.testBit j = (decide (j < d.w) && d.acc.testBit j) :=
  Nat.testBit_mod_two_pow ..

theorem DecState.testBit_dropCode (d : DecState) (j : Nat) : d.dropCode.acc.testBit j = d.acc.testBit (d.w + j) := by
  rw [DecState.dropCode, Nat.testBit_div_two_pow, Nat.add_comm]

/-! ### A turn of the decode phase -/

/-- With the engine due in the decode phase, the step is a turn of that phase. -/
theorem step_decoding {s : State} {r : CmdRec} {d : DecState} (hd : s.engineDue) (he : s.engine = .decoding r d) :
    step s = s.turnTaken.decodeTurn r d := by
  rw [step_engineDue hd]
  simp only [State.engineTurn, State.turnTaken_engine, he]

/-- While a code needs bits, a byte inside the sub-block and below len is data. -/
theorem State.decodeTurn_data {s : State} {r : CmdRec} {d : DecState} (hw : d.nacc < d.w) (hp : d.p < r.len.toNat)
    (hr : 0 < d.rem) : s.decodeTurn r d = .next (s.setEngine (.decoding r (d.takeData (s.cbuf d.p)))) := by
  rw [State.decodeTurn, if_pos hw, if_neg (Nat.not_le.2 hp), if_neg hr.ne']

/-! ### The bytes that a code writes (R116) -/

/-- Every sequence that a slot holds is of indices below 2^m. -/
theorem DecState.Inv.lt_of_mem_seq {r : CmdRec} {d : DecState} (h : d.Inv r) {c : Nat} {sq : List Byte}
    (hs : d.seq c = some sq) {b : Byte} (hb : b ∈ sq) : b.toNat < 2 ^ r.m.toNat := by
  have hc : c < d.next := by
    by_contra hge
    rw [DecState.seq, List.getElem?_eq_none (Nat.not_lt.1 hge)] at hs
    cases hs
  have hslot {k : Nat} (hk : d.seq k = none) : c ≠ k := fun hck => by rw [← hck, hs] at hk; cases hk
  obtain ⟨l, hl, -, -, hroots⟩ := h.seq_spec hc (hslot (h.seq_special (.inl rfl))) (hslot (h.seq_special (.inr rfl)))
  cases hs.symm.trans hl
  exact hroots b hb

theorem DecState.Inv.lt_of_mem_prevSeq {r : CmdRec} {d : DecState} (h : d.Inv r) {ps : List Byte}
    (hs : d.prevSeq = some ps) {b : Byte} (hb : b ∈ ps) : b.toNat < 2 ^ r.m.toNat := by
  obtain ⟨c, -, hc⟩ := Option.bind_eq_some_iff.1 hs
  exact h.lt_of_mem_seq hc hb

theorem mem_of_mem_extendByFirst {l : List Byte} {b : Byte} (h : b ∈ extendByFirst l) : b ∈ l :=
  (List.mem_append.1 h).elim id List.mem_of_mem_take

theorem State.byteAt_finishDecode (s : State) (r : CmdRec) (res : DecResult) (a : Nat) :
    (s.finishDecode r res).byteAt a = s.byteAt a := by
  unfold State.finishDecode; split <;> rfl

/-- What the decode phase can change in memory: bytes of IBUF from count on and below N, to indices below 2^m. -/
def WritesRoots (s t : State) (r : CmdRec) (count : Nat) : Prop :=
  ∀ a, t.byteAt a ≠ s.byteAt a →
    ibufBase + count ≤ a ∧ a < ibufBase + r.pixels ∧ (t.byteAt a).toNat < 2 ^ r.m.toNat

theorem WritesRoots.of_byteAt_eq {s t : State} {r : CmdRec} {n : Nat} (h : ∀ a, t.byteAt a = s.byteAt a) :
    WritesRoots s t r n := fun a ha => absurd (h a) ha

/-- A data code writes the indices of its sequence that fit below N. -/
theorem WritesRoots.dataCode {s : State} {r : CmdRec} {d : DecState} {sq : List Byte} (hn : d.count < r.pixels)
    (hsq : ∀ b ∈ sq, b.toNat < 2 ^ r.m.toNat) (c : Nat) (entry : Option (List Byte)) :
    WritesRoots s (s.dataCode r d c sq entry) r d.count := by
  intro a ha
  obtain ⟨m, hout, hframe, -, -, hdata⟩ := State.dataCode_spec (s := s) hn c sq entry
  have hmem : (s.dataCode r d c sq entry).byteAt a = (s.withMem m).byteAt a := by
    rw [hdata]; split
    · exact State.byteAt_finishDecode ..
    · rfl
  rw [hmem] at ha ⊢
  have hin : ¬(a < ibufBase + d.count ∨ ibufBase + d.count + min sq.length (r.pixels - d.count) ≤ a) :=
    fun hout => ha (State.byteAt_withMem (hframe a hout))
  obtain ⟨j, rfl⟩ : ∃ j, a = ibufBase + (d.count + j) := ⟨a - (ibufBase + d.count), by omega⟩
  have hj := hout j (by omega)
  exact ⟨by omega, by omega, hsq _ (List.mem_of_getElem? hj)⟩

/-- From the decoder's invariant, a code or a framing byte writes indices below 2^m, or nothing. -/
theorem WritesRoots.exec {s t : State} {r : CmdRec} {d : DecState} {i : Instr} (hl : i.level ≠ .ctrl)
    (he : s.engine = .decoding r d) (hd : d.Inv r) (h : exec i s = .next t) : WritesRoots s t r d.count := by
  cases i
  case codeClear =>
    cases (inDecode_decoding he _).symm.trans h
    exact .of_byteAt_eq fun _ => rfl
  case codeEnd =>
    cases (inDecode_decoding he _).symm.trans h
    exact .of_byteAt_eq (s.byteAt_finishDecode r _)
  case codeFirst c =>
    replace h := (inDecode_decoding he _).symm.trans h
    split at h <;> cases h
    rename_i sq hs
    exact .dataCode hd.count_lt (fun b => hd.lt_of_mem_seq hs) c none
  case codeKnown c =>
    replace h := (inDecode_decoding he _).symm.trans h
    split at h <;> cases h
    rename_i ps sq hp hs
    exact .dataCode hd.count_lt (fun b => hd.lt_of_mem_seq hs) c _
  case codeKwkwk =>
    replace h := (inDecode_decoding he _).symm.trans h
    split at h <;> cases h
    rename_i ps hp
    exact .dataCode hd.count_lt (fun b hb => hd.lt_of_mem_prevSeq hp (mem_of_mem_extendByFirst hb)) _ _
  case codeFirstBad c | codeInvalid c | subblock len | terminator =>
    cases (inDecode_decoding he _).symm.trans h
    exact .of_byteAt_eq fun _ => rfl
  all_goals exact absurd rfl hl

/-- A turn of the decode phase: an overrun and a data byte write nothing, and a framing byte and a code are run with
the cursor or the accumulator moved on. -/
theorem WritesRoots.decodeTurn {s t : State} {r : CmdRec} {d : DecState} (hd : d.Inv r)
    (h : s.decodeTurn r d = .next t) : WritesRoots s t r d.count := by
  unfold State.decodeTurn at h
  split_ifs at h with hw hp hr
  · cases h
    exact .of_byteAt_eq fun _ => rfl
  · have hl : (decodeFrameByte (s.cbuf d.p)).level ≠ .ctrl := by rw [decodeFrameByte_level]; decide
    exact .exec (s := s.setEngine (.decoding r d.advance)) (d := d.advance) hl rfl (hd.advance (Nat.not_le.1 hp)) h
  · cases h
    exact .of_byteAt_eq fun _ => rfl
  · have hl : (decodeCode (codeCtx r d) d.code).level ≠ .ctrl := by rw [decodeCode_level]; decide
    exact .exec (s := s.setEngine (.decoding r d.dropCode)) (d := d.dropCode) hl rfl (hd.dropCode (Nat.not_lt.1 hw)) h

/-! ### The obligations -/

/-- Settles O28: the turn takes a data byte, and the accumulator's sum, remainder and quotient are read by their bits. -/
theorem codesAreReadLsbFirst : Obligations.CodesAreReadLsbFirst := by
  unfold Obligations.CodesAreReadLsbFirst
  refine ⟨fun s r d hdue he hacc hw hp hr => ?_, DecState.testBit_code, DecState.testBit_dropCode⟩
  exact ⟨_, (step_decoding hdue he).trans (State.decodeTurn_data hw hp hr), DecState.testBit_takeData hacc _⟩

/-- Settles O58: the step is a turn of the decode phase, from a decoder that meets its invariant. -/
theorem decoderWritesOnlyRootIndices : Obligations.DecoderWritesOnlyRootIndices := by
  unfold Obligations.DecoderWritesOnlyRootIndices
  intro s t r d a hinv hdue he h
  have hengine := hinv.engine
  rw [he] at hengine
  obtain ⟨-, hd⟩ := hengine
  exact WritesRoots.decodeTurn hd ((step_decoding hdue he).symm.trans h) a

/-- Settles O24: SUBBLOCK runs in the decode phase and sets `rem`. -/
theorem subblockStartsData : Obligations.SubblockStartsData := by
  unfold Obligations.SubblockStartsData
  exact fun s r d len he => inDecode_decoding he _

/-- Settles O47: the words sent are the encoder's, whose fields are known. -/
theorem pseudoCommandsDecode : Obligations.PseudoCommandsDecode := by
  unfold Obligations.PseudoCommandsDecode
  refine fun c => ⟨⟨_, rfl, ?_⟩, ⟨_, rfl, ?_⟩, ⟨_, rfl, decodeCtrl_srst rfl⟩⟩
  · rw [ofNat_cmd]
    exact ⟨ctrlSrst_ctrlWord .., ctrlIe_ctrlWord .., ctrlCmd_ctrlWord ..⟩
  · rw [ofNat_cmdi]
    exact ⟨ctrlSrst_ctrlWord .., ctrlIe_ctrlWord .., ctrlCmd_ctrlWord ..⟩

end Sys2Proof.Machine
end

/-! ## The CTRL commands (40_commands.md) -/

section
/-! SUPPORT. The host's write of CTRL, the start checks in their order, and what a soft reset loses. -/

namespace Sys2Proof.Machine

open Sys2Proof

/-! ### Reserved commands (R146) -/

/-- A command code from 4 on is one of the two reserved ranges. -/
theorem command_reserved {c : BitVec 4} (h : 4 ≤ c.toNat) :
    (∃ k : BitVec 2, c = 1#2 ++ k ∧ c.toNat = 4 + k.toNat) ∨ ∃ k : BitVec 3, c = 1#1 ++ k ∧ c.toNat = 8 + k.toNat := by
  rcases command_cases c with rfl | rfl | rfl | rfl | ⟨k, rfl⟩ | ⟨k, rfl⟩
  case inr.inr.inr.inr.inl => exact .inl ⟨k, rfl, by decide +revert⟩
  case inr.inr.inr.inr.inr => exact .inr ⟨k, rfl, by decide +revert⟩
  all_goals exact absurd h (by decide)

/-! ### The start checks (R143 to R145) -/

theorem minCodeOk_iff {r : CmdRec} : minCodeOk r = true ↔ 2 ≤ r.m.toNat ∧ r.m.toNat ≤ 8 := by
  simp [minCodeOk]

theorem cbufLenOk_iff {p : Config.Params} {r : CmdRec} : cbufLenOk p r = true ↔ r.len.toNat ≤ p.cbufBytes := by
  simp [cbufLenOk]

theorem screenOk_iff {p : Config.Params} {r : CmdRec} :
    screenOk p r = true ↔ 1 ≤ r.sw.toNat ∧ 1 ≤ r.sh.toNat ∧ r.sw.toNat * r.sh.toNat ≤ p.maxPixels := by
  simp [screenOk, and_assoc]

theorem frameInScreen_iff {r : CmdRec} :
    frameInScreen r = true ↔
      r.fx.toNat + r.fw.toNat ≤ r.sw.toNat ∧ r.fy.toNat + r.fh.toNat ≤ r.sh.toNat := by
  simp [frameInScreen]

/-- The model's test of all start checks is the rules' list of them. -/
theorem startOk_iff {p : Config.Params} {r : CmdRec} : startOk p r = true ↔ StartChecksPass p r := by
  rw [startOk.eq_def, StartChecksPass, ← CmdRec.pixels]
  cases r.op <;> simp [minCodeOk_iff, cbufLenOk_iff, screenOk_iff, frameInScreen_iff] <;> tauto

/-- With the engine due on a command just accepted, the step is its start checks. -/
theorem step_starting {s : State} {r : CmdRec} (hd : s.engineDue) (he : s.engine = .starting r) :
    step s = .next (s.turnTaken.start r) := by
  rw [step_engineDue hd]
  simp only [State.engineTurn, State.turnTaken_engine, he]

/-- DECODE and FRAME write all three result registers at their completion. -/
theorem State.complete_reporting {r : CmdRec} (h : r.op ≠ .composite) (s : State) (e : Err) (res : DecResult) :
    s.complete r e res = s.failed e res.count res.val res.pos := by
  have hr : r.op.reports = true := Op.reports_iff.2 h
  simp only [State.complete, State.failed, hr, if_true]

/-- COMPOSITE writes none of them. -/
theorem State.complete_composite {r : CmdRec} (h : r.op = .composite) (s : State) (e : Err) (res : DecResult) :
    s.complete r e res = { s with errcode := e, done := true, engine := .idle } := by
  simp [State.complete, h, Op.reports]

theorem State.finishDecode_decode {r : CmdRec} (h : r.op = .decode) (s : State) (res : DecResult) :
    s.finishDecode r res = s.complete r .none res := by simp [State.finishDecode, h]

theorem State.finishDecode_frame {r : CmdRec} (h : r.op = .frame) (s : State) (res : DecResult) :
    s.finishDecode r res = s.setEngine (.compositing r res 0) := by simp [State.finishDecode, h]

/-! ### The composite phase's end (R142, R144, R145) -/

/-- With the engine due in the composite phase, the step is a turn of that phase. -/
theorem step_compositing {s : State} {r : CmdRec} {res : DecResult} {i : Nat} (hd : s.engineDue)
    (he : s.engine = .compositing r res i) : step s = .next (s.turnTaken.compositeTurn r res i) := by
  rw [step_engineDue hd]
  simp only [State.engineTurn, State.turnTaken_engine, he]

theorem State.compositeTurn_last {r : CmdRec} {i : Nat} (h : r.pixels ≤ i) (s : State) (res : DecResult) :
    s.compositeTurn r res i = s.complete r .none res := if_neg (Nat.not_lt.2 h)

/-! ### What a soft reset loses (R147) -/

/-- The addresses that the model frees for a command whose checks pass are those that the rules let it write. -/
theorem couldWrite_iff {p : Config.Params} {r : CmdRec} (h : startOk p r = true) (a : Nat) :
    r.couldWrite a = true ↔ CouldWrite p r a := by
  have hs := startOk_iff.1 h
  have ibuf : (∃ o, o < r.fw.toNat * r.fh.toNat ∧ a = ibufBase + o) ↔ ibufBase ≤ a ∧ a < ibufBase + r.pixels :=
    ⟨fun ⟨o, ho, ha⟩ => ⟨by omega, by simp only [CmdRec.pixels]; omega⟩,
      fun ⟨h1, h2⟩ => ⟨a - ibufBase, by simp only [CmdRec.pixels] at h2; omega, by omega⟩⟩
  have wi : r.op.writesIbuf = true ↔ r.op ≠ .composite := by cases r.op <;> simp [Op.writesIbuf]
  have wf : r.op.writesFb = true ↔ r.op ≠ .decode := by cases r.op <;> simp [Op.writesFb]
  have fb (ho : r.op ≠ .decode) : (fbBase ≤ a ∧ r.inFrame ((a - fbBase) / 4) = true) ↔
      ∃ x y j, r.fx.toNat ≤ x ∧ x < r.fx.toNat + r.fw.toNat ∧ r.fy.toNat ≤ y ∧ y < r.fy.toNat + r.fh.toNat ∧
        j < 4 ∧ a = fbBase + 4 * (y * r.sw.toNat + x) + j := by
    obtain ⟨-, -, -, hw, -⟩ := hs.2.2 ho
    rw [CmdRec.inFrame_iff hw]
    constructor
    · rintro ⟨ha, x, y, h1, h2, h3, h4, hk⟩
      exact ⟨x, y, (a - fbBase) % 4, h1, h2, h3, h4, Nat.mod_lt _ (by decide), by omega⟩
    · rintro ⟨x, y, j, h1, h2, h3, h4, hj, ha⟩
      exact ⟨by omega, x, y, h1, h2, h3, h4, by omega⟩
  simp only [CmdRec.couldWrite, CouldWrite, Bool.or_eq_true, Bool.and_eq_true, decide_eq_true_eq, wi, wf, hs, true_and,
    ibuf]
  exact or_congr Iff.rfl (and_congr_right fb)

/-- No command writes below IBUF. -/
theorem CouldWrite.ibufBase_le {p : Config.Params} {r : CmdRec} {a : Nat} (h : CouldWrite p r a) : ibufBase ≤ a := by
  have hbase : ibufBase ≤ fbBase := by decide
  obtain ⟨-, ⟨-, o, -, rfl⟩ | ⟨-, x, y, j, -, -, -, -, -, rfl⟩⟩ := h <;> omega

/-- What the running command could not write keeps its byte and its generation. -/
theorem State.abandon_keeps {s : State} {a : Nat} (h : ∀ r, s.engine.cmd? = some r → ¬CouldWrite s.params r a) :
    s.abandon.byteAt a = s.byteAt a ∧ s.abandon.genAt a = s.genAt a := by
  rcases s.abandon_cases with ⟨-, he⟩ | ⟨r, hr, hok, he⟩ <;> rw [he]
  · exact ⟨rfl, rfl⟩
  · have hc : ¬(Loss.abandoned r).covers a = true := fun hc => h r hr ((couldWrite_iff hok a).1 hc)
    rw [State.byteAt_lose, State.genAt_lose, if_neg hc, if_neg hc]
    exact ⟨rfl, rfl⟩

/-- What it could write has nothing written and is of a new generation. -/
theorem State.abandon_frees {s : State} {r : CmdRec} {a : Nat} (hr : s.engine.cmd? = some r)
    (h : CouldWrite s.params r a) : s.abandon.mem.read? a = none ∧ ∀ b, s.genAt b < s.abandon.genAt a := by
  have hok := startOk_iff.2 h.1
  rcases s.abandon_cases with ⟨hno, -⟩ | ⟨q, hq, -, he⟩
  · exact absurd hok (Bool.eq_false_iff.1 (hno r hr))
  · obtain rfl : r = q := Option.some.inj (hr.symm.trans hq)
    have hc : (Loss.abandoned r).covers a = true := (couldWrite_iff hok a).2 h
    rw [he, State.genAt_lose, if_pos hc]
    exact ⟨(Memory.read?_forget ..).trans (if_pos hc), s.genAt_lt⟩

/-! ### The obligations -/

/-- Settles O9: CMD 0 is NOP, which loads IE. -/
theorem nopLoadsIeOnly : Obligations.NopLoadsIeOnly := by
  unfold Obligations.NopLoadsIeOnly
  exact ⟨fun v hs => ((commandMapOfCtrlWords v).2 hs).1, fun ie s => rfl⟩

/-- Settles O10: each of the three commands is a request made while idle. -/
theorem acceptedCommandStartsEngine : Obligations.AcceptedCommandStartsEngine := by
  unfold Obligations.AcceptedCommandStartsEngine
  intro ie s hb
  have accepted (op : Op) : s.request ie op = s.started ie op op.cmd := State.request_idle hb ie op
  exact ⟨congrArg _ (accepted .decode), congrArg _ (accepted .composite), congrArg _ (accepted .frame),
    fun op cmd => rfl⟩

/-- Settles O11: all five are requests made while BUSY. -/
theorem requestWhileBusyIsDropped : Obligations.RequestWhileBusyIsDropped := by
  unfold Obligations.RequestWhileBusyIsDropped
  intro ie s hb
  have dropped (op : Op) := State.request_busy hb ie op
  have droppedReserved (c : BitVec 4) := State.requestReserved_busy hb ie c
  exact ⟨congrArg _ (dropped _), congrArg _ (dropped _), congrArg _ (dropped _),
    fun c => congrArg _ (droppedReserved _), fun c => congrArg _ (droppedReserved _)⟩

/-- Settles O12, by the two ranges of reserved commands, whose LASTCMD is the command code. -/
theorem reservedCommandCompletesWithBadcmd : Obligations.ReservedCommandCompletesWithBadcmd := by
  unfold Obligations.ReservedCommandCompletesWithBadcmd
  refine ⟨fun v hs hc => ?_, fun ie c s hb => ?_, fun ie c s hb => ?_,
    fun ie c s hb => ?_, fun ie c s hb => ?_, rfl⟩
  · have command {c : BitVec 4} (hv : v.extractLsb' 0 4 = c) : decodeCtrl v = commandOf (v.getLsbD 8) c :=
      hv ▸ decodeCtrl_command hs
    rcases command_reserved hc with ⟨k, hv, hk⟩ | ⟨k, hv, hk⟩
    · exact .inl ⟨k, (command hv).trans (commandOf_reserved4to7 _ k), hk⟩
    · exact .inr ⟨k, (command hv).trans (commandOf_reserved8toF _ k), hk⟩
  · rw [ofNat_reserved4to7]; exact congrArg _ (State.requestReserved_idle hb ie _)
  · rw [ofNat_reserved8toF]; exact congrArg _ (State.requestReserved_idle hb ie _)
  · exact congrArg _ (State.requestReserved_busy hb ie _)
  · exact congrArg _ (State.requestReserved_busy hb ie _)

/-- Settles O13, by what abandoning the running command keeps and frees. -/
theorem softResetClearsRegistersKeepsMemories : Obligations.SoftResetClearsRegistersKeepsMemories := by
  unfold Obligations.SoftResetClearsRegistersKeepsMemories
  refine fun s => ⟨s.softReset, rfl, s.softReset_registers, rfl, rfl, rfl, rfl, rfl, rfl, fun a ha => ?_,
    fun a h => State.abandon_keeps h, fun r a hr h => State.abandon_frees hr h⟩
  exact State.abandon_keeps fun r _ h => absurd h.ibufBase_le (Nat.not_le.2 ha)

/-- Settles O15: the step is DECODE's checks, in the model's order and the rule's. -/
theorem decodeChecksInOrder : Obligations.DecodeChecksInOrder := by
  unfold Obligations.DecodeChecksInOrder
  intro s r hd he hop
  have hne : r.op ≠ .composite := by simp [hop]
  rw [step_starting hd he]
  simp only [State.start, hop, State.startDecode, State.beginDecode, State.finishDecode_decode hop,
    State.complete_reporting hne, Bool.not_eq_true', ← Bool.not_eq_true, minCodeOk_iff, cbufLenOk_iff, Nat.not_le,
    CmdRec.pixels, State.turnTaken_params]
  rfl

/-- Settles O16: the step is COMPOSITE's checks, in the model's order and the rule's. -/
theorem compositeChecksInOrder : Obligations.CompositeChecksInOrder := by
  unfold Obligations.CompositeChecksInOrder
  intro s r hd he hop
  rw [step_starting hd he]
  simp only [State.start, hop, State.startComposite, State.complete_composite hop, Bool.not_eq_true',
    ← Bool.not_eq_true, screenOk_iff, frameInScreen_iff, State.turnTaken_params]
  rfl

/-- Settles O17: the step is FRAME's checks, in the model's order and the rule's. -/
theorem frameChecksInOrder : Obligations.FrameChecksInOrder := by
  unfold Obligations.FrameChecksInOrder
  intro s r hd he hop
  have hne : r.op ≠ .composite := by simp [hop]
  rw [step_starting hd he]
  simp only [State.start, hop, State.startFrame, State.beginDecode, State.finishDecode_frame hop,
    State.complete_reporting hne, Bool.not_eq_true', ← Bool.not_eq_true, minCodeOk_iff, screenOk_iff,
    frameInScreen_iff, cbufLenOk_iff, Nat.not_le, CmdRec.pixels, State.turnTaken_params]
  rfl

/-- Settles O33: past the last pixel the phase's turn is the completion, which reports for FRAME alone. -/
theorem compositePhaseCompletes : Obligations.CompositePhaseCompletes := by
  unfold Obligations.CompositePhaseCompletes
  intro s r res i hd he hi
  rw [step_compositing hd he, State.compositeTurn_last hi]
  exact ⟨fun hop => congrArg _ (State.complete_composite hop ..),
    fun hop => congrArg _ (State.complete_reporting (by simp [hop]) ..)⟩

end Sys2Proof.Machine
end

/-! ## Runs of the composite phase (42_compositor.md) -/

section
/-! SUPPORT. Runs of the engine with no other turn planned, and what the composite phase draws from any pixel on. -/

namespace Sys2Proof.Machine

open Sys2Proof

/-! ### Runs -/

/-- The machine gets from one state to another. -/
def Runs (s t : State) : Prop := ∃ k, Sys2Proof.core.run k s = .next t

theorem Runs.refl (s : State) : Runs s s := ⟨0, rfl⟩

theorem Runs.trans {s t u : State} : Runs s t → Runs t u → Runs s u
  | ⟨_, h1⟩, ⟨_, h2⟩ => ⟨_, run_trans h1 h2⟩

theorem State.turnTaken_eq_self {s : State} (h : s.agenda = []) : s.turnTaken = s := by
  rw [State.turnTaken, h, List.tail_nil, ← h]

/-- With nothing planned, a turn of the engine is a run. -/
theorem Runs.engineTurn {s t : State} (ha : s.agenda = []) (h : s.engineTurn = .next t) : Runs s t :=
  ⟨1, run_succ (by rw [step_engineDue (.inl ha), State.turnTaken_eq_self ha, h]) 0⟩

theorem Runs.starting {s : State} {r : CmdRec} (ha : s.agenda = []) (he : s.engine = .starting r) :
    Runs s (s.start r) := .engineTurn ha (by simp only [State.engineTurn, he])

theorem Runs.decoding {s t : State} {r : CmdRec} {d : DecState} (ha : s.agenda = []) (he : s.engine = .decoding r d)
    (h : s.decodeTurn r d = .next t) : Runs s t := .engineTurn ha (by simp only [State.engineTurn, he, h])

theorem Runs.compositing {s : State} {r : CmdRec} {res : DecResult} {i : Nat} (ha : s.agenda = [])
    (he : s.engine = .compositing r res i) : Runs s (s.compositeTurn r res i) :=
  .engineTurn ha (by simp only [State.engineTurn, he])

/-! ### Where the pixels go (42_compositor.md R232, R237) -/

theorem rowOf_lt {q h : Nat} (hq : q < h) (il : Bool) : rowOf q h il < h := by
  cases il
  · simpa [rowOf] using hq
  · unfold rowOf passRows1 passRows2 passRows3
    split_ifs <;> omega

theorem rowOf_injective {q q' h : Nat} {il : Bool} (he : rowOf q h il = rowOf q' h il) : q = q' := by
  cases il
  · simpa [rowOf] using he
  · unfold rowOf passRows1 passRows2 passRows3 at he
    split_ifs at he <;> omega

/-- The FB pixel that index i of the frame goes to. -/
def CmdRec.pixelOf (r : CmdRec) (i : Nat) : Nat := r.target (i / r.fw.toNat) (i % r.fw.toNat)

/-- Index i is in a row and a column of the frame. -/
theorem CmdRec.index_bounds {r : CmdRec} {i : Nat} (hi : i < r.pixels) :
    i / r.fw.toNat < r.fh.toNat ∧ i % r.fw.toNat < r.fw.toNat := by
  have hpos : 0 < r.fw.toNat := Nat.pos_of_mul_pos_right (Nat.zero_lt_of_lt hi)
  exact ⟨Nat.div_lt_of_lt_mul hi, Nat.mod_lt _ hpos⟩

theorem CmdRec.pixelOf_index {r : CmdRec} {row x : Nat} (hx : x < r.fw.toNat) :
    r.pixelOf (row * r.fw.toNat + x) = r.target row x := by
  rw [CmdRec.pixelOf, Nat.mul_comm, Nat.mul_add_div (Nat.zero_lt_of_lt hx), Nat.mul_add_mod, Nat.div_eq_of_lt hx,
    Nat.mod_eq_of_lt hx, Nat.add_zero]

/-- Two indices of a frame inside the screen go to two pixels. -/
theorem CmdRec.pixelOf_injective {r : CmdRec} (hw : r.fx.toNat + r.fw.toNat ≤ r.sw.toNat) {i j : Nat}
    (hi : i < r.pixels) (hj : j < r.pixels) (he : r.pixelOf i = r.pixelOf j) : i = j := by
  obtain ⟨-, hci⟩ := CmdRec.index_bounds hi
  obtain ⟨-, hcj⟩ := CmdRec.index_bounds hj
  simp only [CmdRec.pixelOf, CmdRec.target, Nat.add_assoc] at he
  have hcol : i % r.fw.toNat = j % r.fw.toNat := by
    have hmod := congrArg (· % r.sw.toNat) he
    simp (disch := omega) only [Nat.mul_add_mod', Nat.mod_eq_of_lt] at hmod
    omega
  have hrow : i / r.fw.toNat = j / r.fw.toNat := by
    rw [hcol, Nat.add_right_cancel_iff] at he
    have := Nat.eq_of_mul_eq_mul_right (show 0 < r.sw.toNat by omega) he
    exact rowOf_injective (il := r.il) (h := r.fh.toNat) (by omega)
  rw [← Nat.div_add_mod i r.fw.toNat, ← Nat.div_add_mod j r.fw.toNat, hrow, hcol]

/-- A frame inside the screen has no more pixels than the screen. -/
theorem CmdRec.pixels_le {p : Config.Params} {r : CmdRec} (hs : screenOk p r = true) (hf : frameInScreen r = true) :
    r.pixels ≤ p.maxPixels := by
  obtain ⟨-, -, hmax⟩ := screenOk_iff.1 hs
  obtain ⟨hx, hy⟩ := frameInScreen_iff.1 hf
  exact le_trans (Nat.mul_le_mul (by omega) (by omega)) hmax

/-! ### One pixel (42_compositor.md R231) -/

/-- The word that index i leaves at its pixel. -/
def State.drawn (s : State) (r : CmdRec) (i : Nat) : Word :=
  if r.transparent (s.ibuf i) then s.fb (r.pixelOf i) else s.ctab (s.ibuf i)

/-- The byte at the address is none of FB[k]'s. -/
def Outside (k a : Nat) : Prop := a < fbBase + 4 * k ∨ fbBase + 4 * k + 4 ≤ a

theorem State.pixel_eq_withMem (s : State) (r : CmdRec) (i : Nat) : ∃ m, s.pixel r i = s.withMem m := by
  unfold State.pixel
  split
  · exact ⟨s.mem, rfl⟩
  · exact ⟨_, rfl⟩

theorem State.fb_pixel (s : State) (r : CmdRec) (i : Nat) : (s.pixel r i).fb (r.pixelOf i) = s.drawn r i := by
  unfold State.pixel State.drawn
  split
  · rfl
  · exact s.wordAt_storeWord _ _

theorem State.byteAt_pixel {r : CmdRec} {i a : Nat} (h : Outside (r.pixelOf i) a) (s : State) :
    (s.pixel r i).byteAt a = s.byteAt a := by
  unfold State.pixel
  split
  · rfl
  · exact s.byteAt_storeWord_outside _ _ a h

/-- FB words are as before where their bytes are. -/
theorem State.fb_congr {s t : State} {k : Nat} (h : ∀ a, fbBase + 4 * k ≤ a → a < fbBase + 4 * k + 4 →
    t.byteAt a = s.byteAt a) : t.fb k = s.fb k := State.wordAt_congr h

theorem State.ctab_congr {s t : State} (h : ∀ a, a < ibufBase → t.byteAt a = s.byteAt a) (i : Byte) :
    t.ctab i = s.ctab i := by
  have hi := i.isLt
  exact State.wordAt_congr fun b _ hb => h b (by simp only [ctabBase, ibufBase] at hb ⊢; omega)

/-- What is drawn at a pixel depends on IBUF, CTAB and the pixel's own word. -/
theorem State.drawn_congr {s t : State} {r : CmdRec} {i : Nat} (hi : ibufBase + i < fbBase)
    (hlow : ∀ a, a < fbBase → t.byteAt a = s.byteAt a) (hfb : t.fb (r.pixelOf i) = s.fb (r.pixelOf i)) :
    t.drawn r i = s.drawn r i := by
  have hbase : ibufBase < fbBase := by decide
  have hidx : t.ibuf i = s.ibuf i := hlow _ hi
  have htab (c : Byte) : t.ctab c = s.ctab c := State.ctab_congr (fun a ha => hlow a (by omega)) c
  simp only [State.drawn, hidx, htab, hfb]

/-! ### The phase from pixel i on -/

/-- The pixels from index i on are drawn from the first state's memories, and no other byte changes. -/
structure Drawn (s : State) (r : CmdRec) (i : Nat) (t : State) : Prop where
  pixels : ∀ j, i ≤ j → j < r.pixels → t.fb (r.pixelOf j) = s.drawn r j
  others : ∀ a, (∀ j, i ≤ j → j < r.pixels → Outside (r.pixelOf j) a) → t.byteAt a = s.byteAt a

theorem Drawn.below {s t : State} {r : CmdRec} {i a : Nat} (h : Drawn s r i t) (ha : a < fbBase) :
    t.byteAt a = s.byteAt a := h.others a fun _ _ _ => .inl (by omega)

/-- Nothing is drawn past the last pixel. -/
theorem Drawn.none {r : CmdRec} {i : Nat} (h : r.pixels ≤ i) (s : State) : Drawn s r i s :=
  ⟨fun _ h1 h2 => absurd h2 (by omega), fun _ _ => rfl⟩

/-- One pixel, and then the ones after it, in a frame that lies inside the screen and IBUF below FB. -/
theorem Drawn.cons {s t : State} {r : CmdRec} {i : Nat} (hw : r.fx.toNat + r.fw.toNat ≤ r.sw.toNat)
    (hn : ibufBase + r.pixels ≤ fbBase) (hi : i < r.pixels) (h : Drawn (s.pixel r i) r (i + 1) t) : Drawn s r i t := by
  have apart {j k a : Nat} (hj : j < r.pixels) (hk : k < r.pixels) (hne : j ≠ k) (h1 : fbBase + 4 * r.pixelOf j ≤ a)
      (h2 : a < fbBase + 4 * r.pixelOf j + 4) : Outside (r.pixelOf k) a := by
    have hp : r.pixelOf j ≠ r.pixelOf k := fun hp => hne (CmdRec.pixelOf_injective hw hj hk hp)
    simp only [Outside]; omega
  refine ⟨fun j h1 h2 => ?_, fun a ha => ?_⟩
  · rcases Nat.eq_or_lt_of_le h1 with rfl | hlt
    · have hlater : t.fb (r.pixelOf i) = (s.pixel r i).fb (r.pixelOf i) :=
        State.fb_congr fun a ha1 ha2 => h.others a fun j hj1 hj2 => apart h2 hj2 (by omega) ha1 ha2
      rw [hlater, State.fb_pixel]
    · rw [h.pixels j hlt h2]
      exact State.drawn_congr (by omega) (fun a ha => State.byteAt_pixel (.inl (by omega)) s)
        (State.fb_congr fun a ha1 ha2 => State.byteAt_pixel (apart h2 hi (by omega) ha1 ha2) s)
  · rw [h.others a fun j h1 h2 => ha j (by omega) h2, State.byteAt_pixel (ha i le_rfl hi)]

/-- The composite phase runs to its completion, and draws the pixels that are left. -/
theorem runs_composite {r : CmdRec} {res : DecResult} (hw : r.fx.toNat + r.fw.toNat ≤ r.sw.toNat)
    (hn : ibufBase + r.pixels ≤ fbBase) {i : Nat} (hi : i ≤ r.pixels) :
    ∀ {s : State}, s.agenda = [] → s.engine = .compositing r res i →
      ∃ m, Runs s ((s.withMem m).complete r .none res) ∧ Drawn s r i (s.withMem m) := by
  induction hi using Nat.decreasingInduction with
  | self =>
    intro s ha he
    have hrun := Runs.compositing ha he
    rw [State.compositeTurn_last le_rfl] at hrun
    exact ⟨s.mem, hrun, .none le_rfl s⟩
  | of_succ i hi ih =>
    intro s ha he
    have hrun := Runs.compositing ha he
    rw [State.compositeTurn, if_pos hi] at hrun
    obtain ⟨m₀, hm₀⟩ := s.pixel_eq_withMem r i
    rw [hm₀] at hrun
    obtain ⟨m, hrest, hdrawn⟩ := ih (s := (s.withMem m₀).setEngine (.compositing r res (i + 1))) ha rfl
    refine ⟨m, hrun.trans hrest, .cons hw hn hi ?_⟩
    rw [hm₀]
    exact ⟨hdrawn.pixels, hdrawn.others⟩

end Sys2Proof.Machine
end

/-! ## Runs of the decode phase (41_lzw.md) -/

section
/-! SUPPORT. Turn by turn, the decode phase is LzwDecode as Machine/Reference.lean writes it: NextByte, ReadCode, the
meaning of each code, and the loop. -/

namespace Sys2Proof.Machine

open Sys2Proof

variable {r : CmdRec} {d : DecState} {s : State}

/-! ### The turns of the decode phase -/

theorem State.decodeTurn_overrun (hw : d.nacc < d.w) (hp : r.len.toNat ≤ d.p) :
    s.decodeTurn r d = .next (s.raiseError r d .overrun 0) := by rw [State.decodeTurn, if_pos hw, if_pos hp]

theorem State.decodeTurn_frameByte (hw : d.nacc < d.w) (hp : d.p < r.len.toNat) (hr : d.rem = 0) :
    s.decodeTurn r d = exec (decodeFrameByte (s.cbuf d.p)) (s.setEngine (.decoding r d.advance)) := by
  rw [State.decodeTurn, if_pos hw, if_neg (Nat.not_le.2 hp), if_pos hr]

theorem State.decodeTurn_code (hw : d.w ≤ d.nacc) :
    s.decodeTurn r d = exec (decodeCode (codeCtx r d) d.code) (s.setEngine (.decoding r d.dropCode)) := by
  rw [State.decodeTurn, if_neg (Nat.not_lt.2 hw)]

theorem exec_frameByte_zero (he : s.engine = .decoding r d) {b : Byte} (hb : b = 0) :
    exec (decodeFrameByte b) s = .next (s.raiseError r d .eod 0) := by
  rw [decodeFrameByte, if_pos hb]; exact inDecode_decoding he _

theorem exec_frameByte_length (he : s.engine = .decoding r d) {b : Byte} (hb : b ≠ 0) :
    exec (decodeFrameByte b) s = .next (s.setEngine (.decoding r { d with rem := b.toNat })) := by
  rw [decodeFrameByte, if_neg hb]; exact inDecode_decoding he _

/-! ### NextByte and ReadCode (R183, R185) -/

/-- The bits of the stream that are still to be taken. -/
def DecState.bitsLeft (r : CmdRec) (d : DecState) : Nat := 8 * (r.len.toNat - d.p) + d.nacc

/-- ReadCode's step after NextByte: the byte's bits enter above those that are there (R185). -/
def DecState.withBits (d : DecState) (b : Byte) : DecState :=
  { d with acc := d.acc + b.toNat * 2 ^ d.nacc, nacc := d.nacc + 8 }

/-- The machine, run from s, ends with the error that the reference ends with. -/
def FailsAs (s : State) (r : CmdRec) (count : Nat) (e : RefError) : Prop :=
  e.1 ≠ .none ∧ Runs s (s.complete r e.1 { count := count, val := 0, pos := e.2 })

/-- A later state of the decoder on the way to one code: the bits are those of the same stream, and what a code
means has not changed. -/
structure ReadOn (r : CmdRec) (d d' : DecState) : Prop where
  inv : d'.Inv r
  width : d'.w = d.w
  count : d'.count = d.count
  bits : d'.bitsLeft r ≤ d.bitsLeft r

theorem ReadOn.refl (hd : d.Inv r) : ReadOn r d d := ⟨hd, rfl, rfl, le_rfl⟩

theorem ReadOn.trans {d₁ d₂ d₃ : DecState} (h : ReadOn r d₁ d₂) (h' : ReadOn r d₂ d₃) : ReadOn r d₁ d₃ :=
  ⟨h'.inv, h'.width.trans h.width, h'.count.trans h.count, h'.bits.trans h.bits⟩

/-- The two ends of reading a byte: the reference's error is the machine's, or both have the byte. -/
def ReadsByte (s : State) (r : CmdRec) (d : DecState) (read : Except RefError (Byte × DecState)) : Prop :=
  (∃ e, read = .error e ∧ FailsAs s r d.count e) ∨
    ∃ b d', read = .ok (b, d') ∧ ReadOn r d (d'.withBits b) ∧ (d'.withBits b).nacc = d.nacc + 8 ∧
      Runs s (s.setEngine (.decoding r (d'.withBits b)))

theorem ReadOn.takeData (hd : d.Inv r) (hw : d.nacc < d.w) (hp : d.p < r.len.toNat) (b : Byte) :
    ReadOn r d (d.takeData b) :=
  ⟨hd.takeData hp hw b, rfl, rfl, by simp only [DecState.bitsLeft, DecState.takeData]; omega⟩

/-- A length byte. -/
theorem ReadOn.lengthByte (hd : d.Inv r) (hp : d.p < r.len.toNat) (b : Byte) :
    ReadOn r d { d.advance with rem := b.toNat } :=
  ⟨(hd.advance hp).withRem (Nat.le_of_lt_succ b.isLt), rfl, rfl,
    by simp only [DecState.bitsLeft, DecState.advance]; omega⟩

/-- The machine is in the decode phase with nothing else planned, and `cbuf` is its stream. -/
structure Streaming (s : State) (r : CmdRec) (d : DecState) (cbuf : Nat → Byte) : Prop where
  agenda : s.agenda = []
  engine : s.engine = .decoding r d
  inv : d.Inv r
  minCode : minCodeOk r = true
  below : cbufBase + r.len.toNat ≤ ibufBase
  stream : ∀ p, p < r.len.toNat → s.cbuf p = cbuf p

section
variable {cbuf : Nat → Byte}

/-- Another state of the decoder. -/
theorem Streaming.setEngine (h : Streaming s r d cbuf) {d' : DecState} (hd : d'.Inv r) :
    Streaming (s.setEngine (.decoding r d')) r d' cbuf := ⟨h.agenda, rfl, hd, h.minCode, h.below, h.stream⟩

theorem Streaming.runs (h : Streaming s r d cbuf) {t : State} (ht : s.decodeTurn r d = .next t) : Runs s t :=
  .decoding h.agenda h.engine ht

/-- A data byte, in one turn. -/
theorem Streaming.dataByte (h : Streaming s r d cbuf) (hw : d.nacc < d.w) (hr : d.rem ≠ 0) :
    ReadsByte s r d (refDataByte cbuf r.len.toNat d) := by
  by_cases hp : r.len.toNat ≤ d.p
  · exact .inl ⟨_, if_pos hp, nofun, h.runs (State.decodeTurn_overrun hw hp)⟩
  · have hlt := Nat.not_le.1 hp
    have hturn := State.decodeTurn_data (s := s) hw hlt (Nat.pos_of_ne_zero hr)
    rw [h.stream _ hlt] at hturn
    exact .inr ⟨_, _, if_neg hp, .takeData h.inv hw hlt _, rfl, h.runs hturn⟩

/-- NextByte, in one turn, or in two where a length byte comes first. -/
theorem Streaming.nextByte (h : Streaming s r d cbuf) (hw : d.nacc < d.w) :
    ReadsByte s r d (refNextByte cbuf r.len.toNat d) := by
  unfold refNextByte
  by_cases hr : d.rem ≠ 0
  · rw [if_pos hr]; exact h.dataByte hw hr
  rw [if_neg hr]
  by_cases hp : r.len.toNat ≤ d.p
  · exact .inl ⟨_, if_pos hp, nofun, h.runs (State.decodeTurn_overrun hw hp)⟩
  have hlt := Nat.not_le.1 hp
  rw [if_neg hp, ← h.stream _ hlt]
  have hturn := State.decodeTurn_frameByte (s := s) hw hlt (not_not.1 hr)
  by_cases hb : s.cbuf d.p = 0
  · rw [exec_frameByte_zero rfl hb] at hturn
    exact .inl ⟨_, if_pos hb, nofun, h.runs hturn⟩
  · rw [exec_frameByte_length rfl hb] at hturn
    rw [if_neg hb]
    have hb0 : (s.cbuf d.p).toNat ≠ 0 := fun h0 => hb (BitVec.eq_of_toNat_eq h0)
    have first := ReadOn.lengthByte h.inv hlt (s.cbuf d.p)
    rcases (h.setEngine first.inv).dataByte hw hb0 with ⟨e, hread, hne, hfail⟩ | ⟨b, d', hread, hon, hnacc, hok⟩
    · exact .inl ⟨e, hread, hne, (h.runs hturn).trans hfail⟩
    · exact .inr ⟨b, d', hread, first.trans hon, hnacc, (h.runs hturn).trans hok⟩

/-- ReadCode: the machine reads bytes until the accumulator holds the code that the reference takes. -/
theorem Streaming.readCode {fuel : Nat} (h : Streaming s r d cbuf) (hf : d.w ≤ d.nacc + 8 * fuel) :
    (∃ e, refReadCode cbuf r.len.toNat fuel d = .error e ∧ FailsAs s r d.count e) ∨
      ∃ d', refReadCode cbuf r.len.toNat fuel d = .ok (d'.code, d'.dropCode) ∧ d'.w ≤ d'.nacc ∧ ReadOn r d d' ∧
        Runs s (s.setEngine (.decoding r d')) := by
  have here : Runs s (s.setEngine (.decoding r d)) := by rw [State.setEngine, ← h.engine]; exact .refl s
  induction fuel generalizing d s with
  | zero => exact .inr ⟨d, rfl, hf, .refl h.inv, here⟩
  | succ fuel ih =>
    by_cases hw : d.nacc < d.w
    · rw [refReadCode.eq_def]
      simp only [if_pos hw]
      rcases h.nextByte hw with ⟨e, hread, hfail⟩ | ⟨b, d₁, hread, hon, hnacc, hrun⟩ <;> rw [hread]
      · exact .inl ⟨e, rfl, hfail⟩
      · have hf₁ : (d₁.withBits b).w ≤ (d₁.withBits b).nacc + 8 * fuel := by rw [hon.width, hnacc]; omega
        rcases ih (h.setEngine hon.inv) hf₁ (.refl _) with ⟨e, hcode, hne, hfail⟩ | ⟨d₂, hcode, hw₂, hon₂, hrun₂⟩
        · rw [hon.count] at hfail
          exact .inl ⟨e, hcode, hne, hrun.trans hfail⟩
        · exact .inr ⟨d₂, hcode, hw₂, hon.trans hon₂, hrun.trans hrun₂⟩
    · exact .inr ⟨d, if_neg hw, Nat.not_lt.1 hw, .refl h.inv, here⟩

end

/-! ### What a code means (R187 to R192) -/

/-- FIRST, KNOWN and KWKWK: the sequence that the code emits and the entry that it adds (R189 to R191). -/
inductive DataCode (r : CmdRec) (d : DecState) (c : Nat) : List Byte → Option (List Byte) → Prop
  | first {sq : List Byte} (hp : d.prev = none) (hc : c < 2 ^ r.m.toNat) (hs : d.seq c = some sq) :
    DataCode r d c sq none
  | known {ps sq : List Byte} (hps : d.prevSeq = some ps) (hc : c < d.next) (h1 : c ≠ 2 ^ r.m.toNat)
    (h2 : c ≠ 2 ^ r.m.toNat + 1) (hs : d.seq c = some sq) : DataCode r d c sq (some (ps ++ sq.take 1))
  | kwkwk {ps : List Byte} (hps : d.prevSeq = some ps) (hc : c = d.next) (h1 : c ≠ 2 ^ r.m.toNat)
    (h2 : c ≠ 2 ^ r.m.toNat + 1) : DataCode r d c (extendByFirst ps) (some (extendByFirst ps))

/-- FIRST_BAD and INVALID (R192). -/
def BadCode (r : CmdRec) (d : DecState) (c : Nat) : Prop :=
  (d.prev = none ∧ 2 ^ r.m.toNat + 2 ≤ c) ∨ (d.prev ≠ none ∧ d.next < c)

theorem DecState.prev_ne_none {ps : List Byte} (h : d.prevSeq = some ps) : d.prev ≠ none := by
  intro hp; simp [DecState.prevSeq, hp] at h

/-- From the decoder's invariant, every code is CLEAR, END, a bad code or a data code. -/
theorem DecState.Inv.code_cases (hd : d.Inv r) (c : Nat) :
    c = 2 ^ r.m.toNat ∨ c = 2 ^ r.m.toNat + 1 ∨ BadCode r d c ∨ ∃ sq entry, DataCode r d c sq entry := by
  have prevSeq (hp : d.prev ≠ none) : ∃ ps, d.prevSeq = some ps := by
    obtain ⟨pc, hpc⟩ := Option.ne_none_iff_exists'.1 hp
    obtain ⟨ps, hps, -⟩ := hd.prev_spec hpc
    exact ⟨ps, hps⟩
  have hclass := decodeCode_class (codeCtx r d) c
  generalize decodeCode (codeCtx r d) c = i at hclass
  cases hclass with
  | clear hc => exact .inl hc
  | endCode hc => exact .inr (.inl hc)
  | first hp hc => exact .inr (.inr (.inr ⟨_, _, .first hp hc (hd.seq_root hc)⟩))
  | firstBad hp hc => exact .inr (.inr (.inl (.inl ⟨hp, hc⟩)))
  | known hp hc h1 h2 =>
    obtain ⟨ps, hps⟩ := prevSeq hp
    obtain ⟨sq, hs, -⟩ := hd.seq_spec hc h1 h2
    exact .inr (.inr (.inr ⟨_, _, .known hps hc h1 h2 hs⟩))
  | kwkwk hp hc h1 h2 =>
    obtain ⟨ps, hps⟩ := prevSeq hp
    exact .inr (.inr (.inr ⟨_, _, .kwkwk hps hc h1 h2⟩))
  | invalid hp hc h1 h2 => exact .inr (.inr (.inl (.inr ⟨hp, hc⟩)))

theorem exec_clear (he : s.engine = .decoding r d) {c : Nat} (hc : c = 2 ^ r.m.toNat) :
    exec (decodeCode (codeCtx r d) c) s = .next (s.setEngine (.decoding r (d.resetDict r.m.toNat))) := by
  rw [(CodeClass.clear hc : CodeClass (codeCtx r d) c _).decodeCode_eq]
  exact inDecode_decoding he _

theorem exec_end (he : s.engine = .decoding r d) {c : Nat} (hc : c = 2 ^ r.m.toNat + 1) :
    exec (decodeCode (codeCtx r d) c) s = .next (s.finishDecode r { count := d.count, val := 0, pos := d.p }) := by
  rw [(CodeClass.endCode hc : CodeClass (codeCtx r d) c _).decodeCode_eq]
  exact inDecode_decoding he _

theorem BadCode.exec {c : Nat} (h : BadCode r d c) (hd : d.Inv r) (he : s.engine = .decoding r d) :
    exec (decodeCode (codeCtx r d) c) s = .next (s.badCode r d c) := by
  have hn := hd.next_ge
  rcases h with ⟨hp, hc⟩ | ⟨hp, hc⟩
  · rw [(CodeClass.firstBad hp hc : CodeClass (codeCtx r d) c _).decodeCode_eq]
    exact inDecode_decoding he _
  · have h1 : c ≠ 2 ^ r.m.toNat := by omega
    have h2 : c ≠ 2 ^ r.m.toNat + 1 := by omega
    rw [(CodeClass.invalid hp hc h1 h2 : CodeClass (codeCtx r d) c _).decodeCode_eq]
    exact inDecode_decoding he _

theorem DataCode.exec {c : Nat} {sq : List Byte} {entry : Option (List Byte)} (h : DataCode r d c sq entry)
    (he : s.engine = .decoding r d) :
    exec (decodeCode (codeCtx r d) c) s = .next (s.dataCode r d c sq entry) := by
  cases h with
  | first hp hc hs =>
    rw [(CodeClass.first hp hc : CodeClass (codeCtx r d) c _).decodeCode_eq]
    simp only [Machine.exec, execCodeFirst, inDecode_decoding he, hs]
  | known hps hc h1 h2 hs =>
    rw [(CodeClass.known (DecState.prev_ne_none hps) hc h1 h2 : CodeClass (codeCtx r d) c _).decodeCode_eq]
    simp only [Machine.exec, execCodeKnown, inDecode_decoding he, hps, hs]
  | kwkwk hps hc h1 h2 =>
    rw [(CodeClass.kwkwk (DecState.prev_ne_none hps) hc h1 h2 : CodeClass (codeCtx r d) c _).decodeCode_eq]
    simp only [Machine.exec, execCodeKwkwk, inDecode_decoding he, hps, hc]

/-- The decoder after a data code that leaves the count at n below N. -/
def DecState.after (d : DecState) (n : Nat) (entry : Option (List Byte)) (c : Nat) : DecState :=
  ((d.counted n).learn entry).remember c

/-- A data code that fits the width keeps the decoder's invariant (R198). -/
theorem DataCode.inv_after {c n : Nat} {sq : List Byte} {entry : Option (List Byte)} (h : DataCode r d c sq entry)
    (hd : d.Inv r) (hc : c < 2 ^ d.w) (hn : n < r.pixels) : (d.after n entry c).Inv r := by
  have hcount := hd.counted hn
  have spec {l : List Byte} (hs : d.prevSeq = some l) :
      1 ≤ l.length ∧ l.length < d.next - 2 ^ r.m.toNat ∧ ∀ b ∈ l, b.toNat < 2 ^ r.m.toNat := by
    obtain ⟨pc, hpc⟩ := Option.ne_none_iff_exists'.1 (DecState.prev_ne_none hs)
    obtain ⟨l', hl', hspec⟩ := hd.prev_spec hpc
    obtain rfl : l' = l := Option.some.inj (hl'.symm.trans hs)
    exact hspec
  cases h with
  | first hp hc hs =>
    have hroot : c < d.next := Nat.lt_of_lt_of_le (by omega) hd.next_ge
    exact hcount.remember hroot (Option.ne_none_iff_exists'.2 ⟨_, hs⟩)
  | @known ps sq hps hlt h1 h2 hs =>
    obtain ⟨hlen, hshort, hroots⟩ := spec hps
    obtain ⟨l, hl, hl1, -⟩ := hd.seq_spec hlt h1 h2
    obtain rfl : l = sq := Option.some.inj (hl.symm.trans hs)
    have hentry : (d.counted n |>.addEntry (ps ++ l.take 1)).Inv r := by
      refine hcount.addEntry (DecState.prev_ne_none hps) ?_ ?_ ?_
      · simp only [List.length_append, List.length_take]; omega
      · simp only [List.length_append, List.length_take]
        show _ ≤ d.next - _
        omega
      · intro b hb
        rcases List.mem_append.1 hb with hb | hb
        · exact hroots b hb
        · exact hd.lt_of_mem_seq hs (List.mem_of_mem_take hb)
    refine hentry.remember (Nat.lt_of_lt_of_le hlt (DecState.next_learn_le (d := d.counted n) (some _))) ?_
    rw [show ((d.counted n).addEntry (ps ++ l.take 1)).seq c = d.seq c from
      DecState.seq_learn_of_lt (d := d.counted n) hlt (some _), hs]
    exact nofun
  | @kwkwk ps hps hnext h1 h2 =>
    obtain ⟨hlen, hshort, hroots⟩ := spec hps
    have hroom : d.next < dictEntries := by
      have := Nat.pow_le_pow_right (show 0 < 2 by decide) hd.width_le
      simp only [dictEntries]; omega
    have hentry : (d.counted n |>.addEntry (extendByFirst ps)).Inv r := by
      refine hcount.addEntry (DecState.prev_ne_none hps) ?_ ?_ fun b hb => hroots b (mem_of_mem_extendByFirst hb)
      · simp only [extendByFirst, List.length_append, List.length_take]; omega
      · simp only [extendByFirst, List.length_append, List.length_take]
        show _ ≤ d.next - _
        omega
    refine hentry.remember ?_ ?_
    · rw [hnext, DecState.addEntry_room (d := d.counted n) hroom]
      simp [DecState.next, DecState.counted]
    · have hc : c = (d.counted n).next := hnext
      rw [DecState.seq_addEntry (d := d.counted n) hroom, if_pos hc]
      exact nofun

/-! ### The loop of the reference, code by code (R186) -/

section
variable {cbuf : Nat → Byte} {m n len fuel : Nat} {d₀ : DecState} {out : List Byte} {c : Nat}

theorem refLoop_error {e : RefError} (hr : refReadCode cbuf len 2 d₀ = .error e) :
    refLoop cbuf m n len (fuel + 1) d₀ out = some (refReturn e.1 0 e.2 out) := by
  rw [refLoop.eq_def]; simp only [hr]

theorem refLoop_clear (hr : refReadCode cbuf len 2 d₀ = .ok (c, d)) (hc : c = 2 ^ m) :
    refLoop cbuf m n len (fuel + 1) d₀ out = refLoop cbuf m n len fuel (d.resetDict m) out := by
  rw [refLoop.eq_def]; simp only [hr, if_pos hc]

theorem refLoop_end (hr : refReadCode cbuf len 2 d₀ = .ok (c, d)) (hc : c = 2 ^ m + 1) :
    refLoop cbuf m n len (fuel + 1) d₀ out = some (refReturn .none 0 d.p out) := by
  have h1 : c ≠ 2 ^ m := by omega
  rw [refLoop.eq_def]; simp only [hr, if_neg h1, if_pos hc]

theorem refLoop_bad (hr : refReadCode cbuf len 2 d₀ = .ok (c, d)) (hd : d.Inv r) (hb : BadCode r d c) :
    refLoop cbuf r.m.toNat n len (fuel + 1) d₀ out =
      some (refReturn .badcode (c + d.next * 2 ^ 16) d.p out) := by
  have hn := hd.next_ge
  have h1 : c ≠ 2 ^ r.m.toNat := by rcases hb with ⟨-, hc⟩ | ⟨-, hc⟩ <;> omega
  have h2 : c ≠ 2 ^ r.m.toNat + 1 := by rcases hb with ⟨-, hc⟩ | ⟨-, hc⟩ <;> omega
  rw [refLoop.eq_def]; simp only [hr, if_neg h1, if_neg h2]
  rcases hb with ⟨hp, hc⟩ | ⟨hp, hc⟩
  · simp only [DecState.prevSeq, hp, Option.bind_none, if_pos hc]
  · obtain ⟨pc, hpc⟩ := Option.ne_none_iff_exists'.1 hp
    obtain ⟨ps, hps, -⟩ := hd.prev_spec hpc
    simp (disch := omega) only [hps, if_neg]

/-- The reference adds the entry before it counts, the machine after; neither looks at the other. -/
theorem DecState.after_eq (d : DecState) (k : Nat) (entry : Option (List Byte)) (c : Nat) :
    { d.learn entry with prev := some c, count := k } = d.after k entry c := by
  cases entry with
  | none => rfl
  | some e =>
    rw [DecState.after, DecState.learn, DecState.learn]
    by_cases hroom : d.next < dictEntries
    · rw [DecState.addEntry_room hroom, DecState.addEntry_room (d := d.counted k) hroom]
      rfl
    · have hfull : dictEntries ≤ d.next := Nat.not_lt.1 hroom
      rw [DecState.addEntry_full hfull, DecState.addEntry_full (d := d.counted k) hfull]
      rfl

theorem DecState.after_count (d : DecState) (k : Nat) (entry : Option (List Byte)) (c : Nat) :
    (d.after k entry c).count = k := by rw [← DecState.after_eq]

/-- Learning an entry takes nothing from the stream. -/
theorem DecState.after_bitsLeft (r : CmdRec) (d : DecState) (k : Nat) (entry : Option (List Byte)) (c : Nat) :
    (d.after k entry c).bitsLeft r = d.bitsLeft r := by
  rw [← DecState.after_eq]
  cases entry with
  | none => rfl
  | some e =>
    by_cases hroom : d.next < dictEntries
    · rw [DecState.learn, DecState.addEntry_room hroom]; rfl
    · rw [DecState.learn, DecState.addEntry_full (Nat.not_lt.1 hroom)]; rfl

theorem refLoop_data {sq : List Byte} {entry : Option (List Byte)} (hr : refReadCode cbuf len 2 d₀ = .ok (c, d))
    (hdata : DataCode r d c sq entry) :
    refLoop cbuf r.m.toNat n len (fuel + 1) d₀ out =
      if n ≤ out.length + sq.length then some (refReturn .none 0 d.p (out ++ sq.take (n - out.length)))
      else refLoop cbuf r.m.toNat n len fuel (d.after (out.length + sq.length) entry c) (out ++ sq) := by
  rw [refLoop.eq_def, ← DecState.after_eq]
  cases hdata with
  | first hp hc hs =>
    simp (disch := omega) only [hr, if_neg, DecState.prevSeq, hp, Option.bind_none, hs, Option.getD_some,
      DecState.learn]
  | known hps hc h1 h2 hs =>
    simp only [hr, if_neg h1, if_neg h2, hps, if_pos hc, hs, Option.getD_some, DecState.learn]
  | @kwkwk ps hps hc h1 h2 =>
    have hlt : ¬c < d.next := by omega
    have htake : (extendByFirst ps).take 1 = ps.take 1 := by cases ps <;> rfl
    simp only [hr, if_neg h1, if_neg h2, hps, if_neg hlt, if_pos hc, DecState.learn]
    rw [← extendByFirst, htake, ← extendByFirst]

end

/-! ### The loop of the machine -/

/-- The end of the decode phase with LzwDecode's result: an error completes the command, success goes on. -/
def State.endDecode (s : State) (r : CmdRec) (R : RefResult) : State :=
  if R.err = .none then s.finishDecode r R.res else s.complete r R.err R.res

theorem State.endDecode_success {R : RefResult} (h : R.err = .none) (s : State) (r : CmdRec) :
    s.endDecode r R = s.finishDecode r R.res := if_pos h

theorem State.endDecode_failure {R : RefResult} (h : R.err ≠ .none) (s : State) (r : CmdRec) :
    s.endDecode r R = s.complete r R.err R.res := if_neg h

/-- The end does not depend on what the engine was doing. -/
theorem State.endDecode_setEngine (s : State) (e : Engine) (m : Memory) (r : CmdRec) (R : RefResult) :
    ((s.setEngine e).withMem m).endDecode r R = (s.withMem m).endDecode r R := by
  simp only [State.endDecode, State.finishDecode]
  split_ifs <;> rfl

/-- IBUF begins with the indices emitted. -/
def Emitted (s : State) (out : List Byte) : Prop := ∀ j, j < out.length → out[j]? = some (s.ibuf j)

/-- Emitting more after what has been emitted. -/
theorem Emitted.append {out sq : List Byte} {m : Memory} (h : Emitted s out)
    (hsq : ∀ j, j < sq.length → sq[j]? = some ((s.withMem m).ibuf (out.length + j)))
    (hframe : ∀ a, a < ibufBase + out.length → Memory.read? m a = s.mem.read? a) :
    Emitted (s.withMem m) (out ++ sq) := by
  intro j hj
  by_cases hlt : j < out.length
  · rw [List.getElem?_append_left hlt, h j hlt]
    exact congrArg some (State.byteAt_withMem (hframe _ (by omega))).symm
  · obtain ⟨k, rfl⟩ := Nat.exists_eq_add_of_le (Nat.not_lt.1 hlt)
    rw [List.length_append] at hj
    rw [List.getElem?_append_right (by omega), Nat.add_sub_cancel_left]
    exact hsq k (by omega)

/-- The bytes of IBUF from index i to below j are all that the two memories may differ in. -/
def SameOutside (i j : Nat) (m m' : Memory) : Prop :=
  ∀ a, (a < ibufBase + i ∨ ibufBase + j ≤ a) → Memory.read? m' a = Memory.read? m a

/-- A data code emits the indices of its sequence that fit below N after those that stand there. -/
theorem State.dataCode_emits {out : List Byte} (hn : d.count < r.pixels) (hcount : out.length = d.count)
    (hout : Emitted s out) (c : Nat) (sq : List Byte) (entry : Option (List Byte)) :
    ∃ m, Emitted (s.withMem m) (out ++ sq.take (r.pixels - out.length)) ∧
      SameOutside out.length (out ++ sq.take (r.pixels - out.length)).length s.mem m ∧
      s.dataCode r d c sq entry =
        if r.pixels ≤ out.length + sq.length then
          (s.withMem m).finishDecode r { count := r.pixels, val := 0, pos := d.p }
        else (s.withMem m).setEngine (.decoding r (d.after (out.length + sq.length) entry c)) := by
  obtain ⟨m, hsq, hframe, -, -, heq⟩ := State.dataCode_spec (s := s) hn c sq entry
  rw [← hcount] at hsq hframe heq
  have hlen : (sq.take (r.pixels - out.length)).length = min sq.length (r.pixels - out.length) := by
    rw [List.length_take, Nat.min_comm]
  refine ⟨m, hout.append (fun j hj => ?_) fun a ha => hframe a (.inl ha), fun a ha => hframe a ?_, heq⟩
  · rw [hlen] at hj
    rw [List.getElem?_take_of_lt (by omega)]
    exact hsq j hj
  · rw [List.length_append, hlen] at ha
    omega

/-- A memory after the decode: LzwDecode's indices are in IBUF, `out` the first of them, and no byte has changed but
for theirs after `out`. -/
structure Decoded (s : State) (r : CmdRec) (out : List Byte) (R : RefResult) (m : Memory) : Prop where
  count : R.res.count = R.out.length
  more : out.length ≤ R.out.length
  fits : R.out.length ≤ r.pixels
  indices : Emitted (s.withMem m) R.out
  others : SameOutside out.length R.out.length s.mem m

/-- What the loop comes to: the reference's result, and a run of the machine to the same end. -/
def LoopEnds (s : State) (r : CmdRec) (out : List Byte) (ref : Option RefResult) : Prop :=
  ∃ R m, ref = some R ∧ Runs s ((s.withMem m).endDecode r R) ∧ Decoded s r out R m

/-- The loop returns with nothing more emitted. -/
theorem LoopEnds.here {out : List Byte} {e : Err} {val pos : Nat} (hout : Emitted s out) (hfits : out.length ≤ r.pixels)
    (hrun : Runs s (s.endDecode r (refReturn e val pos out))) : LoopEnds s r out (some (refReturn e val pos out)) :=
  ⟨_, s.mem, rfl, hrun, rfl, le_rfl, hfits, hout, fun _ _ => rfl⟩

/-- The loop goes on from a later state with more emitted. -/
theorem LoopEnds.later {out out' : List Byte} {ref : Option RefResult} {m : Memory} {e : Engine}
    (hrun : Runs s ((s.withMem m).setEngine e)) (hmore : out.length ≤ out'.length)
    (hframe : SameOutside out.length out'.length s.mem m) (h : LoopEnds ((s.withMem m).setEngine e) r out' ref) :
    LoopEnds s r out ref := by
  obtain ⟨R, m', hR, hend, hcount, hmore', hfits, hindices, hothers⟩ := h
  rw [State.endDecode_setEngine] at hend
  exact ⟨R, m', hR, hrun.trans hend, hcount, hmore.trans hmore', hfits, hindices,
    fun a ha => (hothers a (by omega)).trans (hframe a (by omega))⟩

theorem DecState.Inv.width_ge (hd : d.Inv r) (hm : minCodeOk r = true) : 3 ≤ d.w := by
  obtain ⟨hm2, -⟩ := minCodeOk_iff.1 hm
  have hn := hd.next_ge
  have hw := hd.width
  have h4 : 2 ^ 2 ≤ 2 ^ r.m.toNat := Nat.pow_le_pow_right (by decide) hm2
  have hlog : 2 ≤ Nat.log2 d.next := (Nat.le_log2 (by omega)).2 (by omega)
  simp only [maxCodeWidth] at hw
  omega

/-- A code takes at least 3 bits of the stream. -/
theorem DecState.Inv.bitsLeft_dropCode (hd : d.Inv r) (hm : minCodeOk r = true) (hw : d.w ≤ d.nacc) :
    d.dropCode.bitsLeft r + 3 ≤ d.bitsLeft r := by
  have h3 := hd.width_ge hm
  simp only [DecState.bitsLeft, DecState.dropCode]
  omega

/-- The stream is read on after indices have been emitted: IBUF lies above it. -/
theorem Streaming.emitted {cbuf : Nat → Byte} {i j : Nat} {m : Memory} (h : Streaming s r d cbuf) {d' : DecState}
    (hd : d'.Inv r) (hframe : SameOutside i j s.mem m) :
    Streaming ((s.withMem m).setEngine (.decoding r d')) r d' cbuf := by
  refine ⟨h.agenda, rfl, hd, h.minCode, h.below, fun p hp => ?_⟩
  have hbelow := h.below
  rw [← h.stream p hp]
  exact State.byteAt_withMem (hframe _ (.inl (by omega)))

/-- From any state of the decode phase the machine and the loop of LzwDecode come to the same end: each code takes 3
bits or more, so the fuel is enough (R200). -/
theorem Streaming.loop {cbuf : Nat → Byte} {fuel : Nat} {out : List Byte} (h : Streaming s r d cbuf)
    (hcount : out.length = d.count) (hout : Emitted s out) (hfuel : d.bitsLeft r < 3 * fuel) :
    LoopEnds s r out (refLoop cbuf r.m.toNat r.pixels r.len.toNat fuel d out) := by
  induction fuel generalizing s d out with
  | zero => omega
  | succ fuel ih =>
    have hfits : out.length ≤ r.pixels := hcount.trans_le h.inv.count_lt.le
    have hw2 : d.w ≤ d.nacc + 8 * 2 := by have := h.inv.width_le; omega
    rcases h.readCode hw2 with ⟨e, hread, hne, hfail⟩ | ⟨d₁, hread, hw, hon, hrun⟩
    · rw [refLoop_error hread]
      rw [← hcount] at hfail
      have hend := State.endDecode_failure (R := refReturn e.1 0 e.2 out) hne s r
      exact .here hout hfits (hend.symm ▸ hfail)
    have hinv := hon.inv.dropCode hw
    have hcount₁ : out.length = d₁.dropCode.count := hcount.trans hon.count.symm
    have hcode : d₁.code < 2 ^ d₁.dropCode.w := Nat.mod_lt _ (Nat.two_pow_pos _)
    have hbits : d₁.dropCode.bitsLeft r < 3 * fuel := by
      have := hon.inv.bitsLeft_dropCode h.minCode hw
      have := hon.bits
      omega
    have turn {t : State} (ht : exec (decodeCode (codeCtx r d₁.dropCode) d₁.code)
        (s.setEngine (.decoding r d₁.dropCode)) = .next t) : Runs s t :=
      hrun.trans ((h.setEngine hon.inv).runs ((State.decodeTurn_code hw).trans ht))
    have ends := State.endDecode_setEngine s (.decoding r d₁.dropCode)
    rcases hinv.code_cases d₁.code with hc | hc | hbad | ⟨sq, entry, hdata⟩
    · rw [refLoop_clear hread hc]
      exact .later (m := s.mem) (turn (exec_clear rfl hc)) le_rfl (fun _ _ => rfl)
        (ih (h.setEngine (hinv.resetDict h.minCode)) hcount₁ hout hbits)
    · rw [refLoop_end hread hc]
      have hend := turn (exec_end rfl hc)
      rw [← hcount₁] at hend
      exact .here hout hfits ((ends s.mem r _).symm ▸ hend)
    · rw [refLoop_bad hread hinv hbad]
      have hend := turn (hbad.exec hinv rfl)
      rw [State.badCode, State.raiseError, ← hcount₁] at hend
      exact .here hout hfits hend
    · rw [refLoop_data hread hdata]
      have hn := hinv.count_lt
      have hturn := turn (hdata.exec rfl)
      obtain ⟨m, hout₁, hframe, heq⟩ := State.dataCode_emits (s := s.setEngine (.decoding r d₁.dropCode)) hn hcount₁
        hout d₁.code sq entry
      rw [heq] at hturn
      split_ifs at hturn ⊢ with hfull
      · have hlast : (out ++ sq.take (r.pixels - out.length)).length = r.pixels := by
          rw [List.length_append, List.length_take]; omega
        rw [← hlast] at hturn
        exact ⟨_, m, rfl, (ends m r _) ▸ hturn, rfl, by simp [refReturn], hlast.le, hout₁, hframe⟩
      · rw [List.take_of_length_le (by omega)] at hout₁ hframe
        exact .later hturn (by simp) hframe (ih (h.emitted (hdata.inv_after hinv hcode (by omega)) hframe)
          (by rw [List.length_append, DecState.after_count]) hout₁ (by rwa [DecState.after_bitsLeft]))

end Sys2Proof.Machine
end

/-! ## Whole commands (40_commands.md R141, R145) -/

section
/-! SUPPORT. A decode from its start, the two phases put together, and the completion of every command. -/

namespace Sys2Proof.Machine

open Sys2Proof

section
variable {r : CmdRec} {s : State}

/-! ### What the start checks give (20_memory.md R70) -/

/-- The frame's indices lie below FB. -/
theorem ibuf_below_fb {p : Config.Params} (hp : p.InRange) (hs : screenOk p r = true) (hf : frameInScreen r = true) :
    ibufBase + r.pixels ≤ fbBase := by
  obtain ⟨-, -, hmax⟩ := hp
  have hle := CmdRec.pixels_le hs hf
  simp only [ibufBase, fbBase]; omega

/-- The decode phase of a checked command: its stream lies below IBUF. -/
theorem Streaming.of_checked {d : DecState} (hp : s.params.InRange) (ha : s.agenda = [])
    (hc : DecodeChecked s.params r) (hd : d.Inv r) (he : s.engine = .decoding r d) : Streaming s r d s.cbuf := by
  obtain ⟨⟨-, hmax⟩, -⟩ := hp
  have hle := cbufLenOk_iff.1 hc.cbufLen
  exact ⟨ha, he, hd, hc.minCode, by simp only [cbufBase, ibufBase]; omega, fun _ _ => rfl⟩

theorem CompositeChecked.of_startOk {p : Config.Params} (h : startOk p r = true) (hop : r.op ≠ .decode) :
    CompositeChecked p r := by
  obtain ⟨h1, h2, h3, h4, h5⟩ := (startOk_iff.1 h).2.2 hop
  exact ⟨hop, screenOk_iff.2 ⟨h1, h2, h3⟩, frameInScreen_iff.2 ⟨h4, h5⟩⟩

theorem DecodeChecked.of_startOk {p : Config.Params} (h : startOk p r = true) (hop : r.op ≠ .composite)
    (hn : 0 < r.pixels) : DecodeChecked p r := by
  obtain ⟨hdec, hpix, -⟩ := startOk_iff.1 h
  obtain ⟨h2, h8, hlen⟩ := hdec hop
  have geometry (hf : r.op = .frame) : screenOk p r = true ∧ frameInScreen r = true :=
    have hc := CompositeChecked.of_startOk h (by simp [hf])
    ⟨hc.screen, hc.frame⟩
  refine ⟨hop, minCodeOk_iff.2 ⟨h2, h8⟩, hn, ?_, cbufLenOk_iff.2 hlen, geometry⟩
  cases ho : r.op with
  | decode => exact hpix ho
  | composite => exact absurd ho hop
  | frame => exact CmdRec.pixels_le (geometry ho).1 (geometry ho).2

/-! ### A decode from its start (41_lzw.md R180, R186) -/

/-- A DECODE or FRAME whose checks pass runs through the decode phase as LzwDecode does. -/
theorem runs_lzwDecode (hp : s.params.InRange) (ha : s.agenda = []) (hok : startOk s.params r = true)
    (hop : r.op ≠ .composite) :
    ∃ R m, refLzwDecode s.cbuf r.m.toNat r.pixels r.len.toNat = some R ∧
      Runs (s.beginDecode r) ((s.withMem m).endDecode r R) ∧ Decoded s r [] R m := by
  unfold refLzwDecode State.beginDecode
  by_cases hn : r.pixels = 0
  · rw [if_pos hn, if_pos hn]
    exact ⟨_, s.mem, rfl, .refl _, rfl, le_rfl, Nat.zero_le _, nofun, fun _ _ => rfl⟩
  · rw [if_neg hn, if_neg hn]
    have hc := DecodeChecked.of_startOk hok hop (Nat.pos_of_ne_zero hn)
    have hfuel : (DecState.init r.m.toNat).bitsLeft r < 3 * (8 * r.len.toNat / 3 + 1) := by
      simp only [DecState.bitsLeft, DecState.init]; omega
    have start := Streaming.of_checked (s := s.setEngine (.decoding r (DecState.init r.m.toNat))) hp ha hc (.init hc)
      rfl
    obtain ⟨R, m, hR, hrun, hdec⟩ := start.loop (out := []) rfl nofun hfuel
    rw [State.endDecode_setEngine] at hrun
    exact ⟨R, m, hR, hrun, hdec.count, hdec.more, hdec.fits, hdec.indices, hdec.others⟩

/-! ### Completion -/

/-- The machine runs to an idle state with DONE. -/
def Completes (s : State) : Prop := ∃ t, Runs s t ∧ t.busy = false ∧ t.done = true

theorem Runs.completes {t : State} (h : Runs s t) : Completes t → Completes s
  | ⟨u, hu, hidle⟩ => ⟨u, h.trans hu, hidle⟩

theorem completes_complete (s : State) (r : CmdRec) (e : Err) (res : DecResult) : Completes (s.complete r e res) :=
  ⟨_, .refl _, rfl, rfl⟩

theorem completes_compositing {res : DecResult} {i : Nat} (hp : s.params.InRange) (ha : s.agenda = [])
    (hc : CompositeChecked s.params r) (hi : i ≤ r.pixels) (he : s.engine = .compositing r res i) : Completes s := by
  obtain ⟨m, hrun, -⟩ := runs_composite (frameInScreen_iff.1 hc.frame).1 (ibuf_below_fb hp hc.screen hc.frame) hi ha he
  exact hrun.completes (completes_complete ..)

theorem completes_endDecode (hp : s.params.InRange) (ha : s.agenda = [])
    (hgeo : r.op = .frame → screenOk s.params r = true ∧ frameInScreen r = true) (R : RefResult) :
    Completes (s.endDecode r R) := by
  unfold State.endDecode State.finishDecode
  split_ifs with herr hop
  · obtain ⟨hs, hf⟩ := hgeo hop
    exact completes_compositing (s := s.setEngine _) hp ha ⟨by simp [hop], hs, hf⟩ (Nat.zero_le _) rfl
  · exact completes_complete ..
  · exact completes_complete ..

/-- The decode phase, from any of its states, by the loop that starts from the indices in IBUF. -/
theorem completes_decoding {d : DecState} (hp : s.params.InRange) (ha : s.agenda = [])
    (hc : DecodeChecked s.params r) (hd : d.Inv r) (he : s.engine = .decoding r d) : Completes s := by
  have hout : Emitted s ((List.range d.count).map s.ibuf) := by
    intro j hj
    simp only [List.length_map, List.length_range] at hj
    simp [hj]
  obtain ⟨R, m, -, hrun, -⟩ := (Streaming.of_checked hp ha hc hd he).loop (fuel := d.bitsLeft r + 1) (by simp) hout
    (by omega)
  exact hrun.completes (completes_endDecode (s := s.withMem m) hp ha hc.geometry R)

theorem completes_starting (hp : s.params.InRange) (ha : s.agenda = []) (he : s.engine = .starting r) :
    Completes s := by
  refine (Runs.starting ha he).completes ?_
  cases hok : startOk s.params r with
  | false =>
    obtain ⟨e, -, hstart⟩ := State.start_failed hok
    rw [hstart]; exact completes_complete ..
  | true =>
    rw [State.start_passed hok]
    split_ifs with hop
    · have hc := CompositeChecked.of_startOk hok (by simp [hop])
      exact completes_compositing (s := s.setEngine _) hp ha hc (Nat.zero_le _) rfl
    · obtain ⟨R, m, -, hrun, -⟩ := runs_lzwDecode hp ha hok hop
      refine hrun.completes (completes_endDecode (s := s.withMem m) hp ha (fun hf => ?_) R)
      have hc := CompositeChecked.of_startOk hok (by simp [hf])
      exact ⟨hc.screen, hc.frame⟩

/-! ### The composite phase over the frame rectangle (42_compositor.md R231, R238) -/

/-- A row and a column of the frame have an index. -/
theorem CmdRec.index_lt {row x : Nat} (hrow : row < r.fh.toNat) (hx : x < r.fw.toNat) :
    row * r.fw.toNat + x < r.pixels := by
  have := Nat.mul_le_mul_right r.fw.toNat (Nat.succ_le_of_lt hrow)
  rw [Nat.succ_mul] at this
  rw [CmdRec.pixels, Nat.mul_comm r.fw.toNat]
  omega

/-- The word that a row and a column of the frame get. -/
theorem Drawn.fb_target {t : State} (h : Drawn s r 0 t) {row x : Nat} (hrow : row < r.fh.toNat) (hx : x < r.fw.toNat) :
    t.fb (r.target row x) =
      if r.te = true ∧ s.ibuf (row * r.fw.toNat + x) = r.ti then s.fb (r.target row x)
      else s.ctab (s.ibuf (row * r.fw.toNat + x)) := by
  have hpix := h.pixels _ (Nat.zero_le _) (CmdRec.index_lt hrow hx)
  rw [State.drawn, CmdRec.pixelOf_index hx] at hpix
  simpa only [CmdRec.transparent, Bool.and_eq_true, beq_iff_eq] using hpix

/-- Outside the frame rectangle no pixel is drawn. -/
theorem Drawn.outside {t : State} (h : Drawn s r 0 t) {a : Nat}
    (ha : ∀ x y, r.fx.toNat ≤ x → x < r.fx.toNat + r.fw.toNat → r.fy.toNat ≤ y → y < r.fy.toNat + r.fh.toNat →
      Outside (y * r.sw.toNat + x) a) : t.byteAt a = s.byteAt a := by
  refine h.others a fun j _ hj => ?_
  obtain ⟨hrow, hcol⟩ := CmdRec.index_bounds hj
  have hlt := rowOf_lt hrow r.il
  rw [CmdRec.pixelOf, CmdRec.target, Nat.add_assoc]
  exact ha _ _ (by omega) (by omega) (by omega) (by omega)

end

/-! ### The obligations -/

/-- Settles O36, by the phase that the engine is in. -/
theorem everyCommandTerminates : Obligations.EveryCommandTerminates := by
  unfold Obligations.EveryCommandTerminates
  intro s hinv ha
  have ends : Completes s →
      ∃ k t, Sys2Proof.core.run k s = .next t ∧ t.busy = false ∧ (s.busy = true → t.done = true) :=
    fun ⟨t, ⟨k, hrun⟩, hidle, hdone⟩ => ⟨k, t, hrun, hidle, fun _ => hdone⟩
  have hengine := hinv.engine
  cases he : s.engine with
  | idle =>
    have hidle := State.busy_eq_false.2 he
    exact ⟨0, s, rfl, hidle, fun hb => absurd (hidle.symm.trans hb) nofun⟩
  | starting r => exact ends (completes_starting hinv.params ha he)
  | decoding r d =>
    rw [he] at hengine
    obtain ⟨hc, hd⟩ := hengine
    exact ends (completes_decoding hinv.params ha hc hd he)
  | compositing r res i =>
    rw [he] at hengine
    obtain ⟨hc, hi⟩ := hengine
    exact ends (completes_compositing hinv.params ha hc hi he)

/-- Settles O60: the start checks pass, the decode phase runs as LzwDecode, and where it succeeds the composite phase
draws from the IBUF that it leaves. -/
theorem frameRunsAsLzwDecodeThenComposite : Obligations.FrameRunsAsLzwDecodeThenComposite := by
  unfold Obligations.FrameRunsAsLzwDecodeThenComposite
  intro s r hinv ha he hop hm hs hf hl
  have hok : startOk s.params r = true := by simp [startOk, hop, hm, hs, hf, hl]
  have hne : r.op ≠ .composite := by simp [hop]
  have hstart := Runs.starting ha he
  rw [State.start_passed hok, if_neg hne] at hstart
  obtain ⟨R, m, hR, hdecode, hcount, -, hfits, hindices, hothers⟩ := runs_lzwDecode hinv.params ha hok hne
  have hrun := hstart.trans hdecode
  have kept {a : Nat} (h : a < ibufBase ∨ ibufBase + R.out.length ≤ a) : (s.withMem m).byteAt a = s.byteAt a :=
    State.byteAt_withMem (hothers a h)
  by_cases herr : R.err = .none
  · rw [State.endDecode_success herr, State.finishDecode_frame hop] at hrun
    obtain ⟨m', hdraw, hdrawn⟩ := runs_composite (s := (s.withMem m).setEngine (.compositing r R.res 0))
      (frameInScreen_iff.1 hf).1 (ibuf_below_fb hinv.params hs hf) (Nat.zero_le _) ha rfl
    obtain ⟨k, hk⟩ := hrun.trans hdraw
    rw [State.complete_reporting hne, ← herr] at hk
    have hbelow := ibuf_below_fb hinv.params hs hf
    replace hdrawn : Drawn (s.withMem m) r 0 (s.withMem m') := ⟨hdrawn.pixels, hdrawn.others⟩
    have index {j : Nat} (hj : j < r.pixels) : (s.withMem m').ibuf j = (s.withMem m).ibuf j := hdrawn.below (by omega)
    have hfb (k : Nat) : (s.withMem m).fb k = s.fb k := State.fb_congr fun a ha _ => kept (.inr (by omega))
    have hctab (c : Byte) : (s.withMem m).ctab c = s.ctab c := State.ctab_congr (fun a ha => kept (.inl ha)) c
    refine ⟨k, _, R, hk, hR, rfl, hcount, fun j hj => ?_, fun h => absurd herr h, fun _ => ⟨fun row x hrow hx => ?_,
      fun a hout hrect => (hdrawn.outside hrect).trans (kept hout)⟩⟩
    · exact (hindices j hj).trans (congrArg some (index (by omega)).symm)
    · have hword := hdrawn.fb_target hrow hx
      rw [hfb, hctab, ← index (CmdRec.index_lt hrow hx)] at hword
      exact hword
  · rw [State.endDecode_failure herr, State.complete_reporting hne] at hrun
    obtain ⟨k, hk⟩ := hrun
    exact ⟨k, _, R, hk, hR, rfl, hcount, hindices, fun _ _ => kept, fun h => absurd h herr⟩

end Sys2Proof.Machine
end

/-! ## The invariant under every turn (10_state.md R53 to R55, 20_memory.md R70, 41_lzw.md R198) -/

section
/-! SUPPORT. The invariant State.Inv under each shared operation, under each turn of the engine, and under what the
host and the resets do. -/

namespace Sys2Proof.Machine

open Sys2Proof

section
variable {p : Config.Params} {m : Memory} {r : CmdRec} {d : DecState} {s t : State}

/-! ### The memory inside the address map (20_memory.md R70) -/

/-- The address lies in one of the four memory windows. -/
def InWindow (p : Config.Params) (a : Nat) : Prop := ∃ g, regionOf p a = some g ∧ g ≠ .regs

theorem Memory.inMap_iff : m.inMap p = true ↔ ∀ c ∈ m, InWindow p c.1 := by
  simp only [Memory.inMap, List.all_eq_true, InWindow]
  refine forall₂_congr fun c _ => ?_
  cases regionOf p c.1 <;> simp

/-- The part of State.Inv that speaks of the memory. -/
structure MemoryInv (p : Config.Params) (m : Memory) : Prop where
  wf : m.wf
  inMap : m.inMap p = true

theorem MemoryInv.write (h : MemoryInv p m) {a : Nat} (ha : InWindow p a) (v : Byte) : MemoryInv p (m.write a v) := by
  refine ⟨Memory.wf_write h.wf a v, Memory.inMap_iff.2 fun c hc => ?_⟩
  rcases Memory.mem_write hc with rfl | hc
  · exact ha
  · exact Memory.inMap_iff.1 h.inMap c hc

/-- A store inside a window. -/
theorem MemoryInv.store (h : MemoryInv p s.mem) {n : Width} {a : Nat} (ha : ∀ j, j < n.bytes → InWindow p (a + j))
    (v : Word) : MemoryInv p (s.store n a v).mem := by
  cases n with
  | w8 => exact h.write (ha 0 (by decide)) _
  | w16 => exact (h.write (ha 0 (by decide)) _).write (ha 1 (by decide)) _
  | w32 =>
    exact (((h.write (ha 0 (by decide)) _).write (ha 1 (by decide)) _).write (ha 2 (by decide)) _).write
      (ha 3 (by decide)) _

/-- The memory after an abandoned command has fewer written bytes. -/
theorem MemoryInv.abandon (h : MemoryInv p s.mem) : MemoryInv p s.abandon.mem :=
  ⟨State.wf_abandon h.wf, Memory.inMap_iff.2 fun c hc => Memory.inMap_iff.1 h.inMap c (State.mem_abandon hc)⟩

theorem InWindow.ibuf (hp : p.InRange) {o : Nat} (ho : o < p.maxPixels) : InWindow p (ibufBase + o) := by
  obtain ⟨⟨-, hc⟩, -⟩ := hp
  exact ⟨.ibuf, regionOf_ibuf.2 (by simp only [ibufBase, cbufBase]; omega), nofun⟩

theorem InWindow.fb (hp : p.InRange) {k : Nat} (hk : k < p.maxPixels) {j : Nat} (hj : j < 4) :
    InWindow p (fbBase + 4 * k + j) := by
  obtain ⟨⟨-, hc⟩, -, hm⟩ := hp
  exact ⟨.fb, regionOf_fb.2 (by simp only [fbBase, ibufBase, cbufBase]; omega), nofun⟩

/-- A pixel of a checked frame is a pixel of FB (42_compositor.md R239). -/
theorem CompositeChecked.pixelOf_lt (hc : CompositeChecked p r) {i : Nat} (hi : i < r.pixels) :
    r.pixelOf i < p.maxPixels := by
  obtain ⟨-, -, hmax⟩ := screenOk_iff.1 hc.screen
  obtain ⟨hx, hy⟩ := frameInScreen_iff.1 hc.frame
  obtain ⟨hrow, hcol⟩ := CmdRec.index_bounds hi
  have hlt := rowOf_lt hrow r.il
  have hrows : (rowOf (i / r.fw.toNat) r.fh.toNat r.il + r.fy.toNat + 1) * r.sw.toNat ≤ r.sh.toNat * r.sw.toNat :=
    Nat.mul_le_mul_right _ (by omega)
  rw [Nat.succ_mul, Nat.mul_comm r.sh.toNat] at hrows
  simp only [CmdRec.pixelOf, CmdRec.target]
  omega

/-! ### The shared operations -/

theorem State.Inv.memory (h : s.Inv) : MemoryInv s.params s.mem := ⟨h.memWf, h.memMap⟩

theorem State.Inv.withMem (h : s.Inv) (hm : MemoryInv s.params m) : (s.withMem m).Inv :=
  ⟨h.params, hm.wf, hm.inMap, h.fcfgReserved, h.busyStatus, h.engine⟩

/-- The engine goes on with the same command. -/
theorem State.Inv.setEngine (h : s.Inv) {e : Engine} (hc : e.cmd? = s.engine.cmd?) (he : e.Inv s.params) :
    (s.setEngine e).Inv :=
  ⟨h.params, h.memWf, h.memMap, h.fcfgReserved, h.busyStatus.of_fields hc id rfl rfl, he⟩

theorem State.Inv.complete (h : s.Inv) (r : CmdRec) (e : Err) (res : DecResult) : (s.complete r e res).Inv :=
  ⟨h.params, h.memWf, h.memMap, h.fcfgReserved, .of_idle rfl, trivial⟩

/-- The end of the decode phase: FRAME's geometry has been checked. -/
theorem State.Inv.finishDecode (h : s.Inv) (hr : s.engine.cmd? = some r)
    (hgeo : r.op = .frame → screenOk s.params r = true ∧ frameInScreen r = true) (res : DecResult) :
    (s.finishDecode r res).Inv := by
  unfold State.finishDecode
  split_ifs with hop
  · obtain ⟨hs, hf⟩ := hgeo hop
    exact h.setEngine hr.symm ⟨⟨by simp [hop], hs, hf⟩, Nat.zero_le _⟩
  · exact h.complete r .none res

/-! ### The turns of the engine -/

theorem State.Inv.start (h : s.Inv) (he : s.engine = .starting r) : (s.start r).Inv := by
  have hr : s.engine.cmd? = some r := by rw [he]; rfl
  cases hok : startOk s.params r with
  | false =>
    obtain ⟨e, -, hstart⟩ := State.start_failed hok
    rw [hstart]; exact h.complete r e .zero
  | true =>
    rw [State.start_passed hok]
    split_ifs with hop
    · exact h.setEngine hr.symm ⟨.of_startOk hok (by simp [hop]), Nat.zero_le _⟩
    · unfold State.beginDecode
      split_ifs with hn
      · refine h.finishDecode hr (fun hf => ?_) .zero
        have hc := CompositeChecked.of_startOk hok (by simp [hf])
        exact ⟨hc.screen, hc.frame⟩
      · have hc := DecodeChecked.of_startOk hok hop (Nat.pos_of_ne_zero hn)
        exact h.setEngine hr.symm ⟨hc, .init hc⟩

/-- A data code that fits the width: its indices go to IBUF below N, and the decoder keeps its invariant. -/
theorem State.Inv.dataCode (h : s.Inv) (he : s.engine = .decoding r d) (hc : DecodeChecked s.params r) (hd : d.Inv r)
    {c : Nat} (hw : c < 2 ^ d.w) {sq : List Byte} {entry : Option (List Byte)} (hdata : DataCode r d c sq entry) :
    (s.dataCode r d c sq entry).Inv := by
  obtain ⟨m, -, -, hwf, hcells, heq⟩ := State.dataCode_spec (s := s) hd.count_lt c sq entry
  have hr : s.engine.cmd? = some r := by rw [he]; rfl
  have hm : MemoryInv s.params m := by
    refine ⟨hwf h.memWf, Memory.inMap_iff.2 fun x hx => ?_⟩
    rcases hcells x hx with hx | ⟨j, b, hj, -, rfl⟩
    · exact Memory.inMap_iff.1 h.memMap x hx
    · have hlt : d.count + j < s.params.maxPixels := by have := hc.pixels_le; omega
      exact Nat.add_assoc .. ▸ InWindow.ibuf h.params hlt
  have hinv := h.withMem hm
  rw [heq]
  split_ifs with hfull
  · exact hinv.finishDecode hr hc.geometry _
  · exact hinv.setEngine hr.symm ⟨hc, hdata.inv_after hd hw (Nat.not_le.1 hfull)⟩

/-- A code that fits the width, whatever its class. -/
theorem State.Inv.execCode (h : s.Inv) (he : s.engine = .decoding r d) (hc : DecodeChecked s.params r) (hd : d.Inv r)
    {c : Nat} (hw : c < 2 ^ d.w) (ht : exec (decodeCode (codeCtx r d) c) s = .next t) : t.Inv := by
  have hr : s.engine.cmd? = some r := by rw [he]; rfl
  rcases hd.code_cases c with hcode | hcode | hbad | ⟨sq, entry, hdata⟩
  · cases (exec_clear he hcode).symm.trans ht
    exact h.setEngine hr.symm ⟨hc, hd.resetDict hc.minCode⟩
  · cases (exec_end he hcode).symm.trans ht
    exact h.finishDecode hr hc.geometry _
  · cases (hbad.exec hd he).symm.trans ht
    exact h.complete ..
  · cases (hdata.exec he).symm.trans ht
    exact h.dataCode he hc hd hw hdata

/-- A framing byte. -/
theorem State.Inv.execFrameByte (h : s.Inv) (he : s.engine = .decoding r d) (hc : DecodeChecked s.params r)
    (hd : d.Inv r) {b : Byte} (ht : exec (decodeFrameByte b) s = .next t) : t.Inv := by
  by_cases hb : b = 0
  · cases (exec_frameByte_zero he hb).symm.trans ht
    exact h.complete ..
  · cases (exec_frameByte_length he hb).symm.trans ht
    exact h.setEngine (by rw [he]; rfl) ⟨hc, hd.withRem (Nat.le_of_lt_succ b.isLt)⟩

theorem State.Inv.decodeTurn (h : s.Inv) (he : s.engine = .decoding r d) (ht : s.decodeTurn r d = .next t) :
    t.Inv := by
  have hengine := h.engine
  rw [he] at hengine
  obtain ⟨hc, hd⟩ := hengine
  have moved {d' : DecState} (hd' : d'.Inv r) : (s.setEngine (.decoding r d')).Inv :=
    h.setEngine (by rw [he]; rfl) ⟨hc, hd'⟩
  unfold State.decodeTurn at ht
  split_ifs at ht with hw hp hrem
  · cases ht
    exact h.complete ..
  · have hadv := hd.advance (Nat.not_le.1 hp)
    exact (moved hadv).execFrameByte rfl hc hadv ht
  · cases ht
    exact moved (hd.takeData (Nat.not_le.1 hp) hw _)
  · have hdrop := hd.dropCode (Nat.not_lt.1 hw)
    exact (moved hdrop).execCode (d := d.dropCode) rfl hc hdrop (Nat.mod_lt _ (Nat.two_pow_pos _)) ht

/-- One pixel stays inside FB. -/
theorem State.Inv.pixel (h : s.Inv) (hc : CompositeChecked s.params r) {i : Nat} (hi : i < r.pixels) :
    (s.pixel r i).Inv := by
  unfold State.pixel
  split
  · exact h
  · exact h.withMem (h.memory.store (n := .w32) (fun j hj => .fb h.params (hc.pixelOf_lt hi) hj) _)

theorem State.Inv.compositeTurn (h : s.Inv) {res : DecResult} {i : Nat} (he : s.engine = .compositing r res i) :
    (s.compositeTurn r res i).Inv := by
  have hengine := h.engine
  rw [he] at hengine
  obtain ⟨hc, -⟩ := hengine
  unfold State.compositeTurn
  split_ifs with hi
  · obtain ⟨m, hm⟩ := s.pixel_eq_withMem r i
    have hpix := h.pixel hc hi
    rw [hm] at hpix ⊢
    exact hpix.setEngine (show _ = s.engine.cmd? by rw [he]; rfl) ⟨hc, hi⟩
  · exact h.complete ..

theorem State.Inv.engineTurn (h : s.Inv) (ht : s.engineTurn = .next t) : t.Inv := by
  unfold State.engineTurn at ht
  split at ht
  next => cases ht; exact h
  next r he => cases ht; exact h.start he
  next r d he => exact h.decodeTurn he ht
  next r res i he => cases ht; exact h.compositeTurn he

/-! ### The host and the resets -/

/-- FCFG takes no reserved bit. -/
theorem fcfgMask_reserved (v : Word) : v &&& fcfgMask &&& ~~~fcfgMask = 0 := by
  rw [BitVec.and_assoc, show fcfgMask &&& ~~~fcfgMask = 0#32 by decide]
  exact BitVec.and_zero

theorem State.Inv.softReset (h : s.Inv) : s.softReset.Inv :=
  ⟨h.params, h.memory.abandon.wf, h.memory.abandon.inMap, BitVec.zero_and, .of_idle rfl, trivial⟩

theorem State.Inv.hardReset (h : s.Inv) : s.hardReset.Inv :=
  ⟨h.params, .nil, rfl, BitVec.zero_and, .of_idle rfl, trivial⟩

theorem State.Inv.ctrl (h : s.Inv) (ht : CtrlShape s t) : t.Inv := by
  have hbusy := h.busyStatus.ctrl ht
  cases ht with
  | reset => exact h.softReset
  | start ie op _ => exact ⟨h.params, h.memWf, h.memMap, h.fcfgReserved, hbusy, trivial⟩
  | load | drop | badcmd => exact ⟨h.params, h.memWf, h.memMap, h.fcfgReserved, hbusy, h.engine⟩

theorem State.Inv.respond (h : s.Inv) (b : BusResp) : (s.respond b).Inv :=
  ⟨h.params, h.memWf, h.memMap, h.fcfgReserved, h.busyStatus, h.engine⟩

theorem State.Inv.host (h : s.Inv) (ht : HostShape s t) : t.Inv := by
  have hbusy := h.busyStatus.host ht
  cases ht with
  | ctrl t ht => exact (h.respond .written).ctrl ht
  | config screen fpos fdim fcfg cbuflen hf =>
    have hfcfg : fcfg &&& ~~~fcfgMask = 0 := by
      rcases hf with rfl | ⟨v, rfl⟩
      · exact h.fcfgReserved
      · exact fcfgMask_reserved v
    exact ⟨h.params, h.memWf, h.memMap, hfcfg, hbusy, h.engine⟩
  | store n a v g hl hg _ =>
    obtain ⟨-, -, -, hwin⟩ := legalRegion_iff.1 hl
    obtain ⟨m, hm⟩ := (s.respond .written).store_eq_withMem n a v
    have hmem := (h.respond .written).memory.store (fun j hj => ⟨g, hwin j hj, hg⟩) v
    rw [hm] at hmem ⊢
    exact (h.respond .written).withMem hmem
  | answer | freeValue | status => exact ⟨h.params, h.memWf, h.memMap, h.fcfgReserved, hbusy, h.engine⟩

end

/-! ### The obligation -/

/-- A step whose turn is the reset input's. -/
theorem step_resetDue {s : State} {rest : List Turn} (h : s.agenda = .reset :: rest) :
    step s = .next s.turnTaken.hardReset := by
  simp [step, State.nextTurn, h, State.turnTaken, State.takeTurn, State.withAgenda]

/-- Whose turn a step is: the reset input's, the host's, or the engine's. -/
theorem step_turn {s t : State} (h : step s = .next t) :
    t = s.turnTaken.hardReset ∨ HostShape s.turnTaken t ∨ s.turnTaken.engineTurn = .next t := by
  rcases ha : s.agenda with _ | ⟨turn, rest⟩
  · exact .inr (.inr ((step_engineDue (.inl ha)).symm.trans h))
  cases turn with
  | host x => exact .inr (.inl (hostTurn_shape ((step_hostDue ⟨rest, ha⟩).symm.trans h)))
  | engine => exact .inr (.inr ((step_engineDue (.inr ⟨rest, ha⟩)).symm.trans h))
  | reset =>
    cases (step_resetDue ha).symm.trans h
    exact .inl rfl

/-- Settles O50, by whose turn the step is; the turn off the agenda leaves every part of the invariant. -/
theorem everyStepKeepsTheInvariant : Obligations.EveryStepKeepsTheInvariant := by
  unfold Obligations.EveryStepKeepsTheInvariant
  intro s t hs h
  have hs' : s.turnTaken.Inv := ⟨hs.params, hs.memWf, hs.memMap, hs.fcfgReserved, hs.busyStatus, hs.engine⟩
  rcases step_turn h with rfl | host | engine
  · exact hs'.hardReset
  · exact hs'.host host
  · exact hs'.engineTurn engine

end Sys2Proof.Machine
end

/-! ## The codes and framing bytes (41_lzw.md) -/

section
/-! SUPPORT. What a data code does, in the terms of the statements; the value of E_BADCODE by its bits; and a DECODE
as LzwDecode. -/

namespace Sys2Proof.Machine

open Sys2Proof

section
variable {r : CmdRec} {d : DecState} {s : State}

/-! ### Data codes (R189 to R191, R193) -/

/-- A data code, whatever its class, does what the statements say of FIRST, KNOWN and KWKWK. -/
theorem State.dataCode_effect (hn : d.count < r.pixels) (c : Nat) (sq : List Byte) (entry : Option (List Byte)) :
    DataCodeEffect s r d c sq entry (s.dataCode r d c sq entry) := by
  obtain ⟨m, hout, hframe, -, -, heq⟩ := State.dataCode_spec (s := s) hn c sq entry
  rw [heq]
  by_cases hfull : r.pixels ≤ d.count + sq.length
  · rw [if_pos hfull]
    have bytes (a : Nat) := State.byteAt_finishDecode (s.withMem m) r { count := r.pixels, val := 0, pos := d.p } a
    refine ⟨fun j hj => (hout j hj).trans (congrArg some (bytes _).symm),
      fun a ha => (bytes a).trans (State.byteAt_withMem (hframe a ha)), fun h => absurd hfull (Nat.not_le.2 h),
      fun _ hop => ?_, fun _ hop => ?_⟩
    · rw [State.finishDecode_decode hop, State.complete_reporting (by simp [hop])]
      rfl
    · rw [State.finishDecode_frame hop]
      rfl
  · rw [if_neg hfull]
    exact ⟨hout, fun a ha => State.byteAt_withMem (hframe a ha), fun _ => rfl, fun h => absurd h hfull,
      fun h => absurd h hfull⟩

/-- After a data code the engine is in one of three states, wherever the count stood before. -/
theorem State.dataCode_engine (s : State) (r : CmdRec) (d : DecState) (c : Nat) (sq : List Byte)
    (entry : Option (List Byte)) :
    (s.dataCode r d c sq entry).engine = .idle ∨
      (∃ res, (s.dataCode r d c sq entry).engine = .compositing r res 0) ∨
      ∃ n, (s.dataCode r d c sq entry).engine = .decoding r (d.after n entry c) := by
  unfold State.dataCode
  split
  · unfold State.finishDecode
    split
    · exact .inr (.inl ⟨_, rfl⟩)
    · exact .inl rfl
  · exact .inr (.inr ⟨_, rfl⟩)

/-- With a full table, a data code changes the count and the previous code alone (R194). -/
theorem DecState.after_full (hfull : dictEntries ≤ d.next) (n : Nat) (e : List Byte) (c : Nat) :
    d.after n (some e) c = { d with prev := some c, count := n } := by
  rw [← DecState.after_eq, DecState.learn, DecState.addEntry_full hfull]

/-- The sequence of the previous code is its slot's. -/
theorem DecState.prevSeq_eq {pc : Nat} (h : d.prev = some pc) : d.prevSeq = d.seq pc := by
  rw [DecState.prevSeq, h, Option.bind_some]

/-! ### E_BADCODE (R192) -/

/-- ERRVAL of a bad code: the code in bits 11 to 0 and next in bits 27 to 16 (10_state.md R41). -/
theorem badCode_value {c n : Nat} (hc : c < 2 ^ 12) (hn : n < 2 ^ 12) :
    let v := BitVec.ofNat 32 (c + n * 2 ^ 16)
    v.extractLsb' 0 12 = BitVec.ofNat 12 c ∧ v.extractLsb' 12 4 = 0#4 ∧ v.extractLsb' 16 12 = BitVec.ofNat 12 n ∧
      v.extractLsb' 28 4 = 0#4 := by
  refine ⟨?_, ?_, ?_, ?_⟩
  all_goals
    apply BitVec.eq_of_toNat_eq
    simp only [BitVec.extractLsb'_toNat, BitVec.toNat_ofNat, Nat.shiftRight_eq_div_pow]
    omega

/-- An error of the decode phase, in the terms of the statements. -/
theorem State.raiseError_eq (hop : r.op ≠ .composite) (e : Err) (val : Nat) :
    s.raiseError r d e val = s.failed e d.count val d.p := State.complete_reporting hop s e _

end

/-! ### The obligations -/

/-- Settles O18: CLEAR resets the dictionary to `rootDict`. -/
theorem clearResetsDictionary : Obligations.ClearResetsDictionary := by
  unfold Obligations.ClearResetsDictionary
  intro s r d he
  exact ⟨(CodeClass.clear rfl : CodeClass (codeCtx r d) _ _).decodeCode_eq, rootDict r.m.toNat,
    inDecode_decoding he _, rootDict_length _, fun c => rootDict_root, rootDict_special (.inl rfl),
    rootDict_special (.inr rfl)⟩

/-- Settles O20: FIRST is a data code of one index and no entry. -/
theorem firstCodeEmitsRoot : Obligations.FirstCodeEmitsRoot := by
  unfold Obligations.FirstCodeEmitsRoot
  intro s r d c he hp hn hs
  refine ⟨fun hc => (CodeClass.first hp hc : CodeClass (codeCtx r d) c _).decodeCode_eq, _, ?_,
    State.dataCode_effect hn c _ none⟩
  simp only [exec, execCodeFirst, inDecode_decoding he, hs]

/-- Settles O21: KNOWN is a data code of its slot's sequence. -/
theorem knownCodeEmitsItsSequence : Obligations.KnownCodeEmitsItsSequence := by
  unfold Obligations.KnownCodeEmitsItsSequence
  intro s r d c pc ps rest b he hp hps hs hn
  have hne : d.prev ≠ none := by simp [hp]
  refine ⟨fun hc h1 h2 => (CodeClass.known hne hc h1 h2 : CodeClass (codeCtx r d) c _).decodeCode_eq, _, ?_,
    State.dataCode_effect hn c _ _⟩
  simp only [exec, execCodeKnown, inDecode_decoding he, DecState.prevSeq_eq hp, hps, hs]
  rfl

/-- Settles O22: KWKWK is a data code of the previous sequence extended by its first index. -/
theorem kwkwkCodeEmitsExtendedPrevious : Obligations.KwkwkCodeEmitsExtendedPrevious := by
  unfold Obligations.KwkwkCodeEmitsExtendedPrevious
  intro s r d pc rest b he hp hps hn
  have hne : d.prev ≠ none := by simp [hp]
  refine ⟨fun hlen => ?_, _, ?_, State.dataCode_effect hn d.next _ _⟩
  · have h1 : d.dict.length ≠ 2 ^ r.m.toNat := by omega
    have h2 : d.dict.length ≠ 2 ^ r.m.toNat + 1 := by omega
    exact (CodeClass.kwkwk hne rfl h1 h2 : CodeClass (codeCtx r d) _ _).decodeCode_eq
  · simp only [exec, execCodeKwkwk, inDecode_decoding he, DecState.prevSeq_eq hp, hps]
    rfl

/-- Settles O23: both classes raise the same error, whose value is read by its bits. -/
theorem badCodeFailsWithCodeAndNext : Obligations.BadCodeFailsWithCodeAndNext := by
  unfold Obligations.BadCodeFailsWithCodeAndNext
  intro s r d c he hop hc hn
  obtain ⟨hcode, hlow, hnext, hhigh⟩ := badCode_value hc hn
  have fails : s.badCode r d c = s.failed .badcode d.count (c + d.next * 2 ^ 16) d.p := State.raiseError_eq hop _ _
  refine ⟨fun hp h => (CodeClass.firstBad hp h : CodeClass (codeCtx r d) c _).decodeCode_eq, fun hp hge hlt => ?_,
    _, hcode, hlow, hnext, hhigh, ?_, ?_⟩
  · have h1 : c ≠ 2 ^ r.m.toNat := by omega
    have h2 : c ≠ 2 ^ r.m.toNat + 1 := by omega
    exact (CodeClass.invalid hp hlt h1 h2 : CodeClass (codeCtx r d) c _).decodeCode_eq
  · exact (inDecode_decoding he _).trans (congrArg _ fails)
  · exact (inDecode_decoding he _).trans (congrArg _ fails)

/-- Settles O29, by whether the table has room. -/
theorem addEntryGrowsTableAndWidth : Obligations.AddEntryGrowsTableAndWidth := by
  unfold Obligations.AddEntryGrowsTableAndWidth
  refine fun d e => ⟨fun hfull => DecState.addEntry_full hfull e, fun hroom => ?_⟩
  refine ⟨_, _, DecState.addEntry_room hroom e, by simp, by simp, fun c hc => List.getElem?_append_left hc, ?_, ?_⟩
  all_goals
    simp only [DecState.next, maxCodeWidth]
    split_ifs with hgrow <;> simp [hgrow]

/-- Settles O35: the start checks pass, and the decode phase runs as LzwDecode to the completion. -/
theorem decodeRunsAsLzwDecode : Obligations.DecodeRunsAsLzwDecode := by
  unfold Obligations.DecodeRunsAsLzwDecode
  intro s r hinv ha he hop hm hpix hlen
  have hok : startOk s.params r = true := by simp [startOk, hop, hm, hpix, hlen]
  have hne : r.op ≠ .composite := by simp [hop]
  have hstart := Runs.starting ha he
  rw [State.start_passed hok, if_neg hne] at hstart
  obtain ⟨R, m, hR, hdecode, hcount, -, -, hindices, hothers⟩ := runs_lzwDecode hinv.params ha hok hne
  have hend : (s.withMem m).endDecode r R = (s.withMem m).failed R.err R.res.count R.res.val R.res.pos := by
    by_cases herr : R.err = .none
    · rw [State.endDecode_success herr, State.finishDecode_decode hop, State.complete_reporting hne, herr]
    · rw [State.endDecode_failure herr, State.complete_reporting hne]
  obtain ⟨k, hk⟩ := hstart.trans hdecode
  rw [hend] at hk
  exact ⟨k, _, R, hk, hR, rfl, hcount, hindices, fun a ha => State.byteAt_withMem (hothers a ha)⟩

/-- Settles O59: a full table learns nothing. -/
theorem fullTableIsFrozen : Obligations.FullTableIsFrozen := by
  unfold Obligations.FullTableIsFrozen
  intro s t r d c he hfull h
  replace h := (inDecode_decoding he _).symm.trans h
  split at h <;> cases h
  rename_i ps sq _ _
  rcases s.dataCode_engine r d c sq (some (ps ++ sq.take 1)) with hidle | hcomp | ⟨n, hdec⟩
  · exact .inl hidle
  · exact .inr (.inl hcomp)
  · rw [DecState.after_full hfull.ge] at hdec
    exact .inr (.inr ⟨_, hdec, rfl, rfl, rfl⟩)

/-- Settles O7: the turn reads a length byte. -/
theorem stepRunsFrameByte : Obligations.StepRunsFrameByte := by
  unfold Obligations.StepRunsFrameByte
  exact fun s r d hd he hw hp hr => (step_decoding hd he).trans (State.decodeTurn_frameByte hw hp hr)

/-- Settles O8: the turn takes a code. -/
theorem stepRunsCode : Obligations.StepRunsCode := by
  unfold Obligations.StepRunsCode
  exact fun s r d hd he hw => (step_decoding hd he).trans (State.decodeTurn_code hw)

/-- Settles O19: END finishes the decode phase, which DECODE completes and FRAME goes on from. -/
theorem endStopsDecodeWithSuccess : Obligations.EndStopsDecodeWithSuccess := by
  unfold Obligations.EndStopsDecodeWithSuccess
  intro s r d he
  have ends : exec .codeEnd s = .next (s.finishDecode r { count := d.count, val := 0, pos := d.p }) :=
    inDecode_decoding he _
  refine ⟨(CodeClass.endCode rfl : CodeClass (codeCtx r d) _ _).decodeCode_eq, fun hop => ?_, fun hop => ?_⟩
  · rw [ends, State.finishDecode_decode hop, State.complete_reporting (by simp [hop])]
  · rw [ends, State.finishDecode_frame hop]
    rfl

/-- Settles O25: TERMINATOR raises E_EOD. -/
theorem terminatorFailsWithEod : Obligations.TerminatorFailsWithEod := by
  unfold Obligations.TerminatorFailsWithEod
  exact fun s r d he hop => (inDecode_decoding he _).trans (congrArg _ (State.raiseError_eq hop .eod 0))

/-- Settles O27: the turn that needs the byte raises E_OVERRUN. -/
theorem byteAtOrPastLenIsOverrun : Obligations.ByteAtOrPastLenIsOverrun := by
  unfold Obligations.ByteAtOrPastLenIsOverrun
  intro s r d hd he hop hw hp
  rw [step_decoding hd he, State.decodeTurn_overrun hw hp, State.raiseError_eq hop]

end Sys2Proof.Machine
end

/-! ## The compositor (42_compositor.md) -/

section
/-! SUPPORT. The four passes by their closed form, RowOf as a map of the rows onto themselves, and one pixel. -/

namespace Sys2Proof.Machine

open Sys2Proof

/-! ### The four passes (R233, R234) -/

/-- The rows of one pass: those below h whose remainder by m is c are m × k + c for the first n numbers k, if n counts
them. -/
theorem filter_range_mod {m c h n : Nat} (hc : c < m) (hn : ∀ k, m * k + c < h ↔ k < n) :
    (List.range h).filter (· % m = c) = (List.range n).map (m * · + c) := by
  have hm : 0 < m := by omega
  refine List.SortedLT.eq_of_mem_iff ?_ ?_ fun y => ?_
  · exact (List.pairwise_lt_range.filter _).sortedLT
  · have rising : StrictMono (m * · + c) := fun a b hab => Nat.add_lt_add_right (Nat.mul_lt_mul_of_pos_left hab hm) c
    exact (List.pairwise_lt_range.map _ fun a b hab => rising hab).sortedLT
  · simp only [List.mem_filter, List.mem_range, List.mem_map, decide_eq_true_eq]
    constructor
    · rintro ⟨hy, hmod⟩
      have hdiv : m * (y / m) + c = y := hmod ▸ Nat.div_add_mod y m
      exact ⟨y / m, (hn _).1 (hdiv.symm ▸ hy), hdiv⟩
    · rintro ⟨k, hk, rfl⟩
      exact ⟨(hn k).2 hk, by rw [Nat.mul_add_mod, Nat.mod_eq_of_lt hc]⟩

/-- Rows(h) by the number of rows in each pass (R234). -/
theorem interlaceRows_eq (h : Nat) : interlaceRows h =
    (List.range (passRows1 h)).map (8 * · + 0) ++ (List.range (passRows2 h)).map (8 * · + 4) ++
      (List.range (passRows3 h)).map (4 * · + 2) ++ (List.range (h / 2)).map (2 * · + 1) := by
  have pass1 (k : Nat) : 8 * k + 0 < h ↔ k < passRows1 h := by unfold passRows1; omega
  have pass2 (k : Nat) : 8 * k + 4 < h ↔ k < passRows2 h := by unfold passRows2; omega
  have pass3 (k : Nat) : 4 * k + 2 < h ↔ k < passRows3 h := by unfold passRows3; omega
  have pass4 (k : Nat) : 2 * k + 1 < h ↔ k < h / 2 := by omega
  rw [interlaceRows, filter_range_mod (by decide) pass1, filter_range_mod (by decide) pass2,
    filter_range_mod (by decide) pass3, filter_range_mod (by decide) pass4]

/-! ### One pixel (R231, R235) -/

theorem CmdRec.transparent_iff {r : CmdRec} {idx : Byte} : r.transparent idx = true ↔ r.te = true ∧ idx = r.ti := by
  simp [CmdRec.transparent]

theorem State.pixel_transparent {s : State} {r : CmdRec} {i : Nat} (h : r.transparent (s.ibuf i) = true) :
    s.pixel r i = s := if_pos h

theorem State.drawn_opaque {s : State} {r : CmdRec} {i : Nat} (h : ¬r.transparent (s.ibuf i) = true) :
    s.drawn r i = s.ctab (s.ibuf i) := if_neg h

/-- Before the end of the frame a turn of the composite phase is one pixel. -/
theorem State.compositeTurn_pixel {r : CmdRec} {i : Nat} (h : i < r.pixels) (s : State) (res : DecResult) :
    s.compositeTurn r res i = (s.pixel r i).setEngine (.compositing r res (i + 1)) := if_pos h

/-! ### The obligations -/

/-- Settles O30, by the pass that the row's place lies in. -/
theorem interlaceRowsMatchClosedForm : Obligations.InterlaceRowsMatchClosedForm := by
  unfold Obligations.InterlaceRowsMatchClosedForm
  intro h
  have hlen : passRows1 h + passRows2 h + passRows3 h + h / 2 = h := by
    simp only [passRows1, passRows2, passRows3]; omega
  rw [interlaceRows_eq]
  refine ⟨by simp only [List.length_append, List.length_map, List.length_range, hlen], fun r hr => ?_⟩
  simp only [List.getElem?_append, List.getElem?_map, List.length_append, List.length_map, List.length_range, rowOf,
    Bool.true_eq_false, if_false, Nat.sub_sub]
  split_ifs
  -- where the two sides would name different passes, their bounds contradict each other
  any_goals omega
  all_goals exact congrArg (Option.map _) (List.getElem?_range (by omega))

/-- Settles O31: a map of a finite set into itself that is one to one is onto. -/
theorem rowOfIsAPermutation : Obligations.RowOfIsAPermutation := by
  unfold Obligations.RowOfIsAPermutation
  intro h il
  refine ⟨fun r hr => rowOf_lt hr il, fun r q _ _ he => rowOf_injective he, fun y hy => ?_⟩
  have onto : Set.SurjOn (rowOf · h il) (Finset.range h) (Finset.range h) := by
    refine Finset.surjOn_of_injOn_of_card_le _ (fun r hr => ?_) (fun r _ q _ he => rowOf_injective he) le_rfl
    simpa using rowOf_lt (by simpa using hr) il
  simpa using onto (by simpa using hy)

/-- Settles O32, by whether the index is transparent. -/
theorem pixelTurnDrawsOrSkips : Obligations.PixelTurnDrawsOrSkips := by
  unfold Obligations.PixelTurnDrawsOrSkips
  intro s r res i hd he hi
  obtain ⟨m, hm⟩ := s.turnTaken.pixel_eq_withMem r i
  have bytes (a : Nat) : (s.turnTaken.withMem m).byteAt a = (s.turnTaken.pixel r i).byteAt a := by rw [hm]
  refine ⟨(s.turnTaken.withMem m).setEngine (.compositing r res (i + 1)), ?_, rfl, fun hte hti a => ?_, fun hop => ?_⟩
  · rw [step_compositing hd he, State.compositeTurn_pixel hi, hm]
  · have hskip := State.pixel_transparent (s := s.turnTaken) (CmdRec.transparent_iff.2 ⟨hte, hti⟩)
    exact (bytes a).trans (by rw [hskip, State.byteAt_turnTaken])
  · have hword := s.turnTaken.fb_pixel r i
    rw [State.drawn_opaque (s := s.turnTaken) (mt CmdRec.transparent_iff.1 hop), hm] at hword
    exact ⟨hword, fun a ha => (bytes a).trans (State.byteAt_pixel ha s.turnTaken)⟩

/-- Settles O34: the start checks pass, and the composite phase draws every pixel of the frame. -/
theorem compositeDrawsTheFrame : Obligations.CompositeDrawsTheFrame := by
  unfold Obligations.CompositeDrawsTheFrame
  intro s r hinv ha he hop hs hf
  have hok : startOk s.params r = true := by simp [startOk, hop, hs, hf]
  have hstart := Runs.starting ha he
  rw [State.start_passed hok, if_pos hop] at hstart
  obtain ⟨m, hdraw, hdrawn⟩ := runs_composite (s := s.setEngine (.compositing r .zero 0)) (frameInScreen_iff.1 hf).1
    (ibuf_below_fb hinv.params hs hf) (Nat.zero_le _) ha rfl
  replace hdrawn : Drawn s r 0 (s.withMem m) := ⟨hdrawn.pixels, hdrawn.others⟩
  obtain ⟨k, hk⟩ := hstart.trans hdraw
  rw [State.complete_composite hop] at hk
  exact ⟨k, _, hk, rfl, fun row x hrow hx => hdrawn.fb_target hrow hx, fun a hrect => hdrawn.outside hrect⟩

end Sys2Proof.Machine
end

/-! ## Errors, HOST_HAZARD and irq (60_exceptions.md) -/

section
/-! SUPPORT. Where a step answers a next state: each turn of the engine from the invariant, and each transaction of the
host but a window access while BUSY; the bytes of FB under a turn of the engine; and irq. -/

namespace Sys2Proof.Machine

open Sys2Proof

section
variable {r : CmdRec} {d : DecState} {s : State}

/-! ### Every turn of the engine goes on (R239, R260) -/

theorem exec_frameByte_next (he : s.engine = .decoding r d) (b : Byte) :
    ∃ t, exec (decodeFrameByte b) s = .next t := by
  by_cases hb : b = 0
  · exact ⟨_, exec_frameByte_zero he hb⟩
  · exact ⟨_, exec_frameByte_length he hb⟩

/-- From the decoder's invariant no code names a slot without a sequence. -/
theorem DecState.Inv.exec_next (hd : d.Inv r) (he : s.engine = .decoding r d) (c : Nat) :
    ∃ t, exec (decodeCode (codeCtx r d) c) s = .next t := by
  rcases hd.code_cases c with hcode | hcode | hbad | ⟨sq, entry, hdata⟩
  · exact ⟨_, exec_clear he hcode⟩
  · exact ⟨_, exec_end he hcode⟩
  · exact ⟨_, hbad.exec hd he⟩
  · exact ⟨_, hdata.exec he⟩

theorem DecState.Inv.decodeTurn_next (hd : d.Inv r) (s : State) : ∃ t, s.decodeTurn r d = .next t := by
  unfold State.decodeTurn
  split_ifs with hw hp hrem
  · exact ⟨_, rfl⟩
  · exact exec_frameByte_next rfl _
  · exact ⟨_, rfl⟩
  · have hdrop := hd.dropCode (Nat.not_lt.1 hw)
    exact hdrop.exec_next (d := d.dropCode) rfl _

theorem Engine.Inv.engineTurn_next (h : s.engine.Inv s.params) : ∃ t, s.engineTurn = .next t := by
  unfold State.engineTurn
  split
  next => exact ⟨_, rfl⟩
  next r he => exact ⟨_, rfl⟩
  next r d he =>
    rw [he] at h
    obtain ⟨-, hd⟩ := h
    exact hd.decodeTurn_next s
  next r res i he => exact ⟨_, rfl⟩

/-! ### Every transaction of the host but one kind goes on (R267) -/

theorem exec_ctrl_next {i : Instr} (hl : i.level = .ctrl) (s : State) : ∃ t, exec i s = .next t := by
  cases i
  case nop | decode | composite | frame | reserved4to7 | reserved8toF | srst => exact ⟨_, rfl⟩
  all_goals cases hl

theorem State.writeReg_next (s : State) (v : Word) (g : Reg) : ∃ t, s.writeReg v g = .next t := by
  cases g
  case ctrl => exact exec_ctrl_next (decodeCtrl_level v) s
  all_goals exact ⟨_, rfl⟩

/-- A legal access to a memory window while BUSY. -/
def State.Hazard (s : State) (n : Width) (addr : Word) : Prop :=
  s.busy = true ∧ ∃ g, LegalAccess s.params n addr.toNat g ∧ g ≠ .regs

/-- An access is a bus error, a register access, a window access while idle, or a hazard. -/
theorem State.access_cases (s : State) (n : Width) (addr : Word) :
    (∀ g, ¬LegalAccess s.params n addr.toNat g) ∨ legalRegion s.params n addr.toNat = some .regs ∨
      (s.busy = false ∧ ∃ g, LegalAccess s.params n addr.toNat g ∧ g ≠ .regs) ∨ s.Hazard n addr := by
  by_cases hl : ∃ g, LegalAccess s.params n addr.toNat g
  · obtain ⟨g, hl⟩ := hl
    by_cases hg : g = .regs
    · exact .inr (.inl (hg ▸ legalRegion_iff.2 hl))
    · cases hb : s.busy with
      | false => exact .inr (.inr (.inl ⟨rfl, g, hl, hg⟩))
      | true => exact .inr (.inr (.inr ⟨hb, g, hl, hg⟩))
  · exact .inl (not_exists.1 hl)

theorem State.hostRead_next_or_hazard (s : State) (n : Width) (addr : Word) :
    (∃ t, s.hostRead n addr = .next t) ∨ s.Hazard n addr := by
  rcases s.access_cases n addr with hill | hreg | ⟨hidle, g, hl, hg⟩ | hz
  · exact .inl ⟨_, State.hostRead_illegal hill⟩
  · exact .inl ⟨s.readReg (regAt addr.toNat), by simp only [State.hostRead, hreg]⟩
  · have hread := State.hostRead_window hl hg
    rw [hidle] at hread
    exact .inl ⟨_, hread⟩
  · exact .inr hz

theorem State.hostWrite_next_or_hazard (s : State) (n : Width) (addr v : Word) :
    (∃ t, s.hostWrite n addr v = .next t) ∨ s.Hazard n addr := by
  rcases s.access_cases n addr with hill | hreg | ⟨hidle, g, hl, hg⟩ | hz
  · exact .inl ⟨_, State.hostWrite_illegal hill v⟩
  · have hwrite : s.hostWrite n addr v = (s.respond .written).writeReg v (regAt addr.toNat) := by
      simp only [State.hostWrite, hreg]
    rw [hwrite]
    exact .inl (State.writeReg_next ..)
  · have hwrite := State.hostWrite_window hl hg v
    rw [hidle] at hwrite
    exact .inl ⟨_, hwrite⟩
  · exact .inr hz

/-- The host's next transaction is a legal access to a memory window while BUSY. -/
def State.hazardDue (s : State) : Prop :=
  ∃ n addr v, s.Hazard n addr ∧ (s.hostDue (.read n addr) ∨ s.hostDue (.write n addr v))

/-- From the invariant, a step answers a next state but at HOST_HAZARD. -/
theorem step_next_or_hazard (h : s.engine.Inv s.params) : (∃ t, step s = .next t) ∨ s.hazardDue := by
  have engine (hd : s.engineDue) : ∃ t, step s = .next t := by
    rw [step_engineDue hd]
    exact Engine.Inv.engineTurn_next (s := s.turnTaken) h
  rcases ha : s.agenda with _ | ⟨turn, rest⟩
  · exact .inl (engine (.inl ha))
  cases turn with
  | engine => exact .inl (engine (.inr ⟨rest, ha⟩))
  | reset => exact .inl ⟨_, step_resetDue ha⟩
  | host x =>
    have hd : s.hostDue x := ⟨rest, ha⟩
    rw [step_hostDue hd]
    cases x with
    | read n addr =>
      exact (s.turnTaken.hostRead_next_or_hazard n addr).imp id fun hz => ⟨n, addr, 0, hz, .inl hd⟩
    | write n addr v =>
      exact (s.turnTaken.hostWrite_next_or_hazard n addr v).imp id fun hz => ⟨n, addr, v, hz, .inr hd⟩

/-! ### The bytes that a turn of the engine can change (R262) -/

/-- The start checks write no memory. -/
theorem State.byteAt_start (s : State) (r : CmdRec) (a : Nat) : (s.start r).byteAt a = s.byteAt a := by
  cases hok : startOk s.params r with
  | false =>
    obtain ⟨e, -, hstart⟩ := State.start_failed hok
    rw [hstart, State.byteAt_complete]
  | true =>
    rw [State.start_passed hok, State.beginDecode]
    split_ifs
    · rfl
    · exact State.byteAt_finishDecode ..
    · rfl

/-- The decode phase writes IBUF, which lies below FB. -/
theorem DecState.Inv.decodeTurn_fb {t : State} (hd : d.Inv r) (hp : s.params.InRange) (hc : DecodeChecked s.params r)
    (ht : s.decodeTurn r d = .next t) {a : Nat} (ha : fbBase ≤ a) : t.byteAt a = s.byteAt a := by
  by_contra hne
  obtain ⟨-, hlt, -⟩ := WritesRoots.decodeTurn hd ht a hne
  obtain ⟨-, -, hmax⟩ := hp
  have hle := hc.pixels_le
  simp only [ibufBase, fbBase] at hlt ha
  omega

/-- Outside the composite phase a turn of the engine leaves FB. -/
theorem State.Inv.engineTurn_fb {t : State} (h : s.Inv) (hn : ¬∃ r res i, s.engine = .compositing r res i)
    (ht : s.engineTurn = .next t) {a : Nat} (ha : fbBase ≤ a) : t.byteAt a = s.byteAt a := by
  unfold State.engineTurn at ht
  split at ht
  next => cases ht; rfl
  next r he => cases ht; exact s.byteAt_start r a
  next r d he =>
    have hengine := h.engine
    rw [he] at hengine
    obtain ⟨hc, hd⟩ := hengine
    exact hd.decodeTurn_fb h.params hc ht ha
  next r res i he => exact absurd ⟨r, res, i, he⟩ hn

/-- A turn of the composite phase goes on to the next pixel, or completes with E_NONE. -/
theorem State.compositeTurn_cases (s : State) (r : CmdRec) (res : DecResult) (i : Nat) :
    (s.compositeTurn r res i).engine = .compositing r res (i + 1) ∨
      ((s.compositeTurn r res i).engine = .idle ∧ (s.compositeTurn r res i).errcode = .none) := by
  unfold State.compositeTurn
  split
  · exact .inl rfl
  · exact .inr ⟨rfl, rfl⟩

end

/-! ### irq (R270) -/

theorem State.irq_eq_false_of_done {s : State} (h : s.done = false) : s.irq = false := by simp [State.irq, h]

/-! ### The obligations -/

/-- Settles O38: while BUSY a window access, read or write, takes the hazard branch. -/
theorem windowAccessWhileBusyIsHostHazard : Obligations.WindowAccessWhileBusyIsHostHazard := by
  unfold Obligations.WindowAccessWhileBusyIsHostHazard
  intro s n addr v g hl hg hb
  refine ⟨fun hd => ?_, fun hd => ?_⟩ <;> refine (step_hostDue hd).trans ?_
  · exact (State.hostRead_window (s := s.turnTaken) hl hg).trans (if_pos hb)
  · exact (State.hostWrite_window (s := s.turnTaken) hl hg v).trans (if_pos hb)

/-- At a hazard the step is the fault. -/
theorem State.hazardDue.step_eq {s : State} (h : s.hazardDue) : step s = .fault .hostHazard := by
  obtain ⟨n, addr, v, ⟨hb, g, hl, hg⟩, hd⟩ := h
  obtain ⟨hread, hwrite⟩ := windowAccessWhileBusyIsHostHazard s n addr v g hl hg hb
  exact hd.elim hread hwrite

/-- Settles O51: a step goes on, or it is HOST_HAZARD. -/
theorem stepsStopOnlyAtHostHazard : Obligations.StepsStopOnlyAtHostHazard := by
  unfold Obligations.StepsStopOnlyAtHostHazard
  intro s hs
  rcases step_next_or_hazard hs.engine with ⟨t, ht⟩ | hz
  · exact ⟨fun f hf => (by cases ht.symm.trans hf), fun f hf => (by cases ht.symm.trans hf)⟩
  · refine ⟨fun f hf => (by cases hz.step_eq.symm.trans hf), fun _ _ => ?_⟩
    obtain ⟨n, addr, v, ⟨hb, g, hl, hg⟩, hd⟩ := hz
    have haddr : BitVec.ofNat 32 addr.toNat = addr := by simp
    exact ⟨hb, n, addr.toNat, v, g, hl, hg, addr.isLt, haddr.symm ▸ hd⟩

/-- Settles O55: FB changes in no other phase, and the composite phase's turn is a pixel or the completion. -/
theorem fbChangesOnlyInThePhaseThatCannotFail : Obligations.FbChangesOnlyInThePhaseThatCannotFail := by
  unfold Obligations.FbChangesOnlyInThePhaseThatCannotFail
  refine fun s t hs hd h => ⟨fun a ha hne => ?_, fun r res i he => ?_⟩
  · have hs' : s.turnTaken.Inv := ⟨hs.params, hs.memWf, hs.memMap, hs.fcfgReserved, hs.busyStatus, hs.engine⟩
    by_contra hn
    exact hne (hs'.engineTurn_fb hn ((step_engineDue hd).symm.trans h) ha)
  · cases (step_compositing hd he).symm.trans h
    exact State.compositeTurn_cases ..

/-- Settles O46: NOP with IE = 0 clears IE, and each of the others clears DONE. -/
theorem irqIsDoneAndIe : Obligations.IrqIsDoneAndIe := by
  unfold Obligations.IrqIsDoneAndIe
  refine fun s => ⟨rfl, fun v hv => ?w1c, fun ie t hb h => ?accept, fun t h => ?nop, fun t h => ?srst, ?reset⟩
  case w1c => exact State.irq_eq_false_of_done (by simp [hv])
  case accept =>
    have accepted (op : Op) : (s.request ie op).irq = false := by
      rw [State.request_idle hb]
      exact State.irq_eq_false_of_done rfl
    rcases h with h | h | h <;> cases h <;> exact accepted _
  case nop =>
    cases h
    exact Bool.and_false _
  case srst =>
    cases h
    exact State.irq_eq_false_of_done s.softReset_done
  case reset => exact State.irq_eq_false_of_done s.hardReset_done

end Sys2Proof.Machine
end

/-! ## Reset and hazards (70_reset_and_hazards.md) -/

section
/-! SUPPORT. The state after each reset, the first turn of a command whose registers fail a start check, and what a turn
of the engine leaves unchanged. -/

namespace Sys2Proof.Machine

open Sys2Proof

/-! ### The state after a reset (R300) -/

theorem State.resetWith_registers (p : Config.Params) : (State.resetWith p).RegistersReset := by
  simp [State.RegistersReset, State.resetWith]

theorem State.Inv.resetWith {p : Config.Params} (hp : p.InRange) : (State.resetWith p).Inv :=
  ⟨hp, .nil, rfl, BitVec.zero_and, .of_idle rfl, trivial⟩

/-- A hardware reset covers every address. -/
theorem State.genAt_hardReset (s : State) (a : Nat) : s.hardReset.genAt a = s.losses.length + 1 := rfl

/-! ### A command that fails in its first turn (R306) -/

/-- MINCODE is the first check of DECODE and of FRAME. -/
theorem State.start_minCodeBad {r : CmdRec} (hop : r.op ≠ .composite) (h : minCodeOk r = false) (s : State) :
    s.start r = s.complete r .mincode .zero := by
  unfold State.start
  split
  next => simp [State.startDecode, h]
  next hc => exact absurd hc hop
  next => simp [State.startFrame, h]

/-- SCREEN is the first check of COMPOSITE. -/
theorem State.start_screenBad {s : State} {r : CmdRec} (hop : r.op = .composite) (h : screenOk s.params r = false) :
    s.start r = s.complete r .screen .zero := by
  simp [State.start, hop, State.startComposite, h]

/-- With nothing planned, the step after a request made while idle is the command's start checks. -/
theorem step_request {s : State} (ha : s.agenda = []) (hb : s.busy = false) (ie : Bool) (op : Op) :
    step (s.request ie op) = .next ((s.request ie op).turnTaken.start (s.latch op)) := by
  rw [State.request_idle hb]
  exact step_starting (.inl ha) rfl

/-- A command requested while idle, with nothing planned, whose first check fails ends in the next step. -/
theorem exec_request_failed {s : State} {i : Instr} {ie : Bool} {op : Op} {e : Err}
    (hi : exec i s = .next (s.request ie op)) (ha : s.agenda = []) (hb : s.busy = false)
    (h : ∀ u : State, u.start (s.latch op) = u.complete (s.latch op) e .zero) :
    ∃ u v, exec i s = .next u ∧ step u = .next v ∧ v.errcode = e ∧ v.busy = false :=
  ⟨_, _, hi, (step_request ha hb ie op).trans (congrArg _ (h _)), rfl, rfl⟩

/-- A soft reset leaves MINCODE 0, below the least minimum code size. -/
theorem State.softReset_minCodeBad (s : State) (op : Op) : minCodeOk (s.softReset.latch op) = false := by
  simp [minCodeOk, State.latch, fcfgMinCode]

/-- A soft reset leaves SCREEN 0, a screen with no column. -/
theorem State.softReset_screenBad (s : State) (p : Config.Params) (op : Op) :
    screenOk p (s.softReset.latch op) = false := by
  simp [screenOk, State.latch, lowHalf]

/-! ### What a turn of the engine leaves unchanged (R305) -/

/-- A turn of the engine changes at most the memory, the engine, DONE, ERRCODE and the result registers. -/
theorem engineTurn_frame {s t : State} (h : s.engineTurn = .next t) :
    t = { s with
      mem := t.mem
      engine := t.engine
      done := t.done
      errcode := t.errcode
      pixcount := t.pixcount
      errval := t.errval
      pos := t.pos } := by
  rcases engineTurn_shape h with ⟨-, rfl⟩ | ⟨r, -, m, -, ⟨e, res, rfl⟩ | ⟨e, -, rfl⟩⟩
  · rfl
  · rfl
  · rfl

/-! ### The obligations -/

/-- Settles O14: the latched record has MINCODE 0 and SCREEN 0, and each command checks one of them first. -/
theorem commandAfterSoftResetFailsItsCheck : Obligations.CommandAfterSoftResetFailsItsCheck := by
  unfold Obligations.CommandAfterSoftResetFailsItsCheck
  intro s ie ha
  have mincode {op : Op} (hop : op ≠ .composite) := State.start_minCodeBad hop (s.softReset_minCodeBad op)
  have screen (u : State) := State.start_screenBad rfl (s.softReset_screenBad u.params .composite)
  exact ⟨s.softReset, rfl, rfl, rfl, rfl, rfl, rfl,
    exec_request_failed (op := .decode) rfl ha rfl (mincode (by decide)),
    exec_request_failed (op := .frame) rfl ha rfl (mincode (by decide)),
    exec_request_failed (op := .composite) rfl ha rfl screen⟩

/-- Settles O56: the turn leaves all these fields, and the step takes it off the agenda. -/
theorem engineLeavesHostRegisters : Obligations.EngineLeavesHostRegisters := by
  unfold Obligations.EngineLeavesHostRegisters
  intro s t hd h
  rw [engineTurn_frame ((step_engineDue hd).symm.trans h)]
  exact ⟨rfl, rfl, rfl, rfl, rfl, rfl, rfl, rfl, rfl, rfl, rfl, rfl, rfl⟩

/-- Settles O48: the turn is `hardReset`, whose new event covers every address. -/
theorem hardwareResetState : Obligations.HardwareResetState := by
  unfold Obligations.HardwareResetState
  refine ⟨fun s rest ha => ?_, State.resetWith_registers _, rfl, rfl, rfl⟩
  have newer (a b : Nat) : s.genAt b < s.turnTaken.hardReset.genAt a := by
    rw [State.genAt_hardReset]
    exact s.genAt_lt b
  exact ⟨_, step_resetDue ha, State.hardReset_registers _, rfl, rfl, rfl, newer, rfl⟩

/-- Settles O49: the memory is empty and the engine idle; the parameters of `State.reset` are in range. -/
theorem resetMeetsTheInvariant : Obligations.ResetMeetsTheInvariant := by
  unfold Obligations.ResetMeetsTheInvariant
  exact ⟨fun _ hp => .resetWith hp, .resetWith (by decide)⟩

end Sys2Proof.Machine
end
